-- ==== Sys2Proof/Word.lean ====
section
/-! DEFINITION. Words, bytes, addresses and the two bus lines. -/

namespace Sys2Proof

/-- A 32-bit command word or register (R30, R31, R70). -/
abbrev Word := BitVec 32

/-- A bus data unit and a cell of the data buffer (R7 BYTE_BITS, R50). -/
abbrev Byte := BitVec 8

/-- A 7-bit I2C target address (R7 ADDR_BITS, R72). -/
abbrev Addr := BitVec 7

/-- A 16-bit sub-address of a target (R7 SUB_BITS, R73). -/
abbrev SubAddr := BitVec 16

/-- The two open-drain lines (R1, R74: L = 0 selects SCL, L = 1 selects SDA). -/
inductive Line where
  | scl
  | sda
  deriving DecidableEq, Repr

end Sys2Proof
end

