-- ==== Sys2Proof/Config.lean ====
section
/-! DEFINITION. The parameters of R7 and the free values. -/

namespace Sys2Proof

/-- Which numbers stand for a pin reference: the type PinId is OPEN (R7, D20). -/
opaque Config.isPin : Nat → Bool

/-- A pin reference (R7, D20): the numbers that `Config.isPin` picks, and 0, so that there is at least one. The
type is OPEN: it can be any type that can be numbered, finite or not (log 8). -/
structure PinId where
  num  : Nat
  real : num = 0 ∨ Config.isPin num = true
  deriving DecidableEq, Repr

/-- The pin reference that the registers name at reset (log 4). -/
def PinId.first : PinId := { num := 0, real := .inl rfl }

/-- How K / b is reduced to an integer (R7 HP_ROUNDING, R120, conflict C1). -/
inductive HpRounding where
  | floor
  | nearest
  deriving DecidableEq, Repr

/-- The first address SCAN does not probe (R7 SCAN_END, conflict C2): 0x78, or the alternative 0x79. -/
inductive ScanEnd where
  | x78
  | x79
  deriving DecidableEq, Repr

/-- What READ with LEN = 0 does (R7 READ0_MODE, R144, conflict C4). -/
inductive Read0Mode where
  | bus
  | nobus
  deriving DecidableEq, Repr

/-- PIN_VALID (R7, D20), as plain data: the OPEN predicate itself, of which nothing is known, or one written out
(log 9). -/
inductive PinRule where
  /-- Any predicate: `Config.pinValid`, which has no body. -/
  | uninterpreted
  /-- Every pair is valid. -/
  | all
  /-- A pair is valid when its two pins differ. -/
  | distinct
  /-- The pairs of a list are valid. -/
  | listed (pairs : List (PinId × PinId))
  deriving DecidableEq, Repr

/-- The parameters of R7 that a rule of the block reads. They are an argument of the model: State carries
them and no step changes them, so a statement about every state is one for every admitted value
(log 6, log 7). TIME_UNIT and WAIT_SLACK are read by no rule (log 15); N_INSTANCES is the size of a
`System` (log 16). -/
structure Params where
  /-- The last index of the data buffer: BUF_MAX = bufLast + 1, so BUF_MAX ≥ 1 (R7, D22). -/
  bufLast     : Nat
  /-- The scale constant K_SCALE (R7, D6). -/
  kScale      : Word
  /-- HP_ROUNDING (R7, D5). -/
  hpRounding  : HpRounding
  /-- SCAN_END (R7, D11). -/
  scanEnd     : ScanEnd
  /-- READ0_MODE (R7, D12). -/
  read0Mode   : Read0Mode
  /-- PIN_VALID (R7, D20; log 9). -/
  pinRule     : PinRule
  /-- The identifiers for which BUS_ID_VALID holds (R7, D21). -/
  validBuses  : List Word
  /-- The identifiers for which BUS_IS_BITBANG holds (R7, D21). -/
  bitbangBuses : List Word
  deriving DecidableEq, Repr

namespace Config

/-- BUF_MAX - 1 of the machine that resets: OPEN (R7, D22). -/
opaque bufLast : Nat

/-- PIN_VALID(scl, sda): OPEN (R7, D20). -/
opaque pinValid : PinId → PinId → Bool

/-- BUS_ID_VALID of the machine that resets: OPEN (R7, D21). -/
opaque validBuses : List Word

/-- BUS_IS_BITBANG of the machine that resets: OPEN (R7, D21). -/
opaque bitbangBuses : List Word

/-- The parameters of the machine that resets: the OPEN ones are opaque, the others have the values of
the table of R7. -/
def params : Params where
  bufLast := bufLast
  kScale := 500000
  hpRounding := .floor
  scanEnd := .x78
  read0Mode := .bus
  pinRule := .uninterpreted
  validBuses := validBuses
  bitbangBuses := bitbangBuses

/-- The n-th draw of the bus environment for a line the master has released (R24, R104, I8), once the
answers that State lists are used up. One stream serves every instance (log 36). -/
opaque envDraw : Nat → Bool

/-- The n-th free value of width w: what the spec calls unspecified or any value (I1, I4, I5, I7, R40). One stream
serves every instance (log 36). -/
opaque freeBits : (w : Nat) → Nat → BitVec w

end Config

end Sys2Proof
end

