-- ==== Sys2Proof/Syntax.lean ====
section
/-! DEFINITION. The sixteen commands of spec/opcode_table.json (R75). -/

namespace Sys2Proof

/-- One constructor per row of the opcode table. Each operand has exactly the width of its field, so
no operand out of its field's range can be written (R72, R73, R74); an operand out of range exists
only in assembler source, where `Asm.wellFormed` refuses it (R81). -/
inductive Instr where
  /-- INIT (R180). -/
  | init
  /-- DEINIT (R184). -/
  | deinit
  /-- SCAN (R170). -/
  | scan
  /-- WRITE with send_stop S and target address A (R143). -/
  | write (sendStop : Bool) (addr : Addr)
  /-- READ from target address A (R144). -/
  | read (addr : Addr)
  /-- WRITE_MEM to target address A at sub-address SUB (R145). -/
  | writeMem (addr : Addr) (sub : SubAddr)
  /-- READ_MEM from target address A at sub-address SUB (R146). -/
  | readMem (addr : Addr) (sub : SubAddr)
  /-- PING target address A (R147). -/
  | ping (addr : Addr)
  /-- START (R127). -/
  | start
  /-- STOP (R128). -/
  | stop
  /-- WRITE_BYTE of BYTE (R129). -/
  | writeByte (value : Byte)
  /-- READ_BYTE with generate-nack N (R130). -/
  | readByte (nack : Bool)
  /-- DRIVE_LOW of line L (R110). -/
  | driveLow (line : Line)
  /-- RELEASE of line L (R111). -/
  | release (line : Line)
  /-- READ_LINE of line L (R112). -/
  | readLine (line : Line)
  /-- DELAY (R113). -/
  | delay
  deriving DecidableEq, Repr

end Sys2Proof
end

