-- ==== Sys2Proof/WellFormed.lean ====
section
/-! DEFINITION. Assembler source (R81, R82) and the check that its operands are in range.

A term of `Instr` needs no check of its own: every operand has the width of its field. Operands out of range
exist in the source text of R81 only, and there they are an error, not a truncation. -/

namespace Sys2Proof

/-- One line of source: the commands of R81, the pseudo-instructions of R82 and the host directives of R81. -/
inductive Asm where
  | init
  | deinit
  | scan
  /-- `WRITE a`: S = 1, the source's default. -/
  | write (a : Nat)
  /-- `WRITE a, nostop`: S = 0. -/
  | writeNostop (a : Nat)
  | read (a : Nat)
  | writeMem (a sub : Nat)
  | readMem (a sub : Nat)
  | ping (a : Nat)
  | start
  | stop
  | writeByte (v : Nat)
  | readByteAck
  | readByteNack
  | driveLow (line : Line)
  | release (line : Line)
  | readLine (line : Line)
  | delay
  /-- `WRITE_NS a` (R82). -/
  | writeNs (a : Nat)
  /-- `RSTART` (R82). -/
  | rstart
  /-- `READ_ACK` (R82). -/
  | readAck
  /-- `READ_NACK` (R82). -/
  | readNack
  /-- `PROBE a` (R82). -/
  | probe (a : Nat)
  /-- `SCL_LOW` (R82). -/
  | sclLow
  /-- `SDA_LOW` (R82). -/
  | sdaLow
  /-- `SCL_RELEASE` (R82). -/
  | sclRelease
  /-- `SDA_RELEASE` (R82). -/
  | sdaRelease
  /-- `WRITE_REG a, sub, v` (R82). -/
  | writeReg (a sub v : Nat)
  /-- `.arg bus=i, scl=p, sda=q, baud=b` (R81). -/
  | arg (bus : Nat) (scl sda : PinId) (baud : Int)
  /-- `.len n` (R81). -/
  | len (n : Nat)
  /-- `.data d0, d1, ...` (R81). -/
  | data (bytes : List Nat)
  deriving DecidableEq, Repr

/-- A target address is 0..127 (R81, R72). -/
def Asm.addrInRange (a : Nat) : Bool := a ≤ 127

/-- A sub-address is 0..0xFFFF (R81, R73). -/
def Asm.subInRange (sub : Nat) : Bool := sub ≤ 0xFFFF

/-- A byte is 0..0xFF (R81). -/
def Asm.byteInRange (v : Nat) : Bool := v ≤ 0xFF

/-- A value of a 32-bit unsigned register (R27, R30). -/
def Asm.wordInRange (n : Nat) : Bool := n ≤ 0xFFFFFFFF

/-- A value of the 32-bit signed ARG_BAUD (R27). -/
def Asm.baudInRange (b : Int) : Bool := -2147483648 ≤ b && b ≤ 2147483647

/-- Every operand is in its field's or register's range (R81). -/
def Asm.wellFormed : Asm → Bool
  | .init => true
  | .deinit => true
  | .scan => true
  | .write a => addrInRange a
  | .writeNostop a => addrInRange a
  | .read a => addrInRange a
  | .writeMem a sub => addrInRange a && subInRange sub
  | .readMem a sub => addrInRange a && subInRange sub
  | .ping a => addrInRange a
  | .start => true
  | .stop => true
  | .writeByte v => byteInRange v
  | .readByteAck => true
  | .readByteNack => true
  | .driveLow _ => true
  | .release _ => true
  | .readLine _ => true
  | .delay => true
  | .writeNs a => addrInRange a
  | .rstart => true
  | .readAck => true
  | .readNack => true
  | .probe a => addrInRange a
  | .sclLow => true
  | .sdaLow => true
  | .sclRelease => true
  | .sdaRelease => true
  | .writeReg a sub v => addrInRange a && subInRange sub && byteInRange v
  | .arg bus _ _ baud => wordInRange bus && baudInRange baud
  | .len n => wordInRange n
  | .data bytes => bytes.all byteInRange

end Sys2Proof
end

