-- ==== Sys2Proof/Decode.lean ====
section
/-! DEFINITION. The command word: its fields, the decoder and the encoder (30_encoding.md). -/

namespace Sys2Proof

/-- The fields of the one format CW (R70). -/
structure CommandFields where
  /-- OP, bits 31:27. -/
  op  : BitVec 5
  /-- S, bit 26. -/
  s   : BitVec 1
  /-- N, bit 25. -/
  n   : BitVec 1
  /-- L, bit 24. -/
  l   : BitVec 1
  /-- RSV, bit 23. -/
  rsv : BitVec 1
  /-- A, bits 22:16. -/
  a   : BitVec 7
  /-- IMM16, bits 15:0. -/
  imm : BitVec 16
  deriving DecidableEq, Repr

/-- The field layout of R70, read from a word. -/
def CommandFields.ofWord (w : Word) : CommandFields where
  op := w.extractLsb' 27 5
  s := w.extractLsb' 26 1
  n := w.extractLsb' 25 1
  l := w.extractLsb' 24 1
  rsv := w.extractLsb' 23 1
  a := w.extractLsb' 16 7
  imm := w.extractLsb' 0 16

/-- The field layout of R70, written to a word. -/
def CommandFields.toWord (f : CommandFields) : Word :=
  f.op ++ f.s ++ f.n ++ f.l ++ f.rsv ++ f.a ++ f.imm

/-- The sixteen assigned operations (R75). -/
inductive Opcode where
  | init | deinit | scan | write | read | writeMem | readMem | ping
  | start | stop | writeByte | readByte
  | driveLow | release | readLine | delay
  deriving DecidableEq, Repr

/-- Every assigned operation, in the order of R75. -/
def Opcode.all : List Opcode :=
  [.init, .deinit, .scan, .write, .read, .writeMem, .readMem, .ping,
   .start, .stop, .writeByte, .readByte, .driveLow, .release, .readLine, .delay]

/-- The OP value of each operation (R71, R75). -/
def Opcode.bits : Opcode → BitVec 5
  | .init => 0x01
  | .deinit => 0x02
  | .scan => 0x03
  | .write => 0x04
  | .read => 0x05
  | .writeMem => 0x06
  | .readMem => 0x07
  | .ping => 0x08
  | .start => 0x10
  | .stop => 0x11
  | .writeByte => 0x12
  | .readByte => 0x13
  | .driveLow => 0x18
  | .release => 0x19
  | .readLine => 0x1A
  | .delay => 0x1B

/-- The operation an OP value selects, if it is assigned (R75, R78). -/
def Opcode.ofBits (b : BitVec 5) : Option Opcode :=
  Opcode.all.find? (fun o => o.bits == b)

/-- S belongs to WRITE only (R70, R76). -/
def Opcode.usesS : Opcode → Bool
  | .write => true
  | _ => false

/-- N belongs to READ_BYTE only (R70, R76). -/
def Opcode.usesN : Opcode → Bool
  | .readByte => true
  | _ => false

/-- L belongs to the line commands DRIVE_LOW, RELEASE and READ_LINE (R70, R76). -/
def Opcode.usesL : Opcode → Bool
  | .driveLow | .release | .readLine => true
  | _ => false

/-- A belongs to the five addressed commands (R70, R76). -/
def Opcode.usesA : Opcode → Bool
  | .write | .read | .writeMem | .readMem | .ping => true
  | _ => false

/-- The bits of IMM16 a command uses: all of them (SUB), the low eight (BYTE) or none (R70, R73, R76). -/
def Opcode.immMask : Opcode → BitVec 16
  | .writeMem | .readMem => 0xFFFF
  | .writeByte => 0x00FF
  | _ => 0

/-- A field that the command does not use is 0 (R76). -/
def Opcode.unusedFieldsZero (o : Opcode) (f : CommandFields) : Bool :=
  (o.usesS || f.s == 0) && (o.usesN || f.n == 0) && (o.usesL || f.l == 0) && (o.usesA || f.a == 0)
    && (f.imm &&& ~~~ o.immMask == 0)

/-- Why a word is illegal (R78). -/
inductive Illegal where
  /-- OP is not assigned (R78). -/
  | unassignedOpcode
  /-- Bit 23 is set (R77). -/
  | reservedBit
  /-- A field the command does not use is not 0 (R76). -/
  | unusedField
  deriving DecidableEq, Repr

/-- L = 0 selects SCL and L = 1 selects SDA (R74). -/
def Line.ofBit (b : BitVec 1) : Line :=
  if b = 1 then .sda else .scl

/-- The L bit of a line (R74). -/
def Line.bit : Line → BitVec 1
  | .scl => 0
  | .sda => 1

/-- A single-bit operand is taken as it stands (R74). -/
def flagOfBit (b : BitVec 1) : Bool := b == 1

/-- The command an operation and its operand fields make (R72 to R75). -/
def Opcode.build (f : CommandFields) : Opcode → Instr
  | .init => .init
  | .deinit => .deinit
  | .scan => .scan
  | .write => .write (flagOfBit f.s) f.a
  | .read => .read f.a
  | .writeMem => .writeMem f.a f.imm
  | .readMem => .readMem f.a f.imm
  | .ping => .ping f.a
  | .start => .start
  | .stop => .stop
  | .writeByte => .writeByte (f.imm.extractLsb' 0 8)
  | .readByte => .readByte (flagOfBit f.n)
  | .driveLow => .driveLow (Line.ofBit f.l)
  | .release => .release (Line.ofBit f.l)
  | .readLine => .readLine (Line.ofBit f.l)
  | .delay => .delay

/-- Decoding over the fields: which rule a word breaks decides its name (R76, R77, R78). -/
def decodeFields (f : CommandFields) : Except Illegal Instr :=
  match Opcode.ofBits f.op with
  | none => .error .unassignedOpcode
  | some o =>
    if f.rsv = 0 then
      if o.unusedFieldsZero f then .ok (o.build f) else .error .unusedField
    else .error .reservedBit

/-- Decoding is total on every 32-bit word and reads nothing else (R79). -/
def decode (w : Word) : Except Illegal Instr :=
  decodeFields (CommandFields.ofWord w)

/-- The instruction the decoder reads from a word of the opcode table: the low nbits bits of w, every bit
above them 0. A command has one length, 32 bits (R80). -/
def decodeTableWord (nbits w : Nat) : Option Instr :=
  (decode (BitVec.ofNat 32 (w % 2 ^ nbits))).toOption

/-- The operation of an instruction (R75). -/
def Instr.opcode : Instr → Opcode
  | .init => .init
  | .deinit => .deinit
  | .scan => .scan
  | .write _ _ => .write
  | .read _ => .read
  | .writeMem _ _ => .writeMem
  | .readMem _ _ => .readMem
  | .ping _ => .ping
  | .start => .start
  | .stop => .stop
  | .writeByte _ => .writeByte
  | .readByte _ => .readByte
  | .driveLow _ => .driveLow
  | .release _ => .release
  | .readLine _ => .readLine
  | .delay => .delay

/-- A word's fields with every operand 0. -/
def Opcode.bareFields (o : Opcode) : CommandFields :=
  { op := o.bits, s := 0, n := 0, l := 0, rsv := 0, a := 0, imm := 0 }

/-- The fields of an instruction's word (R70, R72 to R75): an unused field is 0 (R76, R77). -/
def Instr.fields : Instr → CommandFields
  | .init => Opcode.init.bareFields
  | .deinit => Opcode.deinit.bareFields
  | .scan => Opcode.scan.bareFields
  | .write s a => { Opcode.write.bareFields with s := BitVec.ofBool s, a := a }
  | .read a => { Opcode.read.bareFields with a := a }
  | .writeMem a sub => { Opcode.writeMem.bareFields with a := a, imm := sub }
  | .readMem a sub => { Opcode.readMem.bareFields with a := a, imm := sub }
  | .ping a => { Opcode.ping.bareFields with a := a }
  | .start => Opcode.start.bareFields
  | .stop => Opcode.stop.bareFields
  | .writeByte v => { Opcode.writeByte.bareFields with imm := v.setWidth 16 }
  | .readByte n => { Opcode.readByte.bareFields with n := BitVec.ofBool n }
  | .driveLow l => { Opcode.driveLow.bareFields with l := l.bit }
  | .release l => { Opcode.release.bareFields with l := l.bit }
  | .readLine l => { Opcode.readLine.bareFields with l := l.bit }
  | .delay => Opcode.delay.bareFields

/-- The word of an instruction. -/
def encode (i : Instr) : Word := i.fields.toWord

/-- The match column of R75, as that table prints it. -/
def Opcode.matchWord : Opcode → Word
  | .init => 0x08000000
  | .deinit => 0x10000000
  | .scan => 0x18000000
  | .write => 0x20000000
  | .read => 0x28000000
  | .writeMem => 0x30000000
  | .readMem => 0x38000000
  | .ping => 0x40000000
  | .start => 0x80000000
  | .stop => 0x88000000
  | .writeByte => 0x90000000
  | .readByte => 0x98000000
  | .driveLow => 0xC0000000
  | .release => 0xC8000000
  | .readLine => 0xD0000000
  | .delay => 0xD8000000

/-- The mask column of R75, as that table prints it. -/
def Opcode.maskWord : Opcode → Word
  | .init => 0xFFFFFFFF
  | .deinit => 0xFFFFFFFF
  | .scan => 0xFFFFFFFF
  | .write => 0xFB80FFFF
  | .read => 0xFF80FFFF
  | .writeMem => 0xFF800000
  | .readMem => 0xFF800000
  | .ping => 0xFF80FFFF
  | .start => 0xFFFFFFFF
  | .stop => 0xFFFFFFFF
  | .writeByte => 0xFFFFFF00
  | .readByte => 0xFDFFFFFF
  | .driveLow => 0xFEFFFFFF
  | .release => 0xFEFFFFFF
  | .readLine => 0xFEFFFFFF
  | .delay => 0xFFFFFFFF

end Sys2Proof
end

