-- ==== Sys2Proof/Machine/State.lean ====
section
/-! DEFINITION. The state of one instance of the block, with its host and its bus environment; the state
after reset; the reasons a step can stop. -/

namespace Sys2Proof.Machine

/-- What the master does to a line (R23): 0 = LOW, 1 = RELEASED. -/
inductive Drive where
  /-- The master pulls the line low. -/
  | low
  /-- The master does not drive the line. -/
  | released
  deriving DecidableEq, Repr

/-- CFG_STATE (R25): 0 = UNCONFIGURED, 1 = CONFIGURED. -/
inductive CfgState where
  | unconfigured
  | configured
  deriving DecidableEq, Repr

/-- RES_STATUS (R32, R200): the names; `Status.code` has the numbers. -/
inductive Status where
  | ok
  | invalidArgument
  | busError
  | resourceUnavailable
  deriving DecidableEq, Repr

/-- PHASE (R40). -/
inductive Phase where
  | idle
  | start
  | address
  | subaddr
  | data
  | stop
  | error
  deriving DecidableEq, Repr

/-- The configuration registers, the source's BusHandle (R25, R26, R28, R29). -/
structure BusHandle where
  /-- CFG_STATE (R25). -/
  state      : CfgState
  /-- CFG_BUS_ID (R26). -/
  busId      : Word
  /-- CFG_SCL_PIN (R26). -/
  sclPin     : PinId
  /-- CFG_SDA_PIN (R26). -/
  sdaPin     : PinId
  /-- CFG_BAUD, signed (R28). -/
  baud       : Word
  /-- CFG_HALF_PERIOD (R29). -/
  halfPeriod : Word
  deriving DecidableEq, Repr

/-- The argument registers of INIT (R27). -/
structure InitArgs where
  /-- ARG_BUS. -/
  bus  : Word
  /-- ARG_SCL. -/
  scl  : PinId
  /-- ARG_SDA. -/
  sda  : PinId
  /-- ARG_BAUD, signed. -/
  baud : Word
  deriving DecidableEq, Repr

/-- The result registers (R32 to R36). -/
structure Results where
  /-- RES_STATUS (R32). -/
  status : Status
  /-- RES_COUNT (R33). -/
  count  : Word
  /-- RES_ACK (R34). -/
  ack    : Bool
  /-- RES_BYTE (R35). -/
  byte   : Byte
  /-- RES_LEVEL (R36). -/
  level  : Bool
  deriving DecidableEq, Repr

/-- The result of SCAN (R37). -/
structure ScanResult where
  /-- SCAN_COUNT. -/
  count : BitVec 8
  /-- SCAN_LIST[0..119]. -/
  list  : Vector Addr 120
  deriving DecidableEq, Repr

/-- The working state of a running command (R40), unspecified between commands (log 10). -/
structure Work where
  /-- SHIFT. -/
  shift  : Byte
  /-- BITCNT. -/
  bitcnt : BitVec 4
  /-- i, which indexes bytes in the data buffer. -/
  index  : Word
  deriving DecidableEq, Repr

/-- Which of the registers that R43 calls unwritten have been written: those of I6 of 93_implementation_defined.md that
are no byte of DBUF. No step asks these marks: a register nothing has written gives what State.reset put there
(log 4). They are for claims, which can ask for a run that reads written registers only. -/
structure Held where
  /-- CFG_BUS_ID, CFG_SCL_PIN and CFG_SDA_PIN, which one INIT writes together (R26, R43). -/
  handle  : Bool
  /-- ARG_BUS. -/
  argBus  : Bool
  /-- ARG_SCL. -/
  argScl  : Bool
  /-- ARG_SDA. -/
  argSda  : Bool
  /-- ARG_BAUD. -/
  argBaud : Bool
  /-- LEN. -/
  len     : Bool
  /-- RES_STATUS. -/
  status  : Bool
  /-- RES_COUNT. -/
  count   : Bool
  /-- RES_ACK. -/
  ack     : Bool
  /-- RES_BYTE. -/
  byte    : Bool
  /-- RES_LEVEL. -/
  level   : Bool
  /-- SCAN_COUNT and SCAN_LIST, which one SCAN writes together (R37). -/
  scan    : Bool
  deriving DecidableEq, Repr

/-- The data buffer as (index, byte) pairs, indexes strictly rising; an index not listed holds no value
(R50, R43, log 5). -/
abbrev Memory := List Host.Cell

/-- The sequencer position MPC = (cmd, k) of a running command (R21). -/
structure Mpc where
  /-- The latched command. -/
  cmd : Instr
  /-- The index of its next micro-operation. -/
  k   : Nat
  deriving DecidableEq, Repr

/-- The events of the trace (R109). -/
inductive Event where
  /-- A drive micro-operation (R100, R101). -/
  | drive (line : Line) (d : Drive)
  /-- A SAMPLE and the bit it returned (R104). -/
  | sample (line : Line) (bit : Bool)
  /-- A WAIT and its length in time-units (R105). -/
  | wait (halfPeriod : Word)
  /-- CS_BEGIN (R106). -/
  | csBegin
  /-- CS_END (R106). -/
  | csEnd
  /-- The host wrote a word to CMD (R109). -/
  | issue (word : Word)
  /-- BUSY fell, with this status (R109). -/
  | complete (status : Status)
  deriving DecidableEq, Repr

/-- An event with the command it belongs to, named by the word in CMD (R109, log 19). -/
structure TraceEntry where
  cmd   : Word
  event : Event
  deriving DecidableEq, Repr

/-- The registers the host may read (R44, R46). -/
inductive HostReg where
  | drvScl
  | drvSda
  | cfgState
  | cfgBusId
  | cfgSclPin
  | cfgSdaPin
  | cfgBaud
  | cfgHalfPeriod
  | busy
  | busOpen
  | resStatus
  | resCount
  | resAck
  | resByte
  | resLevel
  | scanCount
  | scanList (k : Fin 120)
  | dbuf (i : Nat)
  deriving DecidableEq, Repr

/-- A move of the host that issues no command (R44). -/
inductive HostAccess where
  | writeArgBus (v : Word)
  | writeArgScl (v : PinId)
  | writeArgSda (v : PinId)
  | writeArgBaud (v : Word)
  | writeLen (v : Word)
  | writeDbuf (i : Nat) (v : Byte)
  | read (r : HostReg)
  deriving DecidableEq, Repr

/-- A move of the host (R44): an access, or a command word written to CMD. -/
inductive HostMove where
  | access (a : HostAccess)
  | issue (word : Word)
  deriving DecidableEq, Repr

/-- What one host read gave, as a number. -/
structure HostSeen where
  reg   : HostReg
  value : Nat
  deriving DecidableEq, Repr

/-- The bus environment's answers still to come, and the counters that pick the free values
(the model's own fields: log 3, log 10). -/
structure Draws where
  /-- The answers to the next SAMPLEs of a released line, in order. -/
  env     : List Bool
  /-- The next free draw of the environment once `env` is empty. -/
  envCtr  : Nat
  /-- The next free value of `Config.freeBits`. -/
  freeCtr : Nat
  deriving DecidableEq, Repr

/-- One instance of the block (R20, R66) with its host and its bus environment. R46 lists the spec's state. -/
structure State where
  /-- The parameters of R7; no step changes them. -/
  par      : Params
  /-- DRV_SCL (R23). -/
  drvScl   : Drive
  /-- DRV_SDA (R23). -/
  drvSda   : Drive
  /-- The CFG_ registers. -/
  cfg      : BusHandle
  /-- The ARG_ registers. -/
  arg      : InitArgs
  /-- LEN (R30). -/
  len      : Word
  /-- CMD (R31). -/
  cmd      : Word
  /-- BUSY (R31). -/
  busy     : Bool
  /-- The RES_ registers. -/
  res      : Results
  /-- SCAN_COUNT and SCAN_LIST. -/
  scan     : ScanResult
  /-- BUS_OPEN (R38). -/
  busOpen  : Bool
  /-- CS_ACTIVE (R39). -/
  csActive : Bool
  /-- PHASE (R40). -/
  phase    : Phase
  /-- SHIFT, BITCNT and i (R40). -/
  work     : Work
  /-- MPC (R21): none when no command is running. -/
  mpc      : Option Mpc
  /-- DBUF (R50). -/
  dbuf     : Memory
  /-- Which registers have been written (R43). -/
  held     : Held
  /-- The trace (R109), newest event first. -/
  trace    : List TraceEntry
  /-- The environment's answers and the counters of the free values. -/
  draws    : Draws
  /-- The host's moves still to come, the next one first (log 2). -/
  hostQ    : List HostMove
  /-- What the host's reads gave, newest first (log 18). -/
  hostSaw  : List HostSeen
  deriving DecidableEq, Repr

/-- Reset (R230, R46): CFG_HALF_PERIOD holds any value, the first free one (R29, I5, log 10); every other register
that the spec gives no value for is 0 (log 4), and no register of R43 is marked as written. Every instance starts both
counters of draws at the same numbers (log 36). -/
def State.resetWith (p : Params) : State where
  par := p
  drvScl := .released
  drvSda := .released
  cfg := {
    state := .unconfigured, busId := 0, sclPin := .first, sdaPin := .first, baud := 0, halfPeriod := Config.freeBits 32 0 }
  arg := { bus := 0, scl := .first, sda := .first, baud := 0 }
  len := 0
  cmd := 0
  busy := false
  res := { status := .ok, count := 0, ack := false, byte := 0, level := false }
  scan := { count := 0, list := Vector.replicate 120 0 }
  busOpen := false
  csActive := false
  phase := .idle
  work := { shift := 0, bitcnt := 0, index := 0 }
  mpc := none
  dbuf := []
  held := {
    handle := false, argBus := false, argScl := false, argSda := false, argBaud := false, len := false,
    status := false, count := false, ack := false, byte := false, level := false, scan := false }
  trace := []
  draws := { env := [], envCtr := 0, freeCtr := 1 }
  hostQ := []
  hostSaw := []

/-- The machine right after reset, at the parameters of `Config.params` (log 6). -/
def State.reset : State := State.resetWith Config.params

/-- Where the machine stops with a fault. -/
inductive Fault where
  /-- Raised by a host access to DBUF at an index of BUF_MAX or more, which R44 and R50 do not give the host (log 23). Safe. -/
  | dbufIndex
  deriving DecidableEq, Repr

/-- What the model gives no step (R204): the refusal mark of the spec is the outcome `refused` (log 11). -/
inductive Refusal where
  /-- Raised by an arm of `exec` whose instruction has no meaning yet; no arm raises it. Safe. -/
  | notModelled (mnemonic : String)
  /-- Raised by the issue of a word that is no command (R78), with the rule it breaks. Safe. -/
  | illegalWord (reason : Illegal)
  /-- Raised by every command but INIT and DEINIT while not CONFIGURED on a bit-bang bus (R42). Safe. -/
  | notAdmitted
  /-- Raised by WRITE, READ, WRITE_MEM and READ_MEM when LEN is above BUF_MAX (R30). Safe. -/
  | lenTooLarge
  /-- Raised by WRITE and WRITE_MEM (DBUF[0..LEN-1]) and by a host read (DBUF[i]) when a byte of the buffer that they
  read has never been written, which "is refused by a model; it does not produce a value" (R43; R50; R204; I6 of
  93_implementation_defined.md, `refuse`; log 5). No register raises it (log 4). Safe. -/
  | noValue
  /-- Raised by INIT on a valid bus identifier that is not bit-bang (R180, R185). Safe. -/
  | hardwarePath
  /-- Raised by any move of the host while BUSY = 1 (R240, I21). Safe. -/
  | busy
  deriving DecidableEq, Repr

end Sys2Proof.Machine
end

