-- ==== Sys2Proof/Machine/Flags.lean ====
section
/-! DEFINITION. Flags and status codes: their numbers, and how each is computed and written. -/

namespace Sys2Proof.Machine

/-- The numeric codes of RES_STATUS (R32, R200). -/
def Status.code : Status → BitVec 2
  | .ok => 0
  | .invalidArgument => 1
  | .busError => 2
  | .resourceUnavailable => 3

/-- The numeric values of CFG_STATE (R25). -/
def CfgState.code : CfgState → BitVec 1
  | .unconfigured => 0
  | .configured => 1

/-- The numeric values of DRV_SCL and DRV_SDA (R23). -/
def Drive.code : Drive → BitVec 1
  | .low => 0
  | .released => 1

/-- A byte is acknowledged when its ninth-clock sample is logic-low (R123). -/
def ackOfSample (bit : Bool) : Bool := !bit

/-- What SDA is driven to for a bit: release for 1, drive low for 0 (R102). -/
def driveOfBit (bit : Bool) : Drive := if bit then .released else .low

/-- PHASE <- p (R40, R148). -/
def setPhase (p : Phase) (s : State) : State := { s with phase := p }

/-- BUS_OPEN <- b (R38). -/
def setBusOpen (b : Bool) (s : State) : State := { s with busOpen := b }

/-- CFG_STATE <- c (R25). -/
def setCfgState (c : CfgState) (s : State) : State := { s with cfg.state := c }

/-- RES_ACK <- b (R34). -/
def setAck (b : Bool) (s : State) : State := { s with res.ack := b, held.ack := true }

/-- RES_LEVEL <- b (R36). -/
def setLevel (b : Bool) (s : State) : State := { s with res.level := b, held.level := true }

/-- RES_BYTE <- v (R35). -/
def setByte (v : Byte) (s : State) : State := { s with res.byte := v, held.byte := true }

/-- RES_COUNT <- n (R33). -/
def setCount (n : Word) (s : State) : State := { s with res.count := n, held.count := true }

end Sys2Proof.Machine
end

