-- ==== Sys2Proof/Machine/Ops.lean ====
section
/-! DEFINITION. The shared operations: the data buffer, the free values, the micro-operations, the issue of a
command and its end, with or without an error. -/

namespace Sys2Proof.Machine

/-! ### The data buffer -/

/-- What an index that is not listed reads as: no value (R50, R43, log 5). -/
def Memory.unlisted : Option Byte := none

/-- The byte at an index. -/
def Memory.read : Memory → Nat → Option Byte
  | [], _ => Memory.unlisted
  | c :: m, a => if c.1 = a then some c.2 else Memory.read m a

/-- Store a byte at an index, keeping the indexes strictly rising. -/
def Memory.write (a : Nat) (v : Byte) : Memory → Memory
  | [] => [(a, v)]
  | c :: m =>
    if a < c.1 then (a, v) :: c :: m
    else if a = c.1 then (a, v) :: m
    else c :: Memory.write a v m

/-- The canonical form: indexes strictly rising. Every entry holds a byte, so none equals what an index that
is not listed reads as. -/
abbrev Memory.wf (m : Memory) : Prop := m.Pairwise (fun x y => x.1 < y.1)

/-- DBUF[i] (R9, R50): none where it holds no value. -/
def dbufRead (i : Nat) (s : State) : Option Byte := Memory.read s.dbuf i

/-- DBUF[i] <- v (R9, R50). -/
def dbufWrite (i : Nat) (v : Byte) (s : State) : State := { s with dbuf := Memory.write i v s.dbuf }

/-! ### Free values -/

/-- The next free value of width w (log 10). -/
def freeValue (w : Nat) (s : State) : BitVec w := Config.freeBits w s.draws.freeCtr

/-- Use up n free values. -/
def skipFree (n : Nat) (s : State) : State := { s with draws.freeCtr := s.draws.freeCtr + n }

/-- One answer of the bus environment (R104 `env_draw`): the next of those State lists, else a free draw. -/
def envDraw (s : State) : Bool × State :=
  match s.draws.env with
  | b :: rest => (b, { s with draws.env := rest })
  | [] => (Config.envDraw s.draws.envCtr, { s with draws.envCtr := s.draws.envCtr + 1 })

/-! ### Micro-operations -/

/-- Append an event to the trace, tagged with the word in CMD (R109). -/
def record (e : Event) (s : State) : State := { s with trace := { cmd := s.cmd, event := e } :: s.trace }

/-- One micro-operation has run: its event is recorded and k rises by one (R21, R109). -/
def micro (e : Event) (s : State) : State :=
  { record e s with mpc := s.mpc.map (fun p => { p with k := p.k + 1 }) }

/-- The drive state of a line (R23). -/
def driveOf (l : Line) (s : State) : Drive :=
  match l with
  | .scl => s.drvScl
  | .sda => s.drvSda

/-- Write the drive state of a line (R23). -/
def setDrive (l : Line) (d : Drive) (s : State) : State :=
  match l with
  | .scl => { s with drvScl := d }
  | .sda => { s with drvSda := d }

/-- A drive micro-operation, recorded even when it changes nothing (R100, R101, R103). -/
def drive (l : Line) (d : Drive) (s : State) : State := micro (.drive l d) (setDrive l d s)

/-- SCL_LO and SDA_LO (R100). -/
def driveLow (l : Line) (s : State) : State := drive l .low s

/-- SCL_REL and SDA_REL (R101). -/
def release (l : Line) (s : State) : State := drive l .released s

/-- SDA_SET(b) (R102). -/
def setSda (bit : Bool) (s : State) : State := drive .sda (driveOfBit bit) s

/-- The bit a SAMPLE returns and the state with its draw taken: 0 without a draw when the master drives the
line low, else the environment's answer (R24, R104). -/
def sampleBit (l : Line) (s : State) : Bool × State :=
  if driveOf l s = .low then (false, s) else envDraw s

/-- SAMPLE(line) (R104). -/
def sample (l : Line) (s : State) : Bool × State :=
  ((sampleBit l s).1, micro (.sample l (sampleBit l s).1) (sampleBit l s).2)

/-- WAIT, recorded with the half-period in force (R105). -/
def wait (s : State) : State := micro (.wait s.cfg.halfPeriod) s

/-- CS_BEGIN (R106). -/
def csBegin (s : State) : State := micro .csBegin { s with csActive := true }

/-- CS_END (R106). -/
def csEnd (s : State) : State := micro .csEnd { s with csActive := false }

/-! ### Working state (R40) -/

/-- SHIFT <- v. -/
def setShift (v : Byte) (s : State) : State := { s with work.shift := v }

/-- BITCNT <- n. -/
def setBitcnt (n : BitVec 4) (s : State) : State := { s with work.bitcnt := n }

/-- i <- n, the index of a byte in the data buffer. -/
def setIndex (n : Nat) (s : State) : State := { s with work.index := BitVec.ofNat 32 n }

/-! ### Issue and end of a command -/

/-- The host writes a command's word to CMD: it is latched, BUSY rises and MPC is at its first
micro-operation (R21, R31, R109). -/
def issue (w : Word) (i : Instr) (s : State) : State :=
  record (.issue w) { s with cmd := w, busy := true, mpc := some { cmd := i, k := 0 } }

/-- SHIFT, BITCNT and i between commands are unspecified (R40): each becomes a free value (log 10). -/
def forgetWork (s : State) : State :=
  skipFree 3 { s with work := {
    shift := Config.freeBits 8 s.draws.freeCtr
    bitcnt := Config.freeBits 4 (s.draws.freeCtr + 1)
    index := Config.freeBits 32 (s.draws.freeCtr + 2) } }

/-- The end of a command: RES_STATUS <- code, PHASE <- IDLE, BUSY <- 0, MPC undefined, and the event
Complete(status) (R21, R31, R40, R109, R206). -/
def finish (st : Status) (s : State) : State :=
  forgetWork (record (.complete st)
    { s with res.status := st, held.status := true, phase := .idle, busy := false, mpc := none })

/-- `raise E`, the block's only exception (R9, R206): after the micro-operations and the cleanup that its rule
lists, the command ends with the error's code. Nothing is saved, there is no vector, and no mode or mask
changes; there is no command that returns from it (R207). -/
def raise (e : Status) (s : State) : State := finish e s

end Sys2Proof.Machine
end

