-- ==== Sys2Proof/Machine/Operands.lean ====
section
/-! DEFINITION. Operands: the bytes a command sends, the half-period, what LEN and DBUF must hold, and the
admission of a command. -/

namespace Sys2Proof.Machine

/-- RW_WRITE (R7, R140). -/
def rwWrite : BitVec 1 := 0

/-- RW_READ (R7, R140). -/
def rwRead : BitVec 1 := 1

/-- addr_byte(a, rw) (R72, R140). -/
def addrByte (a : Addr) (rw : BitVec 1) : Byte := (a.setWidth 8 <<< 1) ||| rw.setWidth 8

/-- sub_bytes(sub): one byte up to 0xFF, else two, high byte first (R141). -/
def subBytes (sub : SubAddr) : List Byte :=
  if sub ≤ 0xFF then [sub.extractLsb' 0 8] else [sub.extractLsb' 8 8, sub.extractLsb' 0 8]

/-- The bits of a byte in the order they go on the bus, bit 7 first (R52, R123). -/
def bitsMsbFirst (v : Byte) : List Bool :=
  [v.getLsbD 7, v.getLsbD 6, v.getLsbD 5, v.getLsbD 4, v.getLsbD 3, v.getLsbD 2, v.getLsbD 1, v.getLsbD 0]

/-- SHIFT <- ((SHIFT << 1) | b)[7:0] (R124, R132). -/
def shiftIn (v : Byte) (bit : Bool) : Byte := (v <<< 1) ||| (BitVec.ofBool bit).setWidth 8

/-- hp(b) for b ≥ 1, on mathematical integers (R120, R132). -/
def halfPeriodOf (k : Nat) (r : HpRounding) (b : Nat) : Nat :=
  max 1 (match r with
    | .floor => k / b
    | .nearest => (2 * k + b) / (2 * b))

/-- hp(ARG_BAUD) as CFG_HALF_PERIOD holds it (R29, R120). -/
def halfPeriod (p : Params) (baud : Word) : Word :=
  BitVec.ofNat 32 (halfPeriodOf p.kScale.toNat p.hpRounding baud.toInt.toNat)

/-- BUF_MAX (R7). -/
def bufMax (p : Params) : Nat := p.bufLast + 1

/-- SCAN_FIRST (R7). -/
def scanFirst : Nat := 0x08

/-- SCAN_END, the first address SCAN does not probe (R7). -/
def scanEndOf (p : Params) : Nat :=
  match p.scanEnd with
  | .x78 => 0x78
  | .x79 => 0x79

/-- The addresses SCAN probes, ascending (R170). -/
def scanAddrs (p : Params) : List Addr :=
  (List.range' scanFirst (scanEndOf p - scanFirst)).map (BitVec.ofNat 7)

/-- BUS_ID_VALID(id) (R7). -/
def busIdValid (p : Params) (id : Word) : Bool := p.validBuses.contains id

/-- BUS_IS_BITBANG(id) (R7). -/
def busIsBitbang (p : Params) (id : Word) : Bool := p.bitbangBuses.contains id

/-- PIN_VALID(scl, sda) (R7). -/
def pinValid (p : Params) (scl sda : PinId) : Bool :=
  match p.pinRule with
  | .uninterpreted => Config.pinValid scl sda
  | .all => true
  | .distinct => scl != sda
  | .listed pairs => pairs.contains (scl, sda)

/-- ARG_BAUD ≥ 1, as a signed value (R27, R180). -/
def baudPositive (baud : Word) : Bool := 0 < baud.toInt

/-- A command other than INIT and DEINIT is admitted only when CONFIGURED on a bit-bang bus (R42). -/
def admitted (s : State) : Bool := s.cfg.state == .configured && busIsBitbang s.par s.cfg.busId

/-- Run a command if it is admitted, else refuse it (R42). -/
def ifAdmitted (s : State) (k : State → Host.Outcome State Fault Refusal) : Host.Outcome State Fault Refusal :=
  if admitted s then k s else .refused .notAdmitted

/-- LEN ≤ BUF_MAX (R30). -/
def lenFits (s : State) : Bool := s.len.toNat ≤ bufMax s.par

/-- Run a command that reads LEN if what LEN holds fits the buffer, else refuse it (R30, R54). An unwritten LEN is
read as it stands (log 4). -/
def withLen (s : State) (k : State → Host.Outcome State Fault Refusal) : Host.Outcome State Fault Refusal :=
  if lenFits s then k s else .refused .lenTooLarge

/-- DBUF[i..i+n-1], if every one of those bytes holds a value (R43, R50). -/
def bytesFrom (m : Memory) (i : Nat) : Nat → Option (List Byte)
  | 0 => some []
  | n + 1 =>
    match Memory.read m i, bytesFrom m (i + 1) n with
    | some v, some vs => some (v :: vs)
    | _, _ => none

/-- The payload DBUF[0..LEN-1] (R50, R53). -/
def payload (s : State) : Option (List Byte) := bytesFrom s.dbuf 0 s.len.toNat

/-- Run a command on the payload if every byte of it has been written, else refuse it (R43, R50, R204, R205). -/
def withPayload (s : State) (k : List Byte → State → Host.Outcome State Fault Refusal) :
    Host.Outcome State Fault Refusal :=
  match payload s with
  | some bytes => k bytes s
  | none => .refused .noValue

end Sys2Proof.Machine
end

