-- ==== Sys2Proof/Machine/Configuration.lean ====
section
/-! DEFINITION. INIT and DEINIT (44_configuration.md). -/

namespace Sys2Proof.Machine

/-- INIT's arguments pass both checks and select the hardware-controller path (R180). Refusals are decided at
issue, before any effect (R205), so this is asked first; it holds only where no check raises an error. -/
def selectsHardware (s : State) : Bool :=
  baudPositive s.arg.baud && busIdValid s.par s.arg.bus && pinValid s.par s.arg.scl s.arg.sda
    && !busIsBitbang s.par s.arg.bus

/-- The copy of the arguments into the CFG_ registers (R26, R28, R29, R180). -/
def loadHandle (s : State) : State :=
  { s with
    cfg.busId := s.arg.bus
    cfg.sclPin := s.arg.scl
    cfg.sdaPin := s.arg.sda
    cfg.baud := s.arg.baud
    cfg.halfPeriod := halfPeriod s.par s.arg.baud
    held.handle := true }

/-- The effect of a successful INIT (R180, R182). -/
def configure (s : State) : State :=
  loadHandle s
    |> release .scl |> release .sda
    |> setBusOpen false |> setPhase .idle
    |> setCfgState .configured

/-- INIT (R27, R180, R181, R183, R185): the bus identifier is checked first. An unwritten argument register is read
as it stands (log 4). -/
def execInit (s : State) : Host.Outcome State Fault Refusal :=
  if selectsHardware s then .refused .hardwarePath
  else .next (
    if busIdValid s.par s.arg.bus = false then raise .resourceUnavailable s
    else if baudPositive s.arg.baud = false ∨ pinValid s.par s.arg.scl s.arg.sda = false then
      raise .invalidArgument s
    else finish .ok (configure s))

/-- CFG_BAUD <- 0 and CFG_HALF_PERIOD <- unspecified, a free value (R28, R184, conflict C5, log 10). -/
def clearHandle (s : State) : State :=
  skipFree 1 { s with cfg.baud := 0, cfg.halfPeriod := freeValue 32 s }

/-- The effect of DEINIT (R184). -/
def deconfigure (s : State) : State :=
  release .scl s |> release .sda
    |> clearHandle
    |> setBusOpen false |> setPhase .idle
    |> setCfgState .unconfigured

/-- DEINIT (R184): admitted in either CFG_STATE (R42). -/
def execDeinit (s : State) : Host.Outcome State Fault Refusal :=
  .next (finish .ok (deconfigure s))

end Sys2Proof.Machine
end

