-- ==== Sys2Proof/Machine/Lines.lean ====
section
/-! DEFINITION. The line commands (40_line_primitives.md section 2). -/

namespace Sys2Proof.Machine

/-- DRIVE_LOW (R110). -/
def execDriveLow (l : Line) (s : State) : Host.Outcome State Fault Refusal :=
  ifAdmitted s fun s => .next (finish .ok (driveLow l s))

/-- RELEASE (R111). -/
def execRelease (l : Line) (s : State) : Host.Outcome State Fault Refusal :=
  ifAdmitted s fun s => .next (finish .ok (release l s))

/-- READ_LINE (R112). -/
def execReadLine (l : Line) (s : State) : Host.Outcome State Fault Refusal :=
  ifAdmitted s fun s => .next (finish .ok (setLevel (sample l s).1 (sample l s).2))

/-- DELAY (R113): the WAIT is outside any bracket. -/
def execDelay (s : State) : Host.Outcome State Fault Refusal :=
  ifAdmitted s fun s => .next (finish .ok (wait s))

end Sys2Proof.Machine
end

