-- ==== Sys2Proof/Machine/Engine.lean ====
section
/-! DEFINITION. The bit/byte transfer engine (41_transfer_engine.md): the four sequences and their commands. -/

namespace Sys2Proof.Machine

/-- START_SEQ (R121). -/
def startSeq (s : State) : State :=
  setPhase .start s
    |> csBegin
    |> release .sda |> wait
    |> release .scl |> wait
    |> driveLow .sda |> wait
    |> csEnd
    |> setBusOpen true

/-- STOP_SEQ (R122). -/
def stopSeq (s : State) : State :=
  setPhase .stop s
    |> csBegin
    |> wait
    |> driveLow .sda |> wait
    |> release .scl |> wait
    |> release .sda |> wait
    |> csEnd
    |> setBusOpen false
    |> setPhase .idle

/-- The bracket of one data bit of WRITE_BYTE_SEQ (R123). -/
def sendBit (bit : Bool) (s : State) : State :=
  csBegin s
    |> driveLow .scl |> setSda bit |> wait
    |> release .scl |> wait
    |> csEnd

/-- The data bits of a byte, one bracket each (R123). -/
def sendBits : List Bool → State → State
  | [], s => s
  | b :: bs, s => sendBits bs (sendBit b s)

/-- The bracket of the ninth clock of WRITE_BYTE_SEQ; true = ACK (R123). -/
def ackClock (s : State) : Bool × State :=
  let r := csBegin s
    |> driveLow .scl |> release .sda |> wait
    |> release .scl |> wait
    |> sample .sda
  (ackOfSample r.1, wait r.2 |> driveLow .scl |> csEnd)

/-- WRITE_BYTE_SEQ(v) -> ack (R123). It leaves BUS_OPEN unchanged (R131), from IDLE too (log 37). -/
def writeByteSeq (v : Byte) (s : State) : Bool × State := ackClock (sendBits (bitsMsbFirst v) s)

/-- The bracket of one data bit of READ_BYTE_SEQ: the sampled bit enters SHIFT at bit 0 (R124). -/
def receiveBit (s : State) : State :=
  let r := csBegin s
    |> driveLow .scl |> wait
    |> release .scl |> wait
    |> sample .sda
  csEnd (setShift (shiftIn r.2.work.shift r.1) r.2)

/-- n data bits, BITCNT counting them from k (R40, R124, log 22). -/
def receiveBits : Nat → Nat → State → State
  | 0, k, s => setBitcnt (BitVec.ofNat 4 k) s
  | n + 1, k, s => receiveBits n (k + 1) (receiveBit (setBitcnt (BitVec.ofNat 4 k) s))

/-- `if not nack then SDA_LO` (R124): no micro-operation when nack is true. -/
def masterAck (nack : Bool) (s : State) : State := if nack then s else driveLow .sda s

/-- The bracket of the ninth clock of READ_BYTE_SEQ (R124). -/
def replyClock (nack : Bool) (s : State) : State :=
  csBegin s
    |> driveLow .scl |> wait
    |> masterAck nack |> wait
    |> release .scl |> wait
    |> driveLow .scl |> release .sda
    |> csEnd

/-- READ_BYTE_SEQ(nack) -> v (R124). It leaves BUS_OPEN unchanged (R131), from IDLE too (log 37). -/
def readByteSeq (nack : Bool) (s : State) : Byte × State :=
  let t := replyClock nack (receiveBits 8 0 (setShift 0 s))
  (t.work.shift, t)

/-- START (R127). -/
def execStart (s : State) : Host.Outcome State Fault Refusal :=
  ifAdmitted s fun s => .next (finish .ok (startSeq s))

/-- STOP (R128). -/
def execStop (s : State) : Host.Outcome State Fault Refusal :=
  ifAdmitted s fun s => .next (finish .ok (stopSeq s))

/-- WRITE_BYTE (R129): a NACK is a result here, not an error. -/
def execWriteByte (v : Byte) (s : State) : Host.Outcome State Fault Refusal :=
  ifAdmitted s fun s => .next (finish .ok (setAck (writeByteSeq v s).1 (writeByteSeq v s).2))

/-- READ_BYTE (R130). -/
def execReadByte (nack : Bool) (s : State) : Host.Outcome State Fault Refusal :=
  ifAdmitted s fun s => .next (finish .ok (setByte (readByteSeq nack s).1 (readByteSeq nack s).2))

end Sys2Proof.Machine
end

