-- ==== Sys2Proof/Machine/Transactions.lean ====
section
/-! DEFINITION. The transaction orchestrator (42_transactions.md). A step of a transaction answers true when
every byte it sent was acknowledged, and false when a NACK has ended the transaction. -/

namespace Sys2Proof.Machine

/-- Go on with a transaction unless a NACK has ended it (R142, R149). -/
def andThen (r : Bool × State) (k : State → Bool × State) : Bool × State :=
  if r.1 then k r.2 else r

/-- SEND(v) up to its cleanup (R142): on NACK, PHASE <- ERROR and one STOP_SEQ. -/
def send (v : Byte) (s : State) : Bool × State :=
  if (writeByteSeq v s).1 then (true, (writeByteSeq v s).2)
  else (false, stopSeq (setPhase .error (writeByteSeq v s).2))

/-- SEND each byte in order, up to the first NACK (R142). -/
def sendAll : List Byte → State → Bool × State
  | [], s => (true, s)
  | v :: vs, s => andThen (send v s) (sendAll vs)

/-- SEND each payload byte in order, i being its index in the data buffer (R143, R152). -/
def sendData : Nat → List Byte → State → Bool × State
  | _, [], s => (true, s)
  | i, v :: vs, s => andThen (send v (setIndex i s)) (sendData (i + 1) vs)

/-- START_SEQ and the address byte (R143 to R146). -/
def openTransaction (a : Addr) (rw : BitVec 1) (s : State) : Bool × State :=
  send (addrByte a rw) (setPhase .address (startSeq (setPhase .start s)))

/-- The sub-address bytes (R145, R146). -/
def sendSubAddr (sub : SubAddr) (s : State) : Bool × State := sendAll (subBytes sub) (setPhase .subaddr s)

/-- The payload bytes (R143, R145). -/
def sendPayload (bytes : List Byte) (s : State) : Bool × State := sendData 0 bytes (setPhase .data s)

/-- RES_COUNT is any value after BusError (R33, log 10). -/
def forgetCount (s : State) : State := skipFree 1 (setCount (freeValue 32 s) s)

/-- abort_cleanup (R142, R150): each of DBUF[i..i+n-1] becomes a free value. -/
def abortCleanup : Nat → Nat → State → State
  | 0, _, s => s
  | n + 1, i, s => abortCleanup n (i + 1) (skipFree 1 (dbufWrite i (freeValue 8 s) s))

/-- The end of a writing transaction: RES_COUNT <- LEN and OK, or BusError (R143, R145, R202). -/
def concludeWrite (r : Bool × State) : State :=
  if r.1 then finish .ok (setCount r.2.len r.2) else raise .busError (forgetCount r.2)

/-- The end of a reading transaction: as a writing one, and on BusError DBUF[0..LEN-1] holds any values
(R144, R146, R150). -/
def concludeRead (r : Bool × State) : State :=
  if r.1 then finish .ok (setCount r.2.len r.2)
  else raise .busError (forgetCount (abortCleanup r.2.len.toNat 0 r.2))

/-- `if S = 1 then STOP_SEQ else PHASE <- IDLE` (R143). -/
def closeWrite (sendStop : Bool) (s : State) : State := if sendStop then stopSeq s else setPhase .idle s

/-- The data loop of READ_BODY: n bytes into DBUF from index i, NACK on the last (R144). -/
def receiveData : Nat → Nat → State → State
  | 0, _, s => s
  | n + 1, i, s =>
    let r := readByteSeq (n == 0) (setIndex i s)
    receiveData n (i + 1) (dbufWrite i r.1 r.2)

/-- READ_BODY(A, LEN) up to its results (R144). -/
def readBody (a : Addr) (s : State) : Bool × State :=
  andThen (openTransaction a rwRead s) fun s =>
    (true, stopSeq (receiveData s.len.toNat 0 (setPhase .data s)))

/-- WRITE (R143). -/
def execWrite (sendStop : Bool) (a : Addr) (s : State) : Host.Outcome State Fault Refusal :=
  ifAdmitted s fun s => withLen s fun s => withPayload s fun bytes s =>
    .next (concludeWrite
      (andThen (openTransaction a rwWrite s) fun s =>
        andThen (sendPayload bytes s) fun s => (true, closeWrite sendStop s)))

/-- The end of a zero-length read that does not touch the bus (R144, R146). -/
def emptyRead (s : State) : State := finish .ok (setCount 0 s)

/-- READ (R144). -/
def execRead (a : Addr) (s : State) : Host.Outcome State Fault Refusal :=
  ifAdmitted s fun s => withLen s fun s =>
    if s.len = 0 ∧ s.par.read0Mode = .nobus then .next (emptyRead s)
    else .next (concludeRead (readBody a s))

/-- WRITE_MEM (R145). -/
def execWriteMem (a : Addr) (sub : SubAddr) (s : State) : Host.Outcome State Fault Refusal :=
  ifAdmitted s fun s => withLen s fun s => withPayload s fun bytes s =>
    .next (concludeWrite
      (andThen (openTransaction a rwWrite s) fun s =>
        andThen (sendSubAddr sub s) fun s =>
          andThen (sendPayload bytes s) fun s => (true, stopSeq s)))

/-- READ_MEM (R146): the START_SEQ of READ_BODY is the repeated start. -/
def execReadMem (a : Addr) (sub : SubAddr) (s : State) : Host.Outcome State Fault Refusal :=
  ifAdmitted s fun s => withLen s fun s =>
    if s.len = 0 then .next (emptyRead s)
    else .next (concludeRead
      (andThen (openTransaction a rwWrite s) fun s =>
        andThen (sendSubAddr sub s) fun s => readBody a s))

/-- The body of PING and of each probe of SCAN: START, address byte, STOP whatever the answer (R147, R170). -/
def probe (a : Addr) (s : State) : Bool × State :=
  let r := writeByteSeq (addrByte a rwWrite) (setPhase .address (startSeq (setPhase .start s)))
  (r.1, stopSeq r.2)

/-- PING (R147). -/
def execPing (a : Addr) (s : State) : Host.Outcome State Fault Refusal :=
  ifAdmitted s fun s => .next (finish .ok (setAck (probe a s).1 (probe a s).2))

end Sys2Proof.Machine
end

