-- ==== Sys2Proof/Machine/Scanner.lean ====
section
/-! DEFINITION. The bus scanner (43_scanner.md). -/

namespace Sys2Proof.Machine

/-- SCAN_COUNT <- 0 (R170). -/
def clearScan (s : State) : State := { s with scan.count := 0, held.scan := true }

/-- SCAN_LIST[SCAN_COUNT] <- a; SCAN_COUNT <- SCAN_COUNT + 1 (R170). -/
def listAddr (a : Addr) (s : State) : State :=
  { s with scan := {
      count := s.scan.count + 1
      list := s.scan.list.setIfInBounds s.scan.count.toNat a } }

/-- Probe one address and list it if it acknowledged (R170). -/
def scanOne (a : Addr) (s : State) : State :=
  if (probe a s).1 then listAddr a (probe a s).2 else (probe a s).2

/-- Probe the addresses in order (R170, R171). -/
def scanAll : List Addr → State → State
  | [], s => s
  | a :: as, s => scanAll as (scanOne a s)

/-- SCAN_LIST at SCAN_COUNT and above is unspecified after a SCAN (R37, I7): free values (log 10). -/
def forgetScanTail (s : State) : State :=
  skipFree 120 { s with scan.list := Vector.ofFn fun k =>
    if k.val < s.scan.count.toNat then s.scan.list[k] else Config.freeBits 7 (s.draws.freeCtr + k.val) }

/-- SCAN (R170). -/
def execScan (s : State) : Host.Outcome State Fault Refusal :=
  ifAdmitted s fun s => .next (finish .ok (forgetScanTail (scanAll (scanAddrs s.par) (clearScan s))))

end Sys2Proof.Machine
end

