-- ==== Sys2Proof/Machine/Dispatch.lean ====
section
/-! DEFINITION. One arm per command, each a direct call of its meaning. -/

namespace Sys2Proof.Machine

/-- The effect of a command that has been issued. -/
def exec (i : Instr) (s : State) : Host.Outcome State Fault Refusal :=
  match i with
  | .init => Sys2Proof.Machine.execInit s
  | .deinit => Sys2Proof.Machine.execDeinit s
  | .scan => Sys2Proof.Machine.execScan s
  | .write sendStop addr => Sys2Proof.Machine.execWrite sendStop addr s
  | .read addr => Sys2Proof.Machine.execRead addr s
  | .writeMem addr sub => Sys2Proof.Machine.execWriteMem addr sub s
  | .readMem addr sub => Sys2Proof.Machine.execReadMem addr sub s
  | .ping addr => Sys2Proof.Machine.execPing addr s
  | .start => Sys2Proof.Machine.execStart s
  | .stop => Sys2Proof.Machine.execStop s
  | .writeByte value => Sys2Proof.Machine.execWriteByte value s
  | .readByte nack => Sys2Proof.Machine.execReadByte nack s
  | .driveLow line => Sys2Proof.Machine.execDriveLow line s
  | .release line => Sys2Proof.Machine.execRelease line s
  | .readLine line => Sys2Proof.Machine.execReadLine line s
  | .delay => Sys2Proof.Machine.execDelay s

end Sys2Proof.Machine
end

