-- ==== Sys2Proof/Machine/HostInterface.lean ====
section
/-! DEFINITION. The host's side of the block (R44): its accesses to registers and DBUF, and which move comes
next. -/

namespace Sys2Proof.Machine

/-- A single bit as the host reads it. -/
def bitValue (b : Bool) : Nat := if b then 1 else 0

/-- The number in a register, as the host reads it (R44, R50). Every register holds one: where nothing has written it,
what State.reset put there (log 4); CFG_HALF_PERIOD while UNCONFIGURED, one free value (log 14). CFG_BAUD
reads as its 32 bits unsigned (log 18). A byte of DBUF holds none until it is written (R43, log 5). -/
def hostRead (r : HostReg) (s : State) : Option Nat :=
  match r with
  | .drvScl => some s.drvScl.code.toNat
  | .drvSda => some s.drvSda.code.toNat
  | .cfgState => some s.cfg.state.code.toNat
  | .cfgBusId => some s.cfg.busId.toNat
  | .cfgSclPin => some s.cfg.sclPin.num
  | .cfgSdaPin => some s.cfg.sdaPin.num
  | .cfgBaud => some s.cfg.baud.toNat
  | .cfgHalfPeriod => some s.cfg.halfPeriod.toNat
  | .busy => some (bitValue s.busy)
  | .busOpen => some (bitValue s.busOpen)
  | .resStatus => some s.res.status.code.toNat
  | .resCount => some s.res.count.toNat
  | .resAck => some (bitValue s.res.ack)
  | .resByte => some s.res.byte.toNat
  | .resLevel => some (bitValue s.res.level)
  | .scanCount => some s.scan.count.toNat
  | .scanList k => some s.scan.list[k].toNat
  | .dbuf i => (dbufRead i s).map (·.toNat)

/-- The DBUF index an access names, if it names one. -/
def accessIndex : HostAccess → Option Nat
  | .writeDbuf i _ => some i
  | .read (.dbuf i) => some i
  | _ => none

/-- DBUF[i] is the host's for i < BUF_MAX only (R44, R50; log 23). -/
def indexExists (s : State) (a : HostAccess) : Bool :=
  match accessIndex a with
  | some i => i < bufMax s.par
  | none => true

/-- A read by the host (R44): it changes no register. One of a byte of DBUF that nothing has written is refused (R43,
log 5). -/
def hostReads (r : HostReg) (s : State) : Host.Outcome State Fault Refusal :=
  match hostRead r s with
  | some v => .next { s with hostSaw := { reg := r, value := v } :: s.hostSaw }
  | none => .refused .noValue

/-- The effect of an access (R44): a write stores the value. -/
def hostEffect (s : State) : HostAccess → Host.Outcome State Fault Refusal
  | .writeArgBus v => .next { s with arg.bus := v, held.argBus := true }
  | .writeArgScl v => .next { s with arg.scl := v, held.argScl := true }
  | .writeArgSda v => .next { s with arg.sda := v, held.argSda := true }
  | .writeArgBaud v => .next { s with arg.baud := v, held.argBaud := true }
  | .writeLen v => .next { s with len := v, held.len := true }
  | .writeDbuf i v => .next (dbufWrite i v s)
  | .read r => hostReads r s

/-- One access of the host (R44). -/
def hostAccess (a : HostAccess) (s : State) : Host.Outcome State Fault Refusal :=
  if indexExists s a then hostEffect s a else .fault .dbufIndex

/-- What the next step has to do. -/
inductive Fetched where
  /-- The host makes no move: the block acts only on a command (R216). -/
  | idle
  /-- An access of the host, in the state it applies to. -/
  | access (a : HostAccess) (s : State)
  /-- A command, in the state in which it has been issued. -/
  | command (i : Instr) (s : State)
  /-- A refusal. -/
  | stop (r : Refusal)

/-- Take the host's next move (R44). The host has none while BUSY = 1 (R240). A word that is no command is
refused before it is latched (R78, R205). -/
def fetch (s : State) : Fetched :=
  match s.hostQ with
  | [] => .idle
  | m :: rest =>
    if s.busy then .stop .busy
    else match m with
      | .access a => .access a { s with hostQ := rest }
      | .issue w =>
        match decode w with
        | .ok i => .command i (issue w i { s with hostQ := rest })
        | .error e => .stop (.illegalWord e)

end Sys2Proof.Machine
end

