-- ==== Sys2Proof/Machine/Step.lean ====
section
/-! DEFINITION. One step: the host's next move, and the whole of a command it issues. -/

namespace Sys2Proof.Machine

/-- One step. A command runs to completion within it (R44, R61); with no move left the state stays
(R216, log 2). -/
def step (s : State) : Host.Outcome State Fault Refusal :=
  match fetch s with
  | .idle => .next s
  | .access a t => hostAccess a t
  | .command i t => exec i t
  | .stop r => .refused r

/-- The host is about to issue the word w: the low nbits bits of it, every bit above them 0. The host issues
only while BUSY = 0 (R31), and its other moves follow (log 2). -/
def State.withFetchWord (s : State) (nbits w : Nat) : State :=
  { s with busy := false, hostQ := .issue (BitVec.ofNat 32 (w % 2 ^ nbits)) :: s.hostQ }

end Sys2Proof.Machine
end

