-- ==== Sys2Proof/Machine/Assembly.lean ====
section
/-! DEFINITION. What a line of source assembles to (R81, R82): the host's moves. -/

namespace Sys2Proof.Machine

/-- The move that issues an instruction. -/
def issueOf (i : Instr) : HostMove := .issue (encode i)

/-- A target address operand that is in range. -/
def asmAddr (a : Nat) : Addr := BitVec.ofNat 7 a

/-- A sub-address operand that is in range. -/
def asmSub (sub : Nat) : SubAddr := BitVec.ofNat 16 sub

/-- The moves that write DBUF from index i on. -/
def dataMoves : Nat → List Nat → List HostMove
  | _, [] => []
  | i, v :: vs => .access (.writeDbuf i (BitVec.ofNat 8 v)) :: dataMoves (i + 1) vs

/-- The moves of a line whose operands are in range (R81, R82). -/
def movesOf : Asm → List HostMove
  | .init => [issueOf .init]
  | .deinit => [issueOf .deinit]
  | .scan => [issueOf .scan]
  | .write a => [issueOf (.write true (asmAddr a))]
  | .writeNostop a => [issueOf (.write false (asmAddr a))]
  | .read a => [issueOf (.read (asmAddr a))]
  | .writeMem a sub => [issueOf (.writeMem (asmAddr a) (asmSub sub))]
  | .readMem a sub => [issueOf (.readMem (asmAddr a) (asmSub sub))]
  | .ping a => [issueOf (.ping (asmAddr a))]
  | .start => [issueOf .start]
  | .stop => [issueOf .stop]
  | .writeByte v => [issueOf (.writeByte (BitVec.ofNat 8 v))]
  | .readByteAck => [issueOf (.readByte false)]
  | .readByteNack => [issueOf (.readByte true)]
  | .driveLow l => [issueOf (.driveLow l)]
  | .release l => [issueOf (.release l)]
  | .readLine l => [issueOf (.readLine l)]
  | .delay => [issueOf .delay]
  | .writeNs a => [issueOf (.write false (asmAddr a))]
  | .rstart => [issueOf .start]
  | .readAck => [issueOf (.readByte false)]
  | .readNack => [issueOf (.readByte true)]
  | .probe a => [issueOf (.ping (asmAddr a))]
  | .sclLow => [issueOf (.driveLow .scl)]
  | .sdaLow => [issueOf (.driveLow .sda)]
  | .sclRelease => [issueOf (.release .scl)]
  | .sdaRelease => [issueOf (.release .sda)]
  | .writeReg a sub v => .access (.writeLen 1) :: dataMoves 0 [v] ++ [issueOf (.writeMem (asmAddr a) (asmSub sub))]
  | .arg bus scl sda baud =>
    [.access (.writeArgBus (BitVec.ofNat 32 bus)), .access (.writeArgScl scl), .access (.writeArgSda sda),
     .access (.writeArgBaud (BitVec.ofInt 32 baud))]
  | .len n => [.access (.writeLen (BitVec.ofNat 32 n))]
  | .data bytes => dataMoves 0 bytes

/-- Assemble a line: an operand out of range is an error, not a truncation (R81). -/
def assemble (line : Asm) : Option (List HostMove) :=
  if line.wellFormed then some (movesOf line) else none

end Sys2Proof.Machine
end

