-- ==== Sys2Proof/Machine/ByteTrace.lean ====
section
/-! DEFINITION. The byte-level view of the trace (R151), written from the sequence rules as lists of events and
not from the machine's operations, so that each can be held against the other. -/

namespace Sys2Proof.Machine

/-- A symbol of the byte-level trace (R151). -/
inductive ByteEvent where
  /-- `S`, a START_SEQ. -/
  | start
  /-- `P`, a STOP_SEQ. -/
  | stop
  /-- `W(v, x)`, a WRITE_BYTE_SEQ of v; ack is true for x = A. -/
  | wrote (v : Byte) (ack : Bool)
  /-- `R(v, x)`, a READ_BYTE_SEQ that assembled v; ack is true for x = A, the master's ACK. -/
  | got (v : Byte) (ack : Bool)
  deriving DecidableEq, Repr

/-- The events of START_SEQ at half-period h (R121, R127). -/
def startEvents (h : Word) : List Event :=
  [.csBegin, .drive .sda .released, .wait h, .drive .scl .released, .wait h, .drive .sda .low, .wait h, .csEnd]

/-- The events of STOP_SEQ (R122). -/
def stopEvents (h : Word) : List Event :=
  [.csBegin, .wait h, .drive .sda .low, .wait h, .drive .scl .released, .wait h, .drive .sda .released, .wait h,
   .csEnd]

/-- The events of one data bit of WRITE_BYTE_SEQ (R123). -/
def sendBitEvents (h : Word) (bit : Bool) : List Event :=
  [.csBegin, .drive .scl .low, .drive .sda (if bit then .released else .low), .wait h, .drive .scl .released,
   .wait h, .csEnd]

/-- The events of the ninth clock of WRITE_BYTE_SEQ (R123). -/
def ackEvents (h : Word) (ack : Bool) : List Event :=
  [.csBegin, .drive .scl .low, .drive .sda .released, .wait h, .drive .scl .released, .wait h,
   .sample .sda (!ack), .wait h, .drive .scl .low, .csEnd]

/-- The events of one data bit of READ_BYTE_SEQ (R124). -/
def receiveBitEvents (h : Word) (bit : Bool) : List Event :=
  [.csBegin, .drive .scl .low, .wait h, .drive .scl .released, .wait h, .sample .sda bit, .csEnd]

/-- The events of the ninth clock of READ_BYTE_SEQ (R124). -/
def replyEvents (h : Word) (ack : Bool) : List Event :=
  [.csBegin, .drive .scl .low, .wait h] ++ (if ack then [.drive .sda .low] else []) ++
    [.wait h, .drive .scl .released, .wait h, .drive .scl .low, .drive .sda .released, .csEnd]

/-- The events a symbol stands for (R151). -/
def ByteEvent.events (h : Word) : ByteEvent → List Event
  | .start => startEvents h
  | .stop => stopEvents h
  | .wrote v ack => (bitsMsbFirst v).flatMap (sendBitEvents h) ++ ackEvents h ack
  | .got v ack => (bitsMsbFirst v).flatMap (receiveBitEvents h) ++ replyEvents h ack

/-- The events a byte-level trace stands for (R151). -/
def byteTraceEvents (h : Word) (bs : List ByteEvent) : List Event := bs.flatMap (ByteEvent.events h)

/-- The events of a trace, oldest first (R109). -/
def eventsOf (s : State) : List Event := (s.trace.map (·.event)).reverse

/-- The number of WAITs (R247). -/
def waitCount (es : List Event) : Nat := es.countP (fun e => match e with | .wait _ => true | _ => false)

/-- The number of brackets (R247). -/
def bracketCount (es : List Event) : Nat := es.countP (fun e => match e with | .csBegin => true | _ => false)

end Sys2Proof.Machine
end

