-- ==== Sys2Proof/Machine/Instances.lean ====
section
/-! DEFINITION. N_INSTANCES independent instances, one per bus (R66, R214). -/

namespace Sys2Proof.Machine

/-- n instances, each with its own copy of every register and of DBUF (R66). N_INSTANCES ≥ 1 is OPEN (R7).
They all take their free draws from one stream, each at its own counters (log 36). -/
abbrev System (n : Nat) := Vector State n

/-- One step of instance k: the others are not its business, since instances share no state (R66). -/
def System.stepAt {n : Nat} (k : Fin n) (y : System n) : Host.Outcome (System n) Fault Refusal :=
  match step y[k] with
  | .next t => .next (y.set k t)
  | .fault r => .fault r
  | .refused r => .refused r

/-- The pins an instance drives. -/
def claimedPins (s : State) : List PinId :=
  if s.cfg.state = .configured then [s.cfg.sclPin, s.cfg.sdaPin] else []

/-- No two instances are configured on the same pin: a duty of the hosts, not a check of the block (R241). -/
def System.pinsDisjoint {n : Nat} (y : System n) : Prop :=
  ∀ j k : Fin n, j ≠ k → List.Disjoint (claimedPins y[j]) (claimedPins y[k])

end Sys2Proof.Machine
end

