-- ==== Sys2Proof/Safety.lean ====
section
/-! DEFINITION. The terms claims are stated in: the invariant of the machine, the environment's answers to come,
the line states and bus edges of R125, the hazards of R243, and what a command leaves alone. -/

namespace Sys2Proof.Machine

/-! ### The invariant -/

/-- No command is running: BUSY, CS_ACTIVE, PHASE and MPC are as R21, R31, R39 and R40 say. -/
structure State.Quiet (s : State) : Prop where
  notBusy  : s.busy = false
  unmasked : s.csActive = false
  idle     : s.phase = .idle
  noMpc    : s.mpc = none

/-- What every step keeps. -/
structure State.Inv (s : State) : Prop where
  /-- No command is running between steps. -/
  quiet : s.Quiet
  /-- DBUF has its canonical form. -/
  dbufCanonical : Memory.wf s.dbuf
  /-- DBUF has no index of BUF_MAX or more (R50). -/
  dbufInside : ∀ c ∈ s.dbuf, c.1 < bufMax s.par
  /-- A configuration was made by valid arguments on a bit-bang bus (R42, R180). -/
  validHandle : s.cfg.state = .configured →
    busIdValid s.par s.cfg.busId = true ∧ busIsBitbang s.par s.cfg.busId = true ∧
      pinValid s.par s.cfg.sclPin s.cfg.sdaPin = true
  /-- What an admitted command reads of the handle has been written (R26, R43). -/
  heldHandle : s.cfg.state = .configured → s.held.handle = true
  /-- CFG_BAUD ≥ 1 and CFG_HALF_PERIOD = hp(CFG_BAUD) ≥ 1 while CONFIGURED (R28, R29, R120). -/
  validTiming : s.cfg.state = .configured →
    1 ≤ s.cfg.baud.toInt ∧ s.cfg.halfPeriod = halfPeriod s.par s.cfg.baud ∧ 1 ≤ s.cfg.halfPeriod.toNat
  /-- While UNCONFIGURED both lines are released, the bus is closed and CFG_BAUD is 0 (R184, R230). -/
  releasedHandle : s.cfg.state = .unconfigured →
    s.drvScl = .released ∧ s.drvSda = .released ∧ s.busOpen = false ∧ s.cfg.baud = 0
  /-- SCAN_COUNT is at most the number of addresses an admitted SCAN_END lets SCAN probe (R152). -/
  scanBound : s.scan.count.toNat ≤ 113

/-! ### The environment's answers -/

/-- The k-th answer of the bus environment from now on (R24, R104): every `SAMPLE` of a released line takes the
next one. -/
def upcoming (s : State) (k : Nat) : Bool :=
  if k < s.draws.env.length then s.draws.env.getD k false
  else Config.envDraw (s.draws.envCtr + (k - s.draws.env.length))

/-- From s to t, n answers of the environment have been taken, the later ones staying in order (R24, R104). -/
structure AnswersTaken (n : Nat) (s t : State) : Prop where
  listed : t.draws.env = s.draws.env.drop n
  later  : ∀ k, upcoming t k = upcoming s (n + k)

/-- Whether the k-th byte sent from now on is acknowledged, when every answer until then is an ACK bit (R123). -/
def ackAt (s : State) (k : Nat) : Bool := ackOfSample (upcoming s k)

/-- The byte whose bits are the answers k to k + 7, the first one in bit 7 (R52, R124). -/
def byteAt (s : State) (k : Nat) : Byte :=
  (List.range 8).foldl (fun v j => shiftIn v (upcoming s (k + j))) 0

/-! ### Byte-level traces of transactions -/

/-- The symbols of sending bytes until the first NACK, the first byte taking answer k (R142). -/
def sentTrace (s : State) : Nat → List Byte → List ByteEvent
  | _, [] => []
  | k, v :: vs => .wrote v (ackAt s k) :: (if ackAt s k then sentTrace s (k + 1) vs else [])

/-- Every one of n bytes sent from answer k on is acknowledged. -/
def acked (s : State) (k n : Nat) : Bool := (List.range n).all (fun j => ackAt s (k + j))

/-- The symbols of receiving n bytes, the first one taking answers k to k + 7: ACK on each but the last (R144). -/
def gotTrace (s : State) : Nat → Nat → List ByteEvent
  | _, 0 => []
  | k, n + 1 => .got (byteAt s k) (n != 0) :: gotTrace s (k + 8) n

/-- The status of a transaction that was acknowledged throughout, or was not (R200, R202). -/
def statusOf (ok : Bool) : Status := if ok then .ok else .busError

/-! ### What a command leaves alone -/

/-- What no bus command writes: the parameters, the configuration, the arguments, LEN, CMD and the host's own
moves and reads (R26 to R31, R44). -/
structure Untouched (s t : State) : Prop where
  par     : t.par = s.par
  cfg     : t.cfg = s.cfg
  arg     : t.arg = s.arg
  len     : t.len = s.len
  cmd     : t.cmd = s.cmd
  hostQ   : t.hostQ = s.hostQ
  hostSaw : t.hostSaw = s.hostSaw

/-- Two outcomes of a command agree: both are next states that f makes equal, or both stop for one reason. -/
def agreeUnder (f : State → State) : Host.Outcome State Fault Refusal → Host.Outcome State Fault Refusal → Prop
  | .next t, .next u => f t = f u
  | .fault a, .fault b => a = b
  | .refused q, .refused r => q = r
  | _, _ => False

/-! ### Line states, bus edges and hazards -/

/-- The three clean line states of R125. -/
inductive LineState where
  | idle
  | held
  | started
  deriving DecidableEq, Repr

/-- The clean line state the block is in, if it is in one (R125). HELD needs BUS_OPEN = 1, so after a byte sequence from
IDLE, which leaves BUS_OPEN 0 (R131), the block is in none (log 37). -/
def lineState (s : State) : Option LineState :=
  match s.drvScl, s.drvSda, s.busOpen with
  | .released, .released, false => some .idle
  | .low, .released, true => some .held
  | .released, .low, true => some .started
  | _, _, _ => none

/-- A change of SDA by the master while it has SCL released (R12, R125). -/
inductive Edge where
  /-- SDA falls: a START condition. -/
  | start
  /-- SDA rises: a STOP condition. -/
  | stop
  deriving DecidableEq, Repr

/-- The edges a list of events makes, from given drive states of SCL and SDA. -/
def clockHighEdges : Drive → Drive → List Event → List Edge
  | _, _, [] => []
  | _, sda, .drive .scl d :: es => clockHighEdges d sda es
  | scl, sda, .drive .sda d :: es =>
    (match scl, sda, d with
      | .released, .released, .low => [Edge.start]
      | .released, .low, .released => [Edge.stop]
      | _, _, _ => []) ++ clockHighEdges scl d es
  | scl, sda, _ :: es => clockHighEdges scl sda es

/-- The edges that the symbols of a byte-level trace stand for (R12, R125): a START makes one, a STOP makes one, and
the bytes make none. -/
def conditionsOf (bs : List ByteEvent) : List Edge :=
  bs.filterMap fun b => match b with
    | .start => some .start
    | .stop => some .stop
    | .wrote _ _ => none
    | .got _ _ => none

/-- Whether the bus is open after these edges, if each STOP among them ends an open transaction (R38). -/
def openAfter : Bool → List Edge → Option Bool
  | isOpen, [] => some isOpen
  | _, .start :: es => openAfter true es
  | true, .stop :: es => openAfter false es
  | false, .stop :: _ => none

/-- An event in which the master drives a line. -/
def Event.isDrive : Event → Bool
  | .drive _ _ => true
  | _ => false

/-- Every CS_BEGIN has its CS_END, brackets do not nest, and no command is issued or ends inside one (R106).
The flag says whether a bracket is open. -/
def bracketed : Bool → List Event → Bool
  | inside, [] => !inside
  | inside, .csBegin :: es => !inside && bracketed true es
  | inside, .csEnd :: es => inside && bracketed false es
  | inside, .complete _ :: es => !inside && bracketed inside es
  | inside, .issue _ :: es => !inside && bracketed inside es
  | inside, .drive _ _ :: es => bracketed inside es
  | inside, .sample _ _ :: es => bracketed inside es
  | inside, .wait _ :: es => bracketed inside es

/-- A low-level command run from a cell of R125 that breaks the physical-layer contract, or a DRIVE_LOW or RELEASE, which
can make any edge (R243). Two things here are the model's choice (log 35): a transaction or SCAN from STARTED is a
hazard, and so is every engine command, transaction or SCAN from a state in none of the three clean line states, of
which R125 and R243 do not speak. The block checks none of this; it is the host's duty. -/
def protocolHazard (i : Instr) (s : State) : Bool :=
  match i with
  | .stop => lineState s != some .held && lineState s != some .started
  | .start => lineState s != some .idle && lineState s != some .held
  | .writeByte _ => lineState s != some .held && lineState s != some .started
  | .readByte _ => lineState s != some .held
  | .driveLow _ => true
  | .release _ => true
  | .write _ _ => lineState s != some .idle && lineState s != some .held
  | .read _ => lineState s != some .idle && lineState s != some .held
  | .writeMem _ _ => lineState s != some .idle && lineState s != some .held
  | .readMem _ _ => lineState s != some .idle && lineState s != some .held
  | .ping _ => lineState s != some .idle && lineState s != some .held
  | .scan => lineState s != some .idle && lineState s != some .held
  | .init => false
  | .deinit => false
  | .readLine _ => false
  | .delay => false

/-- Every argument register that INIT reads has been written (R27, R43): ARG_BUS, and the other three unless the check
of ARG_BUS, which comes first, ends the command (R180, R181; log 34). -/
def argsHeld (s : State) : Bool :=
  s.held.argBus && (!busIdValid s.par s.arg.bus || (s.held.argBaud && s.held.argScl && s.held.argSda))

/-- Every register the command reads, but for the bytes of DBUF, has been written (R43). The machine does not ask
this (log 4); a claim that is to rest on no value of log 4 has it as a premise. -/
def readsHeld (i : Instr) (s : State) : Bool :=
  match i with
  | .init => argsHeld s
  | .write _ _ => s.held.len
  | .read _ => s.held.len
  | .writeMem _ _ => s.held.len
  | .readMem _ _ => s.held.len
  | .deinit => true
  | .scan => true
  | .ping _ => true
  | .start => true
  | .stop => true
  | .writeByte _ => true
  | .readByte _ => true
  | .driveLow _ => true
  | .release _ => true
  | .readLine _ => true
  | .delay => true

end Sys2Proof.Machine
end

