-- ==== Sys2Proof/Certificates/Slice0/Obligations.lean ====
section
/-! DEFINITION. The statements about this model. Each docstring names the rules of spec/ it states. -/

open Sys2Proof Sys2Proof.Machine

/-! ### The command word -/

/-- R70, R75, R79: decoding the word of an instruction gives that instruction, with every operand at every value
its field admits. -/
def Obligations.DecodeOfEncodeIsTheInstruction : Prop :=
  ∀ i : Instr, decode (encode i) = .ok i

/-- R79: a word that decodes is the word of what it decodes to, so no two words decode to one instruction. -/
def Obligations.EncodeOfDecodeIsTheWord : Prop :=
  ∀ (w : Word) (i : Instr), decode w = .ok i → encode i = w

/-- R79: decode(w) is the unique row of R75 with (w & mask) = match, with its free fields extracted, or illegal
if there is none. -/
def Obligations.DecodeSelectsTheUniqueTableRow : Prop :=
  ∀ w : Word,
    (∀ o : Opcode, w &&& o.maskWord = o.matchWord →
      ∃ i, decode w = .ok i ∧ i.opcode = o ∧ i.fields = CommandFields.ofWord w) ∧
    (∀ o p : Opcode, w &&& o.maskWord = o.matchWord → w &&& p.maskWord = p.matchWord → o = p) ∧
    ((∀ o : Opcode, w &&& o.maskWord ≠ o.matchWord) → ∃ e, decode w = .error e)

/-- Rows of 95_test_vectors.md section 2.2: what each word decodes to there. The names of the three reasons for which
a word is illegal are the model's choice (log 29). -/
def Obligations.WordsOfTheTestVectorsDecode : Prop :=
  decode 0x08000000 = .ok .init ∧ decode 0x24500000 = .ok (.write true 0x50) ∧
  decode 0x20500000 = .ok (.write false 0x50) ∧ decode 0x387FFFFF = .ok (.readMem 0x7F 0xFFFF) ∧
  decode 0x9A000000 = .ok (.readByte true) ∧ decode 0xC1000000 = .ok (.driveLow .sda) ∧
  decode 0x2C500000 = .error .unusedField ∧ decode 0x24D00000 = .error .reservedBit ∧
  decode 0x48000000 = .error .unassignedOpcode

/-- R77: a word with bit 23 set is illegal, whatever its operation. -/
def Obligations.ReservedBitMakesAWordIllegal : Prop :=
  ∀ w : Word, w.getLsbD 23 = true → ∃ e, decode w = .error e

/-- R78: an illegal word, among them every word whose OP is one of the unassigned values, gets no step and the
refusal mark. The names of the reasons are the model's choice (log 29). -/
def Obligations.IllegalWordIsRefused : Prop :=
  (∀ w : Word, (w >>> 27).toNat ∈ [0x00, 0x09, 0x0A, 0x0B, 0x0C, 0x0D, 0x0E, 0x0F, 0x14, 0x15, 0x16, 0x17,
      0x1C, 0x1D, 0x1E, 0x1F] → decode w = .error .unassignedOpcode) ∧
  (∀ (s : State) (w : Word) (rest : List HostMove) (e : Illegal),
    s.hostQ = .issue w :: rest → s.busy = false → decode w = .error e → step s = .refused (.illegalWord e))

/-- R81, R82: every source line with its operands in range assembles to the moves it stands for, and one with an
operand out of range does not assemble. The bounds of .arg and .len are the model's reading (log 33). -/
def Obligations.AssemblerRefusesOperandsOutOfRange : Prop :=
  let word (n : Nat) : HostMove := .issue (BitVec.ofNat 32 n)
  -- The commands (R81).
  assemble .init = some [word 0x08000000] ∧ assemble .deinit = some [word 0x10000000] ∧
  assemble .scan = some [word 0x18000000] ∧
  (∀ a, assemble (.write a) = if a ≤ 127 then some [word (0x24000000 + a * 65536)] else none) ∧
  (∀ a, assemble (.writeNostop a) = if a ≤ 127 then some [word (0x20000000 + a * 65536)] else none) ∧
  (∀ a, assemble (.read a) = if a ≤ 127 then some [word (0x28000000 + a * 65536)] else none) ∧
  (∀ a sub, assemble (.writeMem a sub) =
    if a ≤ 127 ∧ sub ≤ 0xFFFF then some [word (0x30000000 + a * 65536 + sub)] else none) ∧
  (∀ a sub, assemble (.readMem a sub) =
    if a ≤ 127 ∧ sub ≤ 0xFFFF then some [word (0x38000000 + a * 65536 + sub)] else none) ∧
  (∀ a, assemble (.ping a) = if a ≤ 127 then some [word (0x40000000 + a * 65536)] else none) ∧
  assemble .start = some [word 0x80000000] ∧ assemble .stop = some [word 0x88000000] ∧
  (∀ v, assemble (.writeByte v) = if v ≤ 0xFF then some [word (0x90000000 + v)] else none) ∧
  assemble .readByteAck = some [word 0x98000000] ∧ assemble .readByteNack = some [word 0x9A000000] ∧
  assemble (.driveLow .scl) = some [word 0xC0000000] ∧ assemble (.driveLow .sda) = some [word 0xC1000000] ∧
  assemble (.release .scl) = some [word 0xC8000000] ∧ assemble (.release .sda) = some [word 0xC9000000] ∧
  assemble (.readLine .scl) = some [word 0xD0000000] ∧ assemble (.readLine .sda) = some [word 0xD1000000] ∧
  assemble .delay = some [word 0xD8000000] ∧
  -- The pseudo-instructions (R82).
  (∀ a, assemble (.writeNs a) = if a ≤ 127 then some [word (0x20000000 + a * 65536)] else none) ∧
  assemble .rstart = some [word 0x80000000] ∧
  assemble .readAck = some [word 0x98000000] ∧ assemble .readNack = some [word 0x9A000000] ∧
  (∀ a, assemble (.probe a) = if a ≤ 127 then some [word (0x40000000 + a * 65536)] else none) ∧
  assemble .sclLow = some [word 0xC0000000] ∧ assemble .sdaLow = some [word 0xC1000000] ∧
  assemble .sclRelease = some [word 0xC8000000] ∧ assemble .sdaRelease = some [word 0xC9000000] ∧
  (∀ a sub v, assemble (.writeReg a sub v) = if a ≤ 127 ∧ sub ≤ 0xFFFF ∧ v ≤ 0xFF then
    some [.access (.writeLen 1), .access (.writeDbuf 0 (BitVec.ofNat 8 v)), word (0x30000000 + a * 65536 + sub)]
    else none) ∧
  -- The host directives (R81); the bounds of .arg and .len are the widths of their registers (log 33).
  (∀ bus scl sda baud, assemble (.arg bus scl sda baud) =
    if bus ≤ 0xFFFFFFFF ∧ -2147483648 ≤ baud ∧ baud ≤ 2147483647 then
      some [.access (.writeArgBus (BitVec.ofNat 32 bus)), .access (.writeArgScl scl), .access (.writeArgSda sda),
        .access (.writeArgBaud (BitVec.ofInt 32 baud))]
    else none) ∧
  (∀ n, assemble (.len n) = if n ≤ 0xFFFFFFFF then some [.access (.writeLen (BitVec.ofNat 32 n))] else none) ∧
  (∀ bytes : List Nat, assemble (.data bytes) = if ∀ v ∈ bytes, v ≤ 0xFF then
    some (bytes.mapIdx fun j v => .access (.writeDbuf j (BitVec.ofNat 8 v))) else none)

/-! ### The step and the host -/

/-- R21, R31, R44: when the host's next move issues a word that decodes, the step is that command's effect on the
state in which the word is latched, BUSY is 1, MPC is at the first micro-operation and the issue is recorded. Four things
in it are the model's choice and no rule's: that one step is the whole of a command (log 1), where the spec steps by
micro-operations; that the host's moves are a queue in State (log 2); that the issue event is tagged with the word
(log 19), where R109 says only that each event is tagged with the command it belongs to; and that MPC holds the decoded
command (log 20). -/
def Obligations.StepRunsTheDecodedCommand : Prop :=
  ∀ (s : State) (w : Word) (i : Instr) (rest : List HostMove),
    s.hostQ = .issue w :: rest → s.busy = false → decode w = .ok i →
    step s = exec i { s with
      hostQ := rest
      cmd := w
      busy := true
      mpc := some { cmd := i, k := 0 }
      trace := { cmd := w, event := .issue w } :: s.trace }

/-- R44: a host write stores its value and nothing else, and a host read of a register, or of a byte of DBUF that has been
written, changes no register; with no move left the block does nothing (R216, log 2). That a register nothing has
written is read as it stands is the model's choice (log 4), and so is that State records what was read (log 18). -/
def Obligations.HostAccessStoresOnlyItsValue : Prop :=
  ∀ (s : State) (rest : List HostMove), s.busy = false →
    (s.hostQ = [] → step s = .next s) ∧
    (∀ v, s.hostQ = .access (.writeArgBus v) :: rest →
      step s = .next { s with hostQ := rest, arg.bus := v, held.argBus := true }) ∧
    (∀ v, s.hostQ = .access (.writeArgScl v) :: rest →
      step s = .next { s with hostQ := rest, arg.scl := v, held.argScl := true }) ∧
    (∀ v, s.hostQ = .access (.writeArgSda v) :: rest →
      step s = .next { s with hostQ := rest, arg.sda := v, held.argSda := true }) ∧
    (∀ v, s.hostQ = .access (.writeArgBaud v) :: rest →
      step s = .next { s with hostQ := rest, arg.baud := v, held.argBaud := true }) ∧
    (∀ v, s.hostQ = .access (.writeLen v) :: rest →
      step s = .next { s with hostQ := rest, len := v, held.len := true }) ∧
    (∀ j v, s.hostQ = .access (.writeDbuf j v) :: rest → j < bufMax s.par →
      ∃ t, step s = .next t ∧ { t with dbuf := s.dbuf } = { s with hostQ := rest } ∧
        ∀ k, dbufRead k t = if k = j then some v else dbufRead k s) ∧
    (∀ r v, s.hostQ = .access (.read r) :: rest → (∀ j, r = .dbuf j → j < bufMax s.par) →
      hostRead r s = some v →
        step s = .next { s with hostQ := rest, hostSaw := { reg := r, value := v } :: s.hostSaw })

/-- An access of the host to DBUF at BUF_MAX or above faults. The fault is the model's choice and no rule's (log 23): R44
and R50 give the host the indexes below BUF_MAX, and no outcome for another one. -/
def Obligations.DbufAccessPastTheEndFaults : Prop :=
  ∀ (s : State) (rest : List HostMove) (j : Nat), s.busy = false → bufMax s.par ≤ j →
    (∀ v, s.hostQ = .access (.writeDbuf j v) :: rest → step s = .fault .dbufIndex) ∧
    (s.hostQ = .access (.read (.dbuf j)) :: rest → step s = .fault .dbufIndex)

/-- R240: the host has no move while BUSY = 1. That a step on a host move made there is a refusal is the model's form of
that premise (log 24). -/
def Obligations.HostHasNoMoveWhileBusy : Prop :=
  ∀ (s : State) (m : HostMove) (rest : List HostMove),
    s.busy = true → s.hostQ = m :: rest → step s = .refused .busy

/-- R43, R44, R230: right after reset a host read of a byte of DBUF is refused, and a register that the spec resets reads
as it says. That a read of any other register is a step, and gives what State.reset put there, is the model's choice
(log 4; for CFG_HALF_PERIOD, to which I5 gives any value, log 14), where R43 and I6 have a model refuse it; and so is
that State records what was read (log 18). -/
def Obligations.HostReadsRightAfterReset : Prop :=
  ∀ (p : Params) (rest : List HostMove), let s := State.resetWith p
    (∀ j < bufMax p, hostRead (.dbuf j) s = none ∧
      step { s with hostQ := .access (.read (.dbuf j)) :: rest } = .refused .noValue) ∧
    (∀ r : HostReg, (∀ j, r ≠ .dbuf j) → ∃ v, hostRead r s = some v ∧
      step { s with hostQ := .access (.read r) :: rest } = .next { s with
        hostQ := rest, hostSaw := [{ reg := r, value := v }] }) ∧
    hostRead .drvScl s = some 1 ∧ hostRead .drvSda s = some 1 ∧ hostRead .cfgState s = some 0 ∧
    hostRead .cfgBaud s = some 0 ∧ hostRead .busOpen s = some 0 ∧ hostRead .busy s = some 0

/-- DBUF is byte storage (R50, R57): a byte written reads back, and every other byte reads as before. -/
def Obligations.DbufByteWrittenReadsBack : Prop :=
  ∀ (s : State) (j k : Nat) (v : Byte),
    dbufRead k (dbufWrite j v s) = if k = j then some v else dbufRead k s

/-- R23 to R37, R44, R200: what a host read of each register gives: its number. Four clauses are the model's choice
and no rule's. In a state in which nothing has written a register (RES_, SCAN_, CFG_BUS_ID, the pins), where R43 and I6 have
a model refuse the read, it gives what the register contains (log 4). While UNCONFIGURED, CFG_HALF_PERIOD gives the
number in the register, the same one at each read, where I5 gives it any value and R43 and R230 no value (log 14). A
read of CFG_BAUD gives its 32 bits as an unsigned number, where R28 makes the register signed (log 18). The number that
a pin reads as is the model's name for it (log 8). -/
def Obligations.HostReadsGiveTheRegisters : Prop :=
  ∀ s : State,
    hostRead .drvScl s = some (if s.drvScl = .released then 1 else 0) ∧
    hostRead .drvSda s = some (if s.drvSda = .released then 1 else 0) ∧
    hostRead .cfgState s = some (if s.cfg.state = .configured then 1 else 0) ∧
    hostRead .cfgBaud s = some s.cfg.baud.toNat ∧
    hostRead .busy s = some (if s.busy then 1 else 0) ∧ hostRead .busOpen s = some (if s.busOpen then 1 else 0) ∧
    hostRead .resStatus s = some (match s.res.status with
      | .ok => 0 | .invalidArgument => 1 | .busError => 2 | .resourceUnavailable => 3) ∧
    hostRead .resCount s = some s.res.count.toNat ∧ hostRead .resAck s = some (if s.res.ack then 1 else 0) ∧
    hostRead .resByte s = some s.res.byte.toNat ∧ hostRead .resLevel s = some (if s.res.level then 1 else 0) ∧
    hostRead .scanCount s = some s.scan.count.toNat ∧ (∀ k, hostRead (.scanList k) s = some s.scan.list[k].toNat) ∧
    hostRead .cfgBusId s = some s.cfg.busId.toNat ∧ hostRead .cfgSclPin s = some s.cfg.sclPin.num ∧
    hostRead .cfgSdaPin s = some s.cfg.sdaPin.num ∧
    hostRead .cfgHalfPeriod s = some s.cfg.halfPeriod.toNat ∧
    ∀ j, hostRead (.dbuf j) s = (dbufRead j s).map (·.toNat)

/-- R26, R32 to R37, R43: after a command, the registers that it writes are marked as written, and no other mark changes;
the host can read the status. Two things in it are the model's choice and no rule's. RES_COUNT is marked after a WRITE,
READ, WRITE_MEM or READ_MEM that ends with BusError too, though R33 says that the register is written only on OK: R33
gives it any value after BusError, which the model holds as a free value (log 10). And one mark stands for CFG_BUS_ID with
the pin registers, and one for SCAN_COUNT with SCAN_LIST (log 14). -/
def Obligations.CommandsMarkWhatTheyWrite : Prop :=
  ∀ (i : Instr) (s t : State), exec i s = .next t →
    (t.held = match i with
      | .init => { s.held with status := true, handle := s.held.handle || t.res.status == .ok }
      | .deinit => { s.held with status := true }
      | .scan => { s.held with status := true, scan := true }
      | .write _ _ => { s.held with status := true, count := true }
      | .read _ => { s.held with status := true, count := true }
      | .writeMem _ _ => { s.held with status := true, count := true }
      | .readMem _ _ => { s.held with status := true, count := true }
      | .ping _ => { s.held with status := true, ack := true }
      | .start => { s.held with status := true }
      | .stop => { s.held with status := true }
      | .writeByte _ => { s.held with status := true, ack := true }
      | .readByte _ => { s.held with status := true, byte := true }
      | .driveLow _ => { s.held with status := true }
      | .release _ => { s.held with status := true }
      | .readLine _ => { s.held with status := true, level := true }
      | .delay => { s.held with status := true }) ∧
    hostRead .resStatus t = some (match t.res.status with
      | .ok => 0 | .invalidArgument => 1 | .busError => 2 | .resourceUnavailable => 3)

/-! ### Reset and configuration -/

/-- R230: what reset leaves: the values it gives, and the mark of R43 on no other register that the host or a command can
read. CFG_HALF_PERIOD holds any value (R29, I5) and is not spoken of. What CMD, SHIFT, BITCNT, i and the registers
without a mark contain in State is the model's choice (log 4) and is not spoken of. -/
def Obligations.ResetLeavesTheBlockUnconfigured : Prop :=
  ∀ p : Params, let s := State.resetWith p
    s.drvScl = .released ∧ s.drvSda = .released ∧ s.cfg.state = .unconfigured ∧ s.cfg.baud = 0 ∧
    s.busOpen = false ∧ s.Quiet ∧ s.trace = [] ∧ (∀ j, dbufRead j s = none) ∧
    s.held = {
      handle := false, argBus := false, argScl := false, argSda := false, argBaud := false, len := false
      status := false, count := false, ack := false, byte := false, level := false, scan := false }

/-- R231: after reset only INIT and DEINIT are admitted, and DEINIT changes only RES_STATUS. An INIT issued before the host
has written the argument registers reads what they contain, which is the model's choice where R27 has a model refuse it
(log 4): with ARG_BUS = 0 and ARG_BAUD = 0 it ends with an error and configures nothing. What CFG_HALF_PERIOD and the
working registers hold is unspecified before and after (R29, R40) and is not spoken of. -/
def Obligations.DeinitAfterResetChangesOnlyStatus : Prop :=
  ∀ p : Params, let s := State.resetWith p
    (∀ i : Instr, i ≠ .init → i ≠ .deinit → exec i s = .refused .notAdmitted) ∧
    (∃ t, exec .init s = .next t ∧ t.cfg = s.cfg ∧
      t.res = { s.res with status := if busIdValid p 0 then .invalidArgument else .resourceUnavailable }) ∧
    ∃ t, exec .deinit s = .next t ∧ t.res = { s.res with status := .ok } ∧
      t.held = { s.held with status := true } ∧
      { t.cfg with halfPeriod := s.cfg.halfPeriod } = s.cfg ∧ t.drvScl = s.drvScl ∧ t.drvSda = s.drvSda ∧
      t.arg = s.arg ∧ t.len = s.len ∧ t.cmd = s.cmd ∧ t.busy = s.busy ∧ t.scan = s.scan ∧ t.busOpen = s.busOpen ∧
      t.csActive = s.csActive ∧ t.phase = s.phase ∧ t.mpc = s.mpc ∧ (∀ j, dbufRead j t = dbufRead j s)

/-- R232: DEINIT returns the block to the reset state, but for the stale handle, the registers that keep their
values, and RES_STATUS = OK. -/
def Obligations.DeinitReturnsToTheResetState : Prop :=
  ∀ s : State, s.csActive = false →
    ∃ t, exec .deinit s = .next t ∧ let r := State.resetWith s.par
      t.drvScl = r.drvScl ∧ t.drvSda = r.drvSda ∧ t.cfg.state = r.cfg.state ∧ t.cfg.baud = r.cfg.baud ∧
      t.busOpen = r.busOpen ∧ t.busy = r.busy ∧ t.csActive = r.csActive ∧ t.phase = r.phase ∧ t.mpc = r.mpc ∧
      t.cfg.busId = s.cfg.busId ∧ t.cfg.sclPin = s.cfg.sclPin ∧ t.cfg.sdaPin = s.cfg.sdaPin ∧
      t.res = { s.res with status := .ok } ∧ t.scan = s.scan ∧ t.len = s.len ∧ t.arg = s.arg ∧
      (∀ j, dbufRead j t = dbufRead j s)

/-- R184: DEINIT runs in every state, releases SCL and then SDA with no bracket and no WAIT, sets CFG_BAUD to 0,
CFG_STATE to UNCONFIGURED and BUS_OPEN to 0, and leaves the stale handle and all else alone. -/
def Obligations.DeinitReleasesTheBus : Prop :=
  encode .deinit = 0x10000000 ∧
  ∀ s : State, ∃ t, exec .deinit s = .next t ∧
    eventsOf t = eventsOf s ++ [.drive .scl .released, .drive .sda .released, .complete .ok] ∧
    t.drvScl = .released ∧ t.drvSda = .released ∧ t.cfg.baud = 0 ∧ t.busOpen = false ∧ t.phase = .idle ∧
    t.cfg.state = .unconfigured ∧ t.res = { s.res with status := .ok } ∧ t.busy = false ∧ t.mpc = none ∧
    t.cfg.busId = s.cfg.busId ∧ t.cfg.sclPin = s.cfg.sclPin ∧ t.cfg.sdaPin = s.cfg.sdaPin ∧
    t.par = s.par ∧ t.arg = s.arg ∧ t.len = s.len ∧ t.cmd = s.cmd ∧ t.scan = s.scan ∧ t.csActive = s.csActive ∧
    AnswersTaken 0 s t ∧ t.hostQ = s.hostQ ∧ t.hostSaw = s.hostSaw ∧ (∀ j, dbufRead j t = dbufRead j s) ∧
    (∀ i : Instr, i ≠ .init → i ≠ .deinit → exec i t = .refused .notAdmitted)

/-- R180, R182, R185: an INIT whose arguments have been written and pass configures, in either CFG_STATE: every CFG_
register is written, the half-period is hp(ARG_BAUD), SCL and then SDA are released with no bracket and no WAIT, and
BUS_OPEN is 0. -/
def Obligations.InitConfiguresTheBus : Prop :=
  encode .init = 0x08000000 ∧
  ∀ s : State, s.held.argBus = true → s.held.argBaud = true → s.held.argScl = true → s.held.argSda = true →
    busIdValid s.par s.arg.bus = true → 0 < s.arg.baud.toInt →
    pinValid s.par s.arg.scl s.arg.sda = true → busIsBitbang s.par s.arg.bus = true →
    ∃ t, exec .init s = .next t ∧
      eventsOf t = eventsOf s ++ [.drive .scl .released, .drive .sda .released, .complete .ok] ∧
      clockHighEdges s.drvScl s.drvSda [.drive .scl .released, .drive .sda .released] =
        (if s.drvSda = .low then [.stop] else []) ∧
      t.cfg.state = .configured ∧ t.cfg.busId = s.arg.bus ∧ t.cfg.sclPin = s.arg.scl ∧ t.cfg.sdaPin = s.arg.sda ∧
      t.cfg.baud = s.arg.baud ∧
      t.cfg.halfPeriod.toNat = halfPeriodOf s.par.kScale.toNat s.par.hpRounding s.arg.baud.toInt.toNat ∧
      t.drvScl = .released ∧ t.drvSda = .released ∧ t.busOpen = false ∧ t.phase = .idle ∧
      t.res = { s.res with status := .ok } ∧ t.busy = false ∧ t.mpc = none ∧
      t.par = s.par ∧ t.arg = s.arg ∧ t.len = s.len ∧ t.cmd = s.cmd ∧ t.scan = s.scan ∧ t.csActive = s.csActive ∧
      AnswersTaken 0 s t ∧ t.hostQ = s.hostQ ∧ t.hostSaw = s.hostSaw ∧ (∀ j, dbufRead j t = dbufRead j s)

/-- R180, R181, R183: INIT checks the bus identifier first and then the baud rate and the pins; an INIT that raises an
error drives no line and changes nothing but RES_STATUS, so an earlier configuration stays in force. That an argument
register nothing has written is read as it stands, where R27 has a model refuse, is the model's choice (log 4); the code
of an INIT whose arguments are all bad is the spec's decision, which the model follows where R181 lets a model give
either code (log 25). -/
def Obligations.InitErrorChangesOnlyStatus : Prop :=
  ∀ (s : State) (code : Status),
    (busIdValid s.par s.arg.bus = false ∧ code = .resourceUnavailable) ∨
    (busIdValid s.par s.arg.bus = true ∧ (s.arg.baud.toInt ≤ 0 ∨ pinValid s.par s.arg.scl s.arg.sda = false) ∧
      code = .invalidArgument) →
    ∃ t, exec .init s = .next t ∧ t.res = { s.res with status := code } ∧ t.cfg = s.cfg ∧
      eventsOf t = eventsOf s ++ [.complete code] ∧ t.drvScl = s.drvScl ∧ t.drvSda = s.drvSda ∧
      t.busOpen = s.busOpen ∧ t.par = s.par ∧ t.arg = s.arg ∧ t.len = s.len ∧ t.cmd = s.cmd ∧ t.scan = s.scan ∧
      t.csActive = s.csActive ∧ AnswersTaken 0 s t ∧ t.hostQ = s.hostQ ∧ t.hostSaw = s.hostSaw ∧
      (∀ j, dbufRead j t = dbufRead j s) ∧ t.busy = false ∧ t.phase = .idle ∧ t.mpc = none

/-- R180: an INIT whose arguments pass but select the hardware-controller path is refused as such, and only such a one
(the order of the checks: log 13). That an argument register nothing has written is read as it stands is the model's
choice (log 4). -/
def Obligations.InitRefusesTheHardwarePath : Prop :=
  ∀ s : State, exec .init s = .refused .hardwarePath ↔
    busIdValid s.par s.arg.bus = true ∧ 0 < s.arg.baud.toInt ∧
      pinValid s.par s.arg.scl s.arg.sda = true ∧ busIsBitbang s.par s.arg.bus = false

/-- R120, R132: hp(b) for b ≥ 1 is max(1, q), q being K / b rounded down or to the nearest, on exact integers; it
is at least 1 and, for K ≥ 1, at most K, whatever b is. -/
def Obligations.HalfPeriodIsClampedQuotient : Prop :=
  Config.params.kScale = 500000 ∧ Config.params.hpRounding = .floor ∧
  ∀ (p : Params) (baud : Word), 0 < baud.toInt →
    (p.hpRounding = .floor → (halfPeriod p baud).toNat = max 1 (p.kScale.toNat / baud.toInt.toNat)) ∧
    (p.hpRounding = .nearest → (halfPeriod p baud).toNat =
      max 1 ((2 * p.kScale.toNat + baud.toInt.toNat) / (2 * baud.toInt.toNat))) ∧
    1 ≤ (halfPeriod p baud).toNat ∧ (halfPeriod p baud).toNat ≤ max 1 p.kScale.toNat ∧
    (p.kScale.toNat < baud.toInt.toNat → p.hpRounding = .floor → (halfPeriod p baud).toNat = 1)

/-! ### Admission and refusal -/

/-- R42: INIT and DEINIT are admitted in either CFG_STATE; every other command is refused unless the block is
CONFIGURED on a bit-bang bus, and is not refused for that reason when it is. -/
def Obligations.OnlyConfiguredBlockAdmitsCommands : Prop :=
  ∀ (i : Instr) (s : State),
    exec .init s ≠ .refused .notAdmitted ∧ exec .deinit s ≠ .refused .notAdmitted ∧
    (i ≠ .init → i ≠ .deinit →
      (exec i s = .refused .notAdmitted ↔
        ¬ (s.cfg.state = .configured ∧ busIsBitbang s.par s.cfg.busId = true)))

/-- R30, R43, R204: with LEN above BUF_MAX the four data commands are refused, and so are the two that send the buffer
when a byte of DBUF[0..LEN-1] holds no value. That a LEN nothing has written is read as it stands, where R43 has a model
refuse, is the model's choice (log 4). -/
def Obligations.DataCommandNeedsItsBuffer : Prop :=
  ∀ (a : Addr) (sub : SubAddr) (stop : Bool) (s : State), admitted s = true →
    (bufMax s.par < s.len.toNat →
      exec (.write stop a) s = .refused .lenTooLarge ∧ exec (.read a) s = .refused .lenTooLarge ∧
      exec (.writeMem a sub) s = .refused .lenTooLarge ∧ exec (.readMem a sub) s = .refused .lenTooLarge) ∧
    (∀ j, s.len.toNat ≤ bufMax s.par → j < s.len.toNat → dbufRead j s = none →
      exec (.write stop a) s = .refused .noValue ∧ exec (.writeMem a sub) s = .refused .noValue)

/-- R204: a command runs unless one of these holds: it is not admitted (R42), LEN is above BUF_MAX (R30), a byte of
DBUF that it sends holds no value (R43), or it is an INIT on the hardware-controller path (R180). That a register nothing
has written stops no command, where R43 and R204 have a model refuse, is the model's choice (log 4): the marks of R43
decide nothing. Nor does that choice reach further: a command whose registers have all been written does the same
whatever the unwritten ARG registers and LEN contain. Which ARG registers INIT reads is read from its pseudocode
(log 34). -/
def Obligations.CommandsRunUnlessRefused : Prop :=
  ∀ (i : Instr) (s : State),
    let len := s.len.toNat ≤ bufMax s.par
    let payload := ∀ j < s.len.toNat, dbufRead j s ≠ none
    ((∃ t, exec i s = .next t) ↔ match i with
      | .init => busIdValid s.par s.arg.bus = true → 0 < s.arg.baud.toInt →
          pinValid s.par s.arg.scl s.arg.sda = true → busIsBitbang s.par s.arg.bus = true
      | .deinit => True
      | .write _ _ => admitted s = true ∧ len ∧ payload
      | .writeMem _ _ => admitted s = true ∧ len ∧ payload
      | .read _ => admitted s = true ∧ len
      | .readMem _ _ => admitted s = true ∧ len
      | .scan => admitted s = true
      | .ping _ => admitted s = true
      | .start => admitted s = true
      | .stop => admitted s = true
      | .writeByte _ => admitted s = true
      | .readByte _ => admitted s = true
      | .driveLow _ => admitted s = true
      | .release _ => admitted s = true
      | .readLine _ => admitted s = true
      | .delay => admitted s = true) ∧
    (∀ h : Held, agreeUnder (fun t => { t with held := s.held }) (exec i { s with held := h }) (exec i s)) ∧
    (readsHeld i s = true → ∀ (arg : InitArgs) (len' : Word),
      (s.held.argBus = true → arg.bus = s.arg.bus) → (s.held.argBaud = true → arg.baud = s.arg.baud) →
      (s.held.argScl = true → arg.scl = s.arg.scl) → (s.held.argSda = true → arg.sda = s.arg.sda) →
      (s.held.len = true → len' = s.len) →
      agreeUnder (fun t => { t with arg := s.arg, len := s.len })
        (exec i { s with arg := arg, len := len' }) (exec i s))

/-- R126, R205: whether a command runs, and how it is refused, does not depend on the bus environment. -/
def Obligations.EnvironmentCannotStopACommand : Prop :=
  ∀ (i : Instr) (s : State) (d : Draws),
    ((∃ t, exec i s = .next t) → ∃ t, exec i { s with draws := d } = .next t) ∧
    (∀ r, exec i s = .refused r → exec i { s with draws := d } = .refused r) ∧
    (∀ f, exec i s ≠ .fault f)

/-! ### The line commands -/

/-- R110: DRIVE_LOW drives the line of its operand low, whatever it was, and writes RES_STATUS and nothing else. -/
def Obligations.DriveLowPullsItsLineLow : Prop :=
  ∀ (l : Line) (s : State), encode (.driveLow l) &&& 0xFEFFFFFF = 0xC0000000 ∧
    (admitted s = false → exec (.driveLow l) s = .refused .notAdmitted) ∧ (admitted s = true →
    ∃ t, exec (.driveLow l) s = .next t ∧ eventsOf t = eventsOf s ++ [.drive l .low, .complete .ok] ∧
      driveOf l t = .low ∧ (∀ m, m ≠ l → driveOf m t = driveOf m s) ∧ t.busOpen = s.busOpen ∧
      t.res = { s.res with status := .ok } ∧ t.scan = s.scan ∧ t.csActive = s.csActive ∧ t.busy = false ∧
      t.phase = .idle ∧ t.mpc = none ∧ AnswersTaken 0 s t ∧ Untouched s t ∧ ∀ j, dbufRead j t = dbufRead j s)

/-- R111: RELEASE stops driving the line of its operand, and writes RES_STATUS and nothing else. -/
def Obligations.ReleaseStopsDrivingItsLine : Prop :=
  ∀ (l : Line) (s : State), encode (.release l) &&& 0xFEFFFFFF = 0xC8000000 ∧
    (admitted s = false → exec (.release l) s = .refused .notAdmitted) ∧ (admitted s = true →
    ∃ t, exec (.release l) s = .next t ∧ eventsOf t = eventsOf s ++ [.drive l .released, .complete .ok] ∧
      driveOf l t = .released ∧ (∀ m, m ≠ l → driveOf m t = driveOf m s) ∧ t.busOpen = s.busOpen ∧
      t.res = { s.res with status := .ok } ∧ t.scan = s.scan ∧ t.csActive = s.csActive ∧ t.busy = false ∧
      t.phase = .idle ∧ t.mpc = none ∧ AnswersTaken 0 s t ∧ Untouched s t ∧ ∀ j, dbufRead j t = dbufRead j s)

/-- R24, R112: READ_LINE gives 0 when the master drives the line low and takes no answer, and else the bus
environment's next answer; it writes RES_LEVEL and RES_STATUS and nothing else. -/
def Obligations.ReadLineSamplesTheWiredAnd : Prop :=
  ∀ (l : Line) (s : State), encode (.readLine l) &&& 0xFEFFFFFF = 0xD0000000 ∧
    (admitted s = false → exec (.readLine l) s = .refused .notAdmitted) ∧ (admitted s = true →
    ∃ t, exec (.readLine l) s = .next t ∧
      t.res = { s.res with level := driveOf l s = .released && upcoming s 0, status := .ok } ∧
      AnswersTaken (if driveOf l s = .released then 1 else 0) s t ∧
      eventsOf t = eventsOf s ++ [.sample l t.res.level, .complete .ok] ∧
      t.drvScl = s.drvScl ∧ t.drvSda = s.drvSda ∧ t.busOpen = s.busOpen ∧ t.scan = s.scan ∧
      t.csActive = s.csActive ∧ t.busy = false ∧ t.phase = .idle ∧ t.mpc = none ∧ Untouched s t ∧
      ∀ j, dbufRead j t = dbufRead j s)

/-- R105, R113: DELAY waits one half-period outside any bracket, and writes RES_STATUS and nothing else. -/
def Obligations.DelayWaitsOneHalfPeriod : Prop :=
  encode .delay = 0xD8000000 ∧ ∀ s : State,
    (admitted s = false → exec .delay s = .refused .notAdmitted) ∧
    (admitted s = true → ∃ t, exec .delay s = .next t ∧
    eventsOf t = eventsOf s ++ [.wait s.cfg.halfPeriod, .complete .ok] ∧
      t.res = { s.res with status := .ok } ∧ t.drvScl = s.drvScl ∧ t.drvSda = s.drvSda ∧ t.busOpen = s.busOpen ∧
      t.scan = s.scan ∧ t.csActive = s.csActive ∧ t.busy = false ∧ t.phase = .idle ∧ t.mpc = none ∧
      AnswersTaken 0 s t ∧ Untouched s t ∧
      ∀ j, dbufRead j t = dbufRead j s)

/-- R104: a SAMPLE of a line the master drives low is 0 and takes no answer; of a released line it is the next
answer, which it takes. It writes no block state: its event joins the trace and MPC moves on. -/
def Obligations.SampleTakesAnAnswerOnlyFromAReleasedLine : Prop :=
  ∀ (l : Line) (s : State), let r := sample l s
    (driveOf l s = .low → r.1 = false ∧ r.2.draws = s.draws) ∧
    (driveOf l s = .released → r.1 = upcoming s 0 ∧ ∀ k, upcoming r.2 k = upcoming s (k + 1)) ∧
    eventsOf r.2 = eventsOf s ++ [.sample l r.1] ∧
    { r.2 with trace := s.trace, mpc := s.mpc, draws := s.draws } = s

/-! ### The engine commands -/

/-- R121, R127: START makes the start-condition in one bracket of three WAITs and opens the bus. -/
def Obligations.StartOpensTheBus : Prop :=
  encode .start = 0x80000000 ∧ ∀ s : State,
    (admitted s = false → exec .start s = .refused .notAdmitted) ∧ (admitted s = true → ∃ t, exec .start s = .next t ∧
      eventsOf t = eventsOf s ++ byteTraceEvents s.cfg.halfPeriod [.start] ++ [.complete .ok] ∧
      clockHighEdges s.drvScl s.drvSda (byteTraceEvents s.cfg.halfPeriod [.start]) =
        (if s.drvScl = .released ∧ s.drvSda = .low then [.stop, .start] else [.start]) ∧
      t.drvScl = .released ∧ t.drvSda = .low ∧ t.busOpen = true ∧ t.res = { s.res with status := .ok } ∧
      t.scan = s.scan ∧ t.Quiet ∧ AnswersTaken 0 s t ∧ Untouched s t ∧ ∀ j, dbufRead j t = dbufRead j s)

/-- R122, R128: STOP makes the stop-condition in one bracket of four WAITs, releases both lines and closes the
bus. -/
def Obligations.StopClosesTheBus : Prop :=
  encode .stop = 0x88000000 ∧ ∀ s : State,
    (admitted s = false → exec .stop s = .refused .notAdmitted) ∧ (admitted s = true → ∃ t, exec .stop s = .next t ∧
      eventsOf t = eventsOf s ++ byteTraceEvents s.cfg.halfPeriod [.stop] ++ [.complete .ok] ∧
      clockHighEdges s.drvScl s.drvSda (byteTraceEvents s.cfg.halfPeriod [.stop]) =
        (if s.drvScl = .released ∧ s.drvSda = .released then [.start, .stop] else [.stop]) ∧
      t.drvScl = .released ∧ t.drvSda = .released ∧ t.busOpen = false ∧ t.res = { s.res with status := .ok } ∧
      t.scan = s.scan ∧ t.Quiet ∧ AnswersTaken 0 s t ∧ Untouched s t ∧ ∀ j, dbufRead j t = dbufRead j s)

/-- R123, R129: WRITE_BYTE sends the eight bits of its byte, bit 7 first, samples the ninth clock with SDA released,
and writes RES_ACK = 1 exactly when the answer is 0; a NACK is no error. -/
def Obligations.WriteByteReportsTheAcknowledgment : Prop :=
  ∀ (v : Byte) (s : State), encode (.writeByte v) &&& 0xFFFFFF00 = 0x90000000 ∧
    (admitted s = false → exec (.writeByte v) s = .refused .notAdmitted) ∧ (admitted s = true →
    ∃ t, exec (.writeByte v) s = .next t ∧ t.res = { s.res with ack := !upcoming s 0, status := .ok } ∧
      eventsOf t = eventsOf s ++ byteTraceEvents s.cfg.halfPeriod [.wrote v (!upcoming s 0)] ++ [.complete .ok] ∧
      t.drvScl = .low ∧ t.drvSda = .released ∧ t.busOpen = s.busOpen ∧ t.scan = s.scan ∧ t.Quiet ∧
      AnswersTaken 1 s t ∧ Untouched s t ∧ ∀ j, dbufRead j t = dbufRead j s)

/-- R52, R124, R130: READ_BYTE assembles the next eight answers, the first one in bit 7, or zeros when the master
still drives SDA low on entry; it drives SDA low on the ninth clock exactly when N = 0. -/
def Obligations.ReadByteAssemblesEightSamples : Prop :=
  ∀ (nack : Bool) (s : State), encode (.readByte nack) &&& 0xFDFFFFFF = 0x98000000 ∧
    (admitted s = false → exec (.readByte nack) s = .refused .notAdmitted) ∧ (admitted s = true →
    ∃ (t : State) (v : Byte), exec (.readByte nack) s = .next t ∧ t.res = { s.res with byte := v, status := .ok } ∧
      (s.drvSda = .released → (∀ k < 8, v.getLsbD (7 - k) = upcoming s k) ∧ AnswersTaken 8 s t) ∧
      (s.drvSda = .low → v = 0 ∧ AnswersTaken 0 s t) ∧
      eventsOf t = eventsOf s ++ byteTraceEvents s.cfg.halfPeriod [.got v (!nack)] ++ [.complete .ok] ∧
      t.drvScl = .low ∧ t.drvSda = .released ∧ t.busOpen = s.busOpen ∧ t.scan = s.scan ∧ t.Quiet ∧
      Untouched s t ∧ ∀ j, dbufRead j t = dbufRead j s)

/-- R131: the line state after each engine sequence, with its brackets and WAITs. -/
def Obligations.SequencesLeaveTheirLineState : Prop :=
  ∀ (s : State) (v : Byte) (nack : Bool),
    (let t := startSeq s;
      t.drvScl = .released ∧ t.drvSda = .low ∧ t.busOpen = true ∧
      ∃ es, eventsOf t = eventsOf s ++ es ∧ bracketCount es = 1 ∧ waitCount es = 3) ∧
    (let t := stopSeq s;
      t.drvScl = .released ∧ t.drvSda = .released ∧ t.busOpen = false ∧
      ∃ es, eventsOf t = eventsOf s ++ es ∧ bracketCount es = 1 ∧ waitCount es = 4) ∧
    (let t := (writeByteSeq v s).2;
      t.drvScl = .low ∧ t.drvSda = .released ∧ t.busOpen = s.busOpen ∧
      ∃ es, eventsOf t = eventsOf s ++ es ∧ bracketCount es = 9 ∧ waitCount es = 19) ∧
    (let t := (readByteSeq nack s).2;
      t.drvScl = .low ∧ t.drvSda = .released ∧ t.busOpen = s.busOpen ∧
      ∃ es, eventsOf t = eventsOf s ++ es ∧ bracketCount es = 9 ∧ waitCount es = 19)

/-- R125: what each sequence does from each clean line state: the clean state it ends in, and the START and STOP
edges it makes while SCL is released. For a byte sequence from IDLE the model makes a choice (log 37): R125's cells say
that it ends HELD, a state with BUS_OPEN = 1, and R131 that it leaves BUS_OPEN unchanged, which is 0 there. The model
leaves BUS_OPEN 0, as R131 says, so that the lines alone are HELD's and the block is in no clean state: the statement
says HELD of the state with BUS_OPEN set to 1. The edges are those of the master's own drives (log 32). -/
def Obligations.SequencesKeepThePhysicalContract : Prop :=
  ∀ (s : State) (v : Byte) (nack : Bool) (l : LineState), lineState s = some l →
    (lineState (startSeq s) = some .started ∧ ∃ es, eventsOf (startSeq s) = eventsOf s ++ es ∧
      clockHighEdges s.drvScl s.drvSda es = if l = .started then [.stop, .start] else [.start]) ∧
    (lineState (stopSeq s) = some .idle ∧ ∃ es, eventsOf (stopSeq s) = eventsOf s ++ es ∧
      clockHighEdges s.drvScl s.drvSda es = if l = .idle then [.start, .stop] else [.stop]) ∧
    (lineState (setBusOpen true (writeByteSeq v s).2) = some .held ∧ (l ≠ .idle →
        lineState (writeByteSeq v s).2 = some .held) ∧
      ∃ es, eventsOf (writeByteSeq v s).2 = eventsOf s ++ es ∧ clockHighEdges s.drvScl s.drvSda es = []) ∧
    (lineState (setBusOpen true (readByteSeq nack s).2) = some .held ∧ (l ≠ .idle →
        lineState (readByteSeq nack s).2 = some .held) ∧
      (l = .started → (readByteSeq nack s).1 = 0) ∧
      ∃ es, eventsOf (readByteSeq nack s).2 = eventsOf s ++ es ∧ clockHighEdges s.drvScl s.drvSda es = [])

/-! ### The transactions

Where LEN is read, a premise says that the host has written it: there R43 lets the command run. That a LEN nothing has
written is read as it stands is log 4's choice, and `CommandsRunUnlessRefused` says what comes of it. -/

/-- R140: addr_byte(a, rw) is the address shifted left by one with the direction bit in bit 0, WRITE being 0 and
READ being 1. The two values are the spec's own general knowledge (log 28). -/
def Obligations.AddressByteIsAddressAndDirection : Prop :=
  (∀ a : Addr, (addrByte a rwWrite).toNat = 2 * a.toNat ∧ (addrByte a rwRead).toNat = 2 * a.toNat + 1) ∧
  addrByte 0x50 rwWrite = 0xA0 ∧ addrByte 0x50 rwRead = 0xA1 ∧ addrByte 0x7F rwRead = 0xFF

/-- R141: a sub-address up to 0xFF is one byte, a larger one two bytes, high byte first. -/
def Obligations.SubAddressBytesFollowItsMagnitude : Prop :=
  (∀ sub : SubAddr, (sub.toNat ≤ 0xFF → (subBytes sub).map (·.toNat) = [sub.toNat]) ∧
    (0xFF < sub.toNat → (subBytes sub).map (·.toNat) = [sub.toNat / 256, sub.toNat % 256])) ∧
  subBytes 0x00FF = [0xFF] ∧ subBytes 0x0100 = [0x01, 0x00] ∧ subBytes 0x0000 = [0x00]

/-- R142, R143, R150: WRITE sends START, the address byte and DBUF[0..LEN-1] in order, up to the first NACK. If
every byte is acknowledged it completes with OK and RES_COUNT = LEN, with a STOP exactly when S = 1 and the bus held
otherwise. At the first NACK it sends one STOP and ends with BusError. It never writes DBUF. -/
def Obligations.WriteSendsAddressAndPayload : Prop :=
  ∀ (sendStop : Bool) (a : Addr) (s : State) (bytes : List Byte),
    encode (.write sendStop a) &&& 0xFB80FFFF = 0x20000000 ∧
    (admitted s = true → s.held.len = true → s.len.toNat ≤ bufMax s.par → bytes.length = s.len.toNat →
      (∀ j < s.len.toNat, dbufRead j s = bytes[j]?) →
      let sent := addrByte a rwWrite :: bytes
      let ok := acked s 0 sent.length
      let hold := ok && !sendStop
      ∃ t, exec (.write sendStop a) s = .next t ∧
        eventsOf t = eventsOf s ++ byteTraceEvents s.cfg.halfPeriod
          (.start :: (sentTrace s 0 sent ++ if hold then [] else [.stop])) ++ [.complete (statusOf ok)] ∧
        t.res.status = statusOf ok ∧ (ok = true → t.res.count = s.len) ∧ t.busOpen = hold ∧
        t.drvScl = (if hold then .low else .released) ∧ t.drvSda = .released ∧ t.Quiet ∧
        t.res.ack = s.res.ack ∧ t.res.byte = s.res.byte ∧ t.res.level = s.res.level ∧ t.scan = s.scan ∧
        AnswersTaken (sentTrace s 0 sent).length s t ∧ Untouched s t ∧ ∀ j, dbufRead j t = dbufRead j s)

/-- R145: WRITE_MEM is WRITE with the sub-address bytes after the address byte, and it always ends with a STOP. -/
def Obligations.WriteMemSendsSubAddressFirst : Prop :=
  ∀ (a : Addr) (sub : SubAddr) (s : State) (bytes : List Byte),
    encode (.writeMem a sub) &&& 0xFF800000 = 0x30000000 ∧
    (admitted s = true → s.held.len = true → s.len.toNat ≤ bufMax s.par → bytes.length = s.len.toNat →
      (∀ j < s.len.toNat, dbufRead j s = bytes[j]?) →
      let sent := addrByte a rwWrite :: (subBytes sub ++ bytes)
      let ok := acked s 0 sent.length
      ∃ t, exec (.writeMem a sub) s = .next t ∧
        eventsOf t = eventsOf s ++ byteTraceEvents s.cfg.halfPeriod (.start :: (sentTrace s 0 sent ++ [.stop])) ++
          [.complete (statusOf ok)] ∧
        t.res.status = statusOf ok ∧ (ok = true → t.res.count = s.len) ∧ t.busOpen = false ∧
        t.drvScl = .released ∧ t.drvSda = .released ∧ t.Quiet ∧
        t.res.ack = s.res.ack ∧ t.res.byte = s.res.byte ∧ t.res.level = s.res.level ∧ t.scan = s.scan ∧
        AnswersTaken (sentTrace s 0 sent).length s t ∧ Untouched s t ∧ ∀ j, dbufRead j t = dbufRead j s)

/-- R144: READ sends START and the address byte, receives LEN bytes into DBUF[0..LEN-1] with a NACK on the last one
only, and ends with a STOP. A NACK of the address byte ends it with STOP and BusError. With LEN = 0 it uses the bus
or not as READ0_MODE says. Bytes of DBUF at LEN and above are not touched. -/
def Obligations.ReadFillsTheBuffer : Prop :=
  ∀ (a : Addr) (s : State), encode (.read a) &&& 0xFF80FFFF = 0x28000000 ∧
    (admitted s = true → s.held.len = true → s.len.toNat ≤ bufMax s.par →
      (s.len = 0 → s.par.read0Mode = .nobus → ∃ t, exec (.read a) s = .next t ∧
        eventsOf t = eventsOf s ++ [.complete .ok] ∧ t.res = { s.res with status := .ok, count := 0 } ∧
        t.drvScl = s.drvScl ∧ t.drvSda = s.drvSda ∧ t.busOpen = s.busOpen ∧ t.scan = s.scan ∧
        t.csActive = s.csActive ∧ t.busy = false ∧ t.phase = .idle ∧ t.mpc = none ∧ AnswersTaken 0 s t ∧ Untouched s t ∧
        ∀ j, dbufRead j t = dbufRead j s) ∧
      (¬ (s.len = 0 ∧ s.par.read0Mode = .nobus) →
        let ok := ackAt s 0
        ∃ t, exec (.read a) s = .next t ∧
          eventsOf t = eventsOf s ++ byteTraceEvents s.cfg.halfPeriod
            (.start :: .wrote (addrByte a rwRead) ok ::
              ((if ok then gotTrace s 1 s.len.toNat else []) ++ [.stop])) ++ [.complete (statusOf ok)] ∧
          t.res.status = statusOf ok ∧ (ok = true → t.res.count = s.len) ∧
          (ok = true → ∀ j < s.len.toNat, dbufRead j t = some (byteAt s (1 + 8 * j))) ∧
          (ok = false → ∀ j < s.len.toNat, dbufRead j t = some (Config.freeBits 8 (s.draws.freeCtr + j))) ∧
          (∀ j, s.len.toNat ≤ j → dbufRead j t = dbufRead j s) ∧
          t.busOpen = false ∧ t.drvScl = .released ∧ t.drvSda = .released ∧ t.Quiet ∧
          t.res.ack = s.res.ack ∧ t.res.byte = s.res.byte ∧ t.res.level = s.res.level ∧ t.scan = s.scan ∧
          AnswersTaken (1 + if ok then 8 * s.len.toNat else 0) s t ∧ Untouched s t))

/-- R146: READ_MEM with LEN = 0 touches neither the bus nor DBUF. Else it sends START, the address and sub-address
bytes and, with no STOP between, a repeated START and READ's body. A NACK of any byte sent ends it with one STOP and
BusError. -/
def Obligations.ReadMemRepeatsTheStart : Prop :=
  ∀ (a : Addr) (sub : SubAddr) (s : State), encode (.readMem a sub) &&& 0xFF800000 = 0x38000000 ∧
    (admitted s = true → s.held.len = true → s.len.toNat ≤ bufMax s.par →
      (s.len = 0 → ∃ t, exec (.readMem a sub) s = .next t ∧
        eventsOf t = eventsOf s ++ [.complete .ok] ∧ t.res = { s.res with status := .ok, count := 0 } ∧
        t.drvScl = s.drvScl ∧ t.drvSda = s.drvSda ∧ t.busOpen = s.busOpen ∧ t.scan = s.scan ∧
        t.csActive = s.csActive ∧ t.busy = false ∧ t.phase = .idle ∧ t.mpc = none ∧ AnswersTaken 0 s t ∧ Untouched s t ∧
        ∀ j, dbufRead j t = dbufRead j s) ∧
      (s.len ≠ 0 →
        let sent := addrByte a rwWrite :: subBytes sub
        let n := sent.length
        let ok := acked s 0 (n + 1)
        ∃ t, exec (.readMem a sub) s = .next t ∧
          eventsOf t = eventsOf s ++ byteTraceEvents s.cfg.halfPeriod
            (.start :: (sentTrace s 0 sent ++
              (if acked s 0 n then .start :: .wrote (addrByte a rwRead) (ackAt s n) ::
                (if ok then gotTrace s (n + 1) s.len.toNat else []) else []) ++ [.stop])) ++
            [.complete (statusOf ok)] ∧
          t.res.status = statusOf ok ∧ (ok = true → t.res.count = s.len) ∧
          (ok = true → ∀ j < s.len.toNat, dbufRead j t = some (byteAt s (n + 1 + 8 * j))) ∧
          (ok = false → ∀ j < s.len.toNat, dbufRead j t = some (Config.freeBits 8 (s.draws.freeCtr + j))) ∧
          (∀ j, s.len.toNat ≤ j → dbufRead j t = dbufRead j s) ∧
          t.busOpen = false ∧ t.drvScl = .released ∧ t.drvSda = .released ∧ t.Quiet ∧
          t.res.ack = s.res.ack ∧ t.res.byte = s.res.byte ∧ t.res.level = s.res.level ∧ t.scan = s.scan ∧
          AnswersTaken ((sentTrace s 0 sent).length +
            if acked s 0 n then 1 + (if ok then 8 * s.len.toNat else 0) else 0) s t ∧ Untouched s t))

/-- R150: when READ or READ_MEM ends with BusError, each byte of DBUF[0..LEN-1] is a free value, drawn for it alone,
and no other byte is touched. WRITE and WRITE_MEM leave DBUF as it was when they fail. -/
def Obligations.FailedReadLeavesFreeBytes : Prop :=
  ∀ (i : Instr) (a : Addr) (sub : SubAddr) (stop : Bool) (s t : State),
    exec i s = .next t → t.res.status = .busError →
    (i = .read a ∨ i = .readMem a sub →
      (∀ j < s.len.toNat, dbufRead j t = some (Config.freeBits 8 (s.draws.freeCtr + j))) ∧
      (∀ j, s.len.toNat ≤ j → dbufRead j t = dbufRead j s) ∧
      s.draws.freeCtr + s.len.toNat ≤ t.draws.freeCtr) ∧
    (i = .write stop a ∨ i = .writeMem a sub → ∀ j, dbufRead j t = dbufRead j s)

/-- R147: PING sends START, the address byte and STOP, reports the acknowledgment in RES_ACK, and never raises
BusError. -/
def Obligations.PingReportsTheAcknowledgment : Prop :=
  ∀ (a : Addr) (s : State), encode (.ping a) &&& 0xFF80FFFF = 0x40000000 ∧ (admitted s = true →
    ∃ t, exec (.ping a) s = .next t ∧ t.res = { s.res with ack := ackAt s 0, status := .ok } ∧
      eventsOf t = eventsOf s ++ byteTraceEvents s.cfg.halfPeriod
        [.start, .wrote (addrByte a rwWrite) (ackAt s 0), .stop] ++ [.complete .ok] ∧
      t.drvScl = .released ∧ t.drvSda = .released ∧ t.busOpen = false ∧ t.scan = s.scan ∧ t.Quiet ∧
      AnswersTaken 1 s t ∧ Untouched s t ∧ ∀ j, dbufRead j t = dbufRead j s)

/-- R170, R171, R172: SCAN probes every address from SCAN_FIRST to SCAN_END - 1, ascending, and lists exactly those
whose probe was acknowledged, in probe order. -/
def Obligations.ScanListsWhatAcknowledges : Prop :=
  encode .scan = 0x18000000 ∧ scanEndOf Config.params - scanFirst = 112 ∧ ∀ s : State, admitted s = true →
    let n := scanEndOf s.par - scanFirst
    let found := ((List.range n).filter (ackAt s)).map fun j => (BitVec.ofNat 7 (scanFirst + j) : Addr)
    ∃ t, exec .scan s = .next t ∧ t.scan.count.toNat = found.length ∧
      (∀ (k : Nat) (hk : k < 120), k < found.length → some t.scan.list[k] = found[k]?) ∧
      eventsOf t = eventsOf s ++ byteTraceEvents s.cfg.halfPeriod
        ((List.range n).flatMap fun j =>
          [.start, .wrote (addrByte (BitVec.ofNat 7 (scanFirst + j)) rwWrite) (ackAt s j), .stop]) ++
        [.complete .ok] ∧
      t.drvScl = .released ∧ t.drvSda = .released ∧ t.busOpen = false ∧ t.res = { s.res with status := .ok } ∧
      t.Quiet ∧ AnswersTaken n s t ∧ Untouched s t ∧ ∀ j, dbufRead j t = dbufRead j s

/-! ### The whole machine -/

/-- Every step keeps the invariant, from every state that has it, whatever the host does and the bus answers. That no
command is running between steps is so because one step is the whole of a command, which is the model's choice
(log 1). -/
def Obligations.EveryStepKeepsTheInvariant : Prop :=
  ∀ s t : State, s.Inv → step s = .next t → t.Inv

/-- The invariant holds right after reset, and at every choice of the OPEN parameters. -/
def Obligations.ResetHasTheInvariant : Prop :=
  State.reset.Inv ∧ ∀ p : Params, (State.resetWith p).Inv

/-- R21, R39, R40, R206: a command that completes, with or without an error, leaves no command running: BUSY 0,
CS_ACTIVE 0, PHASE IDLE and no sequencer position. -/
def Obligations.CompletedCommandLeavesTheBlockQuiet : Prop :=
  ∀ (i : Instr) (s t : State), s.csActive = false → exec i s = .next t → t.Quiet

/-- R200 to R203: which commands raise which error. -/
def Obligations.ErrorCodesHaveTheirRaisers : Prop :=
  ∀ (i : Instr) (s t : State), exec i s = .next t →
    (t.res.status = .busError → (∃ b a, i = .write b a) ∨ (∃ a, i = .read a) ∨ (∃ a u, i = .writeMem a u) ∨
      ∃ a u, i = .readMem a u) ∧
    (t.res.status = .invalidArgument → i = .init) ∧ (t.res.status = .resourceUnavailable → i = .init)

/-- R142, R206, R207: after BusError the bus is never left mid-transaction: BUS_OPEN is 0 and both lines are
released. -/
def Obligations.BusErrorLeavesTheBusClosed : Prop :=
  ∀ (i : Instr) (s t : State), exec i s = .next t → t.res.status = .busError →
    t.busOpen = false ∧ t.drvScl = .released ∧ t.drvSda = .released ∧
    ∃ es, eventsOf t = eventsOf s ++ es ++ byteTraceEvents s.cfg.halfPeriod [.stop] ++ [.complete .busError]

/-- R25 to R31, R44, R186: only INIT and DEINIT write a CFG_ register, and no command writes an ARG_ register, LEN,
CMD, the host's moves and reads, or a parameter. -/
def Obligations.CommandsKeepWhatTheHostOwns : Prop :=
  ∀ (i : Instr) (s t : State), exec i s = .next t →
    t.arg = s.arg ∧ t.len = s.len ∧ t.cmd = s.cmd ∧ t.par = s.par ∧ t.hostQ = s.hostQ ∧ t.hostSaw = s.hostSaw ∧
    (i ≠ .init → i ≠ .deinit → t.cfg = s.cfg)

/-- R50, R154: only READ and READ_MEM write DBUF, and only below LEN. -/
def Obligations.OnlyReadsWriteTheBuffer : Prop :=
  ∀ (i : Instr) (s t : State), exec i s = .next t →
    ((∀ a, i ≠ .read a) → (∀ a u, i ≠ .readMem a u) → ∀ j, dbufRead j t = dbufRead j s) ∧
    ∀ j, s.len.toNat ≤ j → dbufRead j t = dbufRead j s

/-- R33 to R37, R45: which commands write which result register; every other result keeps its value. -/
def Obligations.ResultRegistersHaveTheirWriters : Prop :=
  ∀ (i : Instr) (s t : State), exec i s = .next t →
    ((∀ v, i ≠ .writeByte v) → (∀ a, i ≠ .ping a) → t.res.ack = s.res.ack) ∧
    ((∀ n, i ≠ .readByte n) → t.res.byte = s.res.byte) ∧
    ((∀ l, i ≠ .readLine l) → t.res.level = s.res.level) ∧
    (i ≠ .scan → t.scan = s.scan) ∧
    ((∀ b a, i ≠ .write b a) → (∀ a, i ≠ .read a) → (∀ a u, i ≠ .writeMem a u) → (∀ a u, i ≠ .readMem a u) →
      t.res.count = s.res.count)

/-- R106, R109: a command adds to the trace its micro-operations and then Complete with its status, every event tagged
with its command; every CS_BEGIN among them has its CS_END, and brackets do not nest. That the tag is the word in CMD is
the model's choice (log 19): R109 says only that each event is tagged with the command it belongs to. -/
def Obligations.CommandsRecordBracketedMicroOperations : Prop :=
  ∀ (i : Instr) (s t : State), exec i s = .next t →
    ∃ es : List Event, t.trace = (TraceEntry.mk s.cmd (.complete t.res.status)) ::
        ((es.map (TraceEntry.mk s.cmd)).reverse ++ s.trace) ∧ bracketed false es = true

/-- R125, R142, R148, R149: from each clean line state, the edges that WRITE, READ, WRITE_MEM, READ_MEM, PING or SCAN
makes while SCL is released are its STARTs and STOPs and no other: one START, or two for READ_MEM, and then one STOP
unless WRITE leaves the bus held; for SCAN a START and a STOP at each probe; and from STARTED a STOP before all of
them. It ends IDLE or HELD, as BUS_OPEN says. A zero-length read that does not use the bus makes no edge and leaves
the lines alone. The edges are those of the master's own drives (log 32). -/
def Obligations.TransactionsKeepThePhysicalContract : Prop :=
  ∀ (i : Instr) (s t : State) (l : LineState),
    ((∃ b a, i = .write b a) ∨ (∃ a, i = .read a) ∨ (∃ a u, i = .writeMem a u) ∨ (∃ a u, i = .readMem a u) ∨
      (∃ a, i = .ping a) ∨ i = .scan) →
    lineState s = some l → exec i s = .next t →
    ∃ es, eventsOf t = eventsOf s ++ es ++ [.complete t.res.status] ∧
      ((es = [] ∧ lineState t = lineState s) ∨
        (lineState t = some (if t.busOpen then .held else .idle) ∧ (t.busOpen = true → ∃ a, i = .write false a) ∧
          ∃ k, 1 ≤ k ∧ k ≤ 2 ∧ ((∀ a u, i ≠ .readMem a u) → k = 1) ∧
            clockHighEdges s.drvScl s.drvSda es =
              (if l = .started then [Edge.stop] else []) ++
                if i = .scan then (List.replicate (scanEndOf s.par - scanFirst) [Edge.start, Edge.stop]).flatten
                else List.replicate k .start ++ if t.busOpen then [] else [.stop]))

/-- R125, R243, R245: from a clean line state, every step whose command is no hazard of R243 ends in a clean line
state, and every edge of SDA while SCL is released is one that a START or a STOP symbol of its byte-level trace makes,
each STOP ending an open transaction, with BUS_OPEN telling whether one is open at the end. INIT and DEINIT abandon
what is open: they end IDLE, with one STOP edge where SDA was low. That one step is the whole of a command is the
model's choice (log 1); that a transaction or SCAN from STARTED counts as a hazard is its reading (log 35). The edges are those of the master's
own drives (log 32). -/
def Obligations.EveryStepKeepsThePhysicalContract : Prop :=
  ∀ s t : State, lineState s ≠ none →
    (∀ w rest i, s.hostQ = .issue w :: rest → decode w = .ok i → protocolHazard i s = false) →
    step s = .next t → lineState t ≠ none ∧
      ((∃ before bs after, eventsOf t = eventsOf s ++ (before ++ byteTraceEvents s.cfg.halfPeriod bs ++ after) ∧
          (∀ e ∈ before ++ after, e.isDrive = false) ∧
          clockHighEdges s.drvScl s.drvSda (before ++ byteTraceEvents s.cfg.halfPeriod bs ++ after) =
            conditionsOf bs ∧
          openAfter s.busOpen (conditionsOf bs) = some t.busOpen) ∨
        ((∃ w rest, s.hostQ = .issue w :: rest ∧ (decode w = .ok .init ∨ decode w = .ok .deinit)) ∧
          lineState t = some .idle ∧ ∃ es, eventsOf t = eventsOf s ++ es ∧
            clockHighEdges s.drvScl s.drvSda es = if s.drvSda = .low then [.stop] else []))

/-- R247: the WAITs and brackets of each command that completes with OK. -/
def Obligations.CommandsWaitAsCounted : Prop :=
  ∀ (i : Instr) (s t : State), exec i s = .next t → t.res.status = .ok →
    ∃ es, eventsOf t = eventsOf s ++ es ++ [.complete .ok] ∧
      let n := s.len.toNat
      (waitCount es, bracketCount es) = match i with
        | .start => (3, 1)
        | .stop => (4, 1)
        | .writeByte _ => (19, 9)
        | .readByte _ => (19, 9)
        | .driveLow _ => (0, 0)
        | .release _ => (0, 0)
        | .readLine _ => (0, 0)
        | .delay => (1, 0)
        | .ping _ => (26, 11)
        | .write true _ => (3 + 19 * (1 + n) + 4, 2 + 9 * (1 + n))
        | .write false _ => (3 + 19 * (1 + n), 1 + 9 * (1 + n))
        | .read _ => if n = 0 ∧ s.par.read0Mode = .nobus then (0, 0)
            else (3 + 19 * (1 + n) + 4, 2 + 9 * (1 + n))
        | .writeMem _ u => (3 + 19 * (1 + (subBytes u).length + n) + 4, 2 + 9 * (1 + (subBytes u).length + n))
        | .readMem _ u => if n = 0 then (0, 0)
            else (3 + 19 * (1 + (subBytes u).length) + 3 + 19 * (1 + n) + 4, 3 + 9 * (2 + (subBytes u).length + n))
        | .scan => (26 * (scanEndOf s.par - scanFirst), 11 * (scanEndOf s.par - scanFirst))
        | .init => (0, 0)
        | .deinit => (0, 0)

/-- R66: instances share no state: a step of one instance is that instance's own step and leaves every other one
as it was. -/
def Obligations.InstancesShareNoState : Prop :=
  ∀ (n : Nat) (k : Fin n) (y : System n),
    (∀ t, step y[k] = .next t → ∃ z, System.stepAt k y = .next z ∧ z[k] = t ∧ ∀ j : Fin n, j ≠ k → z[j] = y[j]) ∧
    (∀ z, System.stepAt k y = .next z → step y[k] = .next z[k] ∧ ∀ j : Fin n, j ≠ k → z[j] = y[j])
end

