-- ==== Sys2Proof/Laws/State.lean ====
section
/-! SUPPORT. One lemma per field per update of State, so that no proof unfolds an update. -/

namespace Sys2Proof.Machine

/-! ### `setPhase` -/

@[simp] theorem setPhase_par (p : Phase) (s : State) : (setPhase p s).par = s.par := rfl
@[simp] theorem setPhase_drvScl (p : Phase) (s : State) : (setPhase p s).drvScl = s.drvScl := rfl
@[simp] theorem setPhase_drvSda (p : Phase) (s : State) : (setPhase p s).drvSda = s.drvSda := rfl
@[simp] theorem setPhase_cfg (p : Phase) (s : State) : (setPhase p s).cfg = s.cfg := rfl
@[simp] theorem setPhase_arg (p : Phase) (s : State) : (setPhase p s).arg = s.arg := rfl
@[simp] theorem setPhase_len (p : Phase) (s : State) : (setPhase p s).len = s.len := rfl
@[simp] theorem setPhase_cmd (p : Phase) (s : State) : (setPhase p s).cmd = s.cmd := rfl
@[simp] theorem setPhase_busy (p : Phase) (s : State) : (setPhase p s).busy = s.busy := rfl
@[simp] theorem setPhase_res (p : Phase) (s : State) : (setPhase p s).res = s.res := rfl
@[simp] theorem setPhase_scan (p : Phase) (s : State) : (setPhase p s).scan = s.scan := rfl
@[simp] theorem setPhase_busOpen (p : Phase) (s : State) : (setPhase p s).busOpen = s.busOpen := rfl
@[simp] theorem setPhase_csActive (p : Phase) (s : State) : (setPhase p s).csActive = s.csActive := rfl
@[simp] theorem setPhase_phase (p : Phase) (s : State) : (setPhase p s).phase = p := rfl
@[simp] theorem setPhase_work (p : Phase) (s : State) : (setPhase p s).work = s.work := rfl
@[simp] theorem setPhase_mpc (p : Phase) (s : State) : (setPhase p s).mpc = s.mpc := rfl
@[simp] theorem setPhase_dbuf (p : Phase) (s : State) : (setPhase p s).dbuf = s.dbuf := rfl
@[simp] theorem setPhase_held (p : Phase) (s : State) : (setPhase p s).held = s.held := rfl
@[simp] theorem setPhase_trace (p : Phase) (s : State) : (setPhase p s).trace = s.trace := rfl
@[simp] theorem setPhase_draws (p : Phase) (s : State) : (setPhase p s).draws = s.draws := rfl
@[simp] theorem setPhase_hostQ (p : Phase) (s : State) : (setPhase p s).hostQ = s.hostQ := rfl
@[simp] theorem setPhase_hostSaw (p : Phase) (s : State) : (setPhase p s).hostSaw = s.hostSaw := rfl

/-! ### `setBusOpen` -/

@[simp] theorem setBusOpen_par (b : Bool) (s : State) : (setBusOpen b s).par = s.par := rfl
@[simp] theorem setBusOpen_drvScl (b : Bool) (s : State) : (setBusOpen b s).drvScl = s.drvScl := rfl
@[simp] theorem setBusOpen_drvSda (b : Bool) (s : State) : (setBusOpen b s).drvSda = s.drvSda := rfl
@[simp] theorem setBusOpen_cfg (b : Bool) (s : State) : (setBusOpen b s).cfg = s.cfg := rfl
@[simp] theorem setBusOpen_arg (b : Bool) (s : State) : (setBusOpen b s).arg = s.arg := rfl
@[simp] theorem setBusOpen_len (b : Bool) (s : State) : (setBusOpen b s).len = s.len := rfl
@[simp] theorem setBusOpen_cmd (b : Bool) (s : State) : (setBusOpen b s).cmd = s.cmd := rfl
@[simp] theorem setBusOpen_busy (b : Bool) (s : State) : (setBusOpen b s).busy = s.busy := rfl
@[simp] theorem setBusOpen_res (b : Bool) (s : State) : (setBusOpen b s).res = s.res := rfl
@[simp] theorem setBusOpen_scan (b : Bool) (s : State) : (setBusOpen b s).scan = s.scan := rfl
@[simp] theorem setBusOpen_busOpen (b : Bool) (s : State) : (setBusOpen b s).busOpen = b := rfl
@[simp] theorem setBusOpen_csActive (b : Bool) (s : State) : (setBusOpen b s).csActive = s.csActive := rfl
@[simp] theorem setBusOpen_phase (b : Bool) (s : State) : (setBusOpen b s).phase = s.phase := rfl
@[simp] theorem setBusOpen_work (b : Bool) (s : State) : (setBusOpen b s).work = s.work := rfl
@[simp] theorem setBusOpen_mpc (b : Bool) (s : State) : (setBusOpen b s).mpc = s.mpc := rfl
@[simp] theorem setBusOpen_dbuf (b : Bool) (s : State) : (setBusOpen b s).dbuf = s.dbuf := rfl
@[simp] theorem setBusOpen_held (b : Bool) (s : State) : (setBusOpen b s).held = s.held := rfl
@[simp] theorem setBusOpen_trace (b : Bool) (s : State) : (setBusOpen b s).trace = s.trace := rfl
@[simp] theorem setBusOpen_draws (b : Bool) (s : State) : (setBusOpen b s).draws = s.draws := rfl
@[simp] theorem setBusOpen_hostQ (b : Bool) (s : State) : (setBusOpen b s).hostQ = s.hostQ := rfl
@[simp] theorem setBusOpen_hostSaw (b : Bool) (s : State) : (setBusOpen b s).hostSaw = s.hostSaw := rfl

/-! ### `setCfgState` -/

@[simp] theorem setCfgState_par (c : CfgState) (s : State) : (setCfgState c s).par = s.par := rfl
@[simp] theorem setCfgState_drvScl (c : CfgState) (s : State) : (setCfgState c s).drvScl = s.drvScl := rfl
@[simp] theorem setCfgState_drvSda (c : CfgState) (s : State) : (setCfgState c s).drvSda = s.drvSda := rfl
@[simp] theorem setCfgState_cfg (c : CfgState) (s : State) :
    (setCfgState c s).cfg = { s.cfg with state := c } := rfl
@[simp] theorem setCfgState_arg (c : CfgState) (s : State) : (setCfgState c s).arg = s.arg := rfl
@[simp] theorem setCfgState_len (c : CfgState) (s : State) : (setCfgState c s).len = s.len := rfl
@[simp] theorem setCfgState_cmd (c : CfgState) (s : State) : (setCfgState c s).cmd = s.cmd := rfl
@[simp] theorem setCfgState_busy (c : CfgState) (s : State) : (setCfgState c s).busy = s.busy := rfl
@[simp] theorem setCfgState_res (c : CfgState) (s : State) : (setCfgState c s).res = s.res := rfl
@[simp] theorem setCfgState_scan (c : CfgState) (s : State) : (setCfgState c s).scan = s.scan := rfl
@[simp] theorem setCfgState_busOpen (c : CfgState) (s : State) : (setCfgState c s).busOpen = s.busOpen := rfl
@[simp] theorem setCfgState_csActive (c : CfgState) (s : State) : (setCfgState c s).csActive = s.csActive := rfl
@[simp] theorem setCfgState_phase (c : CfgState) (s : State) : (setCfgState c s).phase = s.phase := rfl
@[simp] theorem setCfgState_work (c : CfgState) (s : State) : (setCfgState c s).work = s.work := rfl
@[simp] theorem setCfgState_mpc (c : CfgState) (s : State) : (setCfgState c s).mpc = s.mpc := rfl
@[simp] theorem setCfgState_dbuf (c : CfgState) (s : State) : (setCfgState c s).dbuf = s.dbuf := rfl
@[simp] theorem setCfgState_held (c : CfgState) (s : State) : (setCfgState c s).held = s.held := rfl
@[simp] theorem setCfgState_trace (c : CfgState) (s : State) : (setCfgState c s).trace = s.trace := rfl
@[simp] theorem setCfgState_draws (c : CfgState) (s : State) : (setCfgState c s).draws = s.draws := rfl
@[simp] theorem setCfgState_hostQ (c : CfgState) (s : State) : (setCfgState c s).hostQ = s.hostQ := rfl
@[simp] theorem setCfgState_hostSaw (c : CfgState) (s : State) : (setCfgState c s).hostSaw = s.hostSaw := rfl

/-! ### `setAck` -/

@[simp] theorem setAck_par (b : Bool) (s : State) : (setAck b s).par = s.par := rfl
@[simp] theorem setAck_drvScl (b : Bool) (s : State) : (setAck b s).drvScl = s.drvScl := rfl
@[simp] theorem setAck_drvSda (b : Bool) (s : State) : (setAck b s).drvSda = s.drvSda := rfl
@[simp] theorem setAck_cfg (b : Bool) (s : State) : (setAck b s).cfg = s.cfg := rfl
@[simp] theorem setAck_arg (b : Bool) (s : State) : (setAck b s).arg = s.arg := rfl
@[simp] theorem setAck_len (b : Bool) (s : State) : (setAck b s).len = s.len := rfl
@[simp] theorem setAck_cmd (b : Bool) (s : State) : (setAck b s).cmd = s.cmd := rfl
@[simp] theorem setAck_busy (b : Bool) (s : State) : (setAck b s).busy = s.busy := rfl
@[simp] theorem setAck_res (b : Bool) (s : State) : (setAck b s).res = { s.res with ack := b } := rfl
@[simp] theorem setAck_scan (b : Bool) (s : State) : (setAck b s).scan = s.scan := rfl
@[simp] theorem setAck_busOpen (b : Bool) (s : State) : (setAck b s).busOpen = s.busOpen := rfl
@[simp] theorem setAck_csActive (b : Bool) (s : State) : (setAck b s).csActive = s.csActive := rfl
@[simp] theorem setAck_phase (b : Bool) (s : State) : (setAck b s).phase = s.phase := rfl
@[simp] theorem setAck_work (b : Bool) (s : State) : (setAck b s).work = s.work := rfl
@[simp] theorem setAck_mpc (b : Bool) (s : State) : (setAck b s).mpc = s.mpc := rfl
@[simp] theorem setAck_dbuf (b : Bool) (s : State) : (setAck b s).dbuf = s.dbuf := rfl
@[simp] theorem setAck_held (b : Bool) (s : State) : (setAck b s).held = { s.held with ack := true } := rfl
@[simp] theorem setAck_trace (b : Bool) (s : State) : (setAck b s).trace = s.trace := rfl
@[simp] theorem setAck_draws (b : Bool) (s : State) : (setAck b s).draws = s.draws := rfl
@[simp] theorem setAck_hostQ (b : Bool) (s : State) : (setAck b s).hostQ = s.hostQ := rfl
@[simp] theorem setAck_hostSaw (b : Bool) (s : State) : (setAck b s).hostSaw = s.hostSaw := rfl

/-! ### `setLevel` -/

@[simp] theorem setLevel_par (b : Bool) (s : State) : (setLevel b s).par = s.par := rfl
@[simp] theorem setLevel_drvScl (b : Bool) (s : State) : (setLevel b s).drvScl = s.drvScl := rfl
@[simp] theorem setLevel_drvSda (b : Bool) (s : State) : (setLevel b s).drvSda = s.drvSda := rfl
@[simp] theorem setLevel_cfg (b : Bool) (s : State) : (setLevel b s).cfg = s.cfg := rfl
@[simp] theorem setLevel_arg (b : Bool) (s : State) : (setLevel b s).arg = s.arg := rfl
@[simp] theorem setLevel_len (b : Bool) (s : State) : (setLevel b s).len = s.len := rfl
@[simp] theorem setLevel_cmd (b : Bool) (s : State) : (setLevel b s).cmd = s.cmd := rfl
@[simp] theorem setLevel_busy (b : Bool) (s : State) : (setLevel b s).busy = s.busy := rfl
@[simp] theorem setLevel_res (b : Bool) (s : State) : (setLevel b s).res = { s.res with level := b } := rfl
@[simp] theorem setLevel_scan (b : Bool) (s : State) : (setLevel b s).scan = s.scan := rfl
@[simp] theorem setLevel_busOpen (b : Bool) (s : State) : (setLevel b s).busOpen = s.busOpen := rfl
@[simp] theorem setLevel_csActive (b : Bool) (s : State) : (setLevel b s).csActive = s.csActive := rfl
@[simp] theorem setLevel_phase (b : Bool) (s : State) : (setLevel b s).phase = s.phase := rfl
@[simp] theorem setLevel_work (b : Bool) (s : State) : (setLevel b s).work = s.work := rfl
@[simp] theorem setLevel_mpc (b : Bool) (s : State) : (setLevel b s).mpc = s.mpc := rfl
@[simp] theorem setLevel_dbuf (b : Bool) (s : State) : (setLevel b s).dbuf = s.dbuf := rfl
@[simp] theorem setLevel_held (b : Bool) (s : State) : (setLevel b s).held = { s.held with level := true } := rfl
@[simp] theorem setLevel_trace (b : Bool) (s : State) : (setLevel b s).trace = s.trace := rfl
@[simp] theorem setLevel_draws (b : Bool) (s : State) : (setLevel b s).draws = s.draws := rfl
@[simp] theorem setLevel_hostQ (b : Bool) (s : State) : (setLevel b s).hostQ = s.hostQ := rfl
@[simp] theorem setLevel_hostSaw (b : Bool) (s : State) : (setLevel b s).hostSaw = s.hostSaw := rfl

/-! ### `setByte` -/

@[simp] theorem setByte_par (v : Byte) (s : State) : (setByte v s).par = s.par := rfl
@[simp] theorem setByte_drvScl (v : Byte) (s : State) : (setByte v s).drvScl = s.drvScl := rfl
@[simp] theorem setByte_drvSda (v : Byte) (s : State) : (setByte v s).drvSda = s.drvSda := rfl
@[simp] theorem setByte_cfg (v : Byte) (s : State) : (setByte v s).cfg = s.cfg := rfl
@[simp] theorem setByte_arg (v : Byte) (s : State) : (setByte v s).arg = s.arg := rfl
@[simp] theorem setByte_len (v : Byte) (s : State) : (setByte v s).len = s.len := rfl
@[simp] theorem setByte_cmd (v : Byte) (s : State) : (setByte v s).cmd = s.cmd := rfl
@[simp] theorem setByte_busy (v : Byte) (s : State) : (setByte v s).busy = s.busy := rfl
@[simp] theorem setByte_res (v : Byte) (s : State) : (setByte v s).res = { s.res with byte := v } := rfl
@[simp] theorem setByte_scan (v : Byte) (s : State) : (setByte v s).scan = s.scan := rfl
@[simp] theorem setByte_busOpen (v : Byte) (s : State) : (setByte v s).busOpen = s.busOpen := rfl
@[simp] theorem setByte_csActive (v : Byte) (s : State) : (setByte v s).csActive = s.csActive := rfl
@[simp] theorem setByte_phase (v : Byte) (s : State) : (setByte v s).phase = s.phase := rfl
@[simp] theorem setByte_work (v : Byte) (s : State) : (setByte v s).work = s.work := rfl
@[simp] theorem setByte_mpc (v : Byte) (s : State) : (setByte v s).mpc = s.mpc := rfl
@[simp] theorem setByte_dbuf (v : Byte) (s : State) : (setByte v s).dbuf = s.dbuf := rfl
@[simp] theorem setByte_held (v : Byte) (s : State) : (setByte v s).held = { s.held with byte := true } := rfl
@[simp] theorem setByte_trace (v : Byte) (s : State) : (setByte v s).trace = s.trace := rfl
@[simp] theorem setByte_draws (v : Byte) (s : State) : (setByte v s).draws = s.draws := rfl
@[simp] theorem setByte_hostQ (v : Byte) (s : State) : (setByte v s).hostQ = s.hostQ := rfl
@[simp] theorem setByte_hostSaw (v : Byte) (s : State) : (setByte v s).hostSaw = s.hostSaw := rfl

/-! ### `setCount` -/

@[simp] theorem setCount_par (n : Word) (s : State) : (setCount n s).par = s.par := rfl
@[simp] theorem setCount_drvScl (n : Word) (s : State) : (setCount n s).drvScl = s.drvScl := rfl
@[simp] theorem setCount_drvSda (n : Word) (s : State) : (setCount n s).drvSda = s.drvSda := rfl
@[simp] theorem setCount_cfg (n : Word) (s : State) : (setCount n s).cfg = s.cfg := rfl
@[simp] theorem setCount_arg (n : Word) (s : State) : (setCount n s).arg = s.arg := rfl
@[simp] theorem setCount_len (n : Word) (s : State) : (setCount n s).len = s.len := rfl
@[simp] theorem setCount_cmd (n : Word) (s : State) : (setCount n s).cmd = s.cmd := rfl
@[simp] theorem setCount_busy (n : Word) (s : State) : (setCount n s).busy = s.busy := rfl
@[simp] theorem setCount_res (n : Word) (s : State) : (setCount n s).res = { s.res with count := n } := rfl
@[simp] theorem setCount_scan (n : Word) (s : State) : (setCount n s).scan = s.scan := rfl
@[simp] theorem setCount_busOpen (n : Word) (s : State) : (setCount n s).busOpen = s.busOpen := rfl
@[simp] theorem setCount_csActive (n : Word) (s : State) : (setCount n s).csActive = s.csActive := rfl
@[simp] theorem setCount_phase (n : Word) (s : State) : (setCount n s).phase = s.phase := rfl
@[simp] theorem setCount_work (n : Word) (s : State) : (setCount n s).work = s.work := rfl
@[simp] theorem setCount_mpc (n : Word) (s : State) : (setCount n s).mpc = s.mpc := rfl
@[simp] theorem setCount_dbuf (n : Word) (s : State) : (setCount n s).dbuf = s.dbuf := rfl
@[simp] theorem setCount_held (n : Word) (s : State) : (setCount n s).held = { s.held with count := true } := rfl
@[simp] theorem setCount_trace (n : Word) (s : State) : (setCount n s).trace = s.trace := rfl
@[simp] theorem setCount_draws (n : Word) (s : State) : (setCount n s).draws = s.draws := rfl
@[simp] theorem setCount_hostQ (n : Word) (s : State) : (setCount n s).hostQ = s.hostQ := rfl
@[simp] theorem setCount_hostSaw (n : Word) (s : State) : (setCount n s).hostSaw = s.hostSaw := rfl

/-! ### `dbufWrite` -/

@[simp] theorem dbufWrite_par (i : Nat) (v : Byte) (s : State) : (dbufWrite i v s).par = s.par := rfl
@[simp] theorem dbufWrite_drvScl (i : Nat) (v : Byte) (s : State) : (dbufWrite i v s).drvScl = s.drvScl := rfl
@[simp] theorem dbufWrite_drvSda (i : Nat) (v : Byte) (s : State) : (dbufWrite i v s).drvSda = s.drvSda := rfl
@[simp] theorem dbufWrite_cfg (i : Nat) (v : Byte) (s : State) : (dbufWrite i v s).cfg = s.cfg := rfl
@[simp] theorem dbufWrite_arg (i : Nat) (v : Byte) (s : State) : (dbufWrite i v s).arg = s.arg := rfl
@[simp] theorem dbufWrite_len (i : Nat) (v : Byte) (s : State) : (dbufWrite i v s).len = s.len := rfl
@[simp] theorem dbufWrite_cmd (i : Nat) (v : Byte) (s : State) : (dbufWrite i v s).cmd = s.cmd := rfl
@[simp] theorem dbufWrite_busy (i : Nat) (v : Byte) (s : State) : (dbufWrite i v s).busy = s.busy := rfl
@[simp] theorem dbufWrite_res (i : Nat) (v : Byte) (s : State) : (dbufWrite i v s).res = s.res := rfl
@[simp] theorem dbufWrite_scan (i : Nat) (v : Byte) (s : State) : (dbufWrite i v s).scan = s.scan := rfl
@[simp] theorem dbufWrite_busOpen (i : Nat) (v : Byte) (s : State) : (dbufWrite i v s).busOpen = s.busOpen := rfl
@[simp] theorem dbufWrite_csActive (i : Nat) (v : Byte) (s : State) :
    (dbufWrite i v s).csActive = s.csActive := rfl
@[simp] theorem dbufWrite_phase (i : Nat) (v : Byte) (s : State) : (dbufWrite i v s).phase = s.phase := rfl
@[simp] theorem dbufWrite_work (i : Nat) (v : Byte) (s : State) : (dbufWrite i v s).work = s.work := rfl
@[simp] theorem dbufWrite_mpc (i : Nat) (v : Byte) (s : State) : (dbufWrite i v s).mpc = s.mpc := rfl
@[simp] theorem dbufWrite_dbuf (i : Nat) (v : Byte) (s : State) :
    (dbufWrite i v s).dbuf = Memory.write i v s.dbuf := rfl
@[simp] theorem dbufWrite_held (i : Nat) (v : Byte) (s : State) : (dbufWrite i v s).held = s.held := rfl
@[simp] theorem dbufWrite_trace (i : Nat) (v : Byte) (s : State) : (dbufWrite i v s).trace = s.trace := rfl
@[simp] theorem dbufWrite_draws (i : Nat) (v : Byte) (s : State) : (dbufWrite i v s).draws = s.draws := rfl
@[simp] theorem dbufWrite_hostQ (i : Nat) (v : Byte) (s : State) : (dbufWrite i v s).hostQ = s.hostQ := rfl
@[simp] theorem dbufWrite_hostSaw (i : Nat) (v : Byte) (s : State) : (dbufWrite i v s).hostSaw = s.hostSaw := rfl

/-! ### `skipFree` -/

@[simp] theorem skipFree_par (n : Nat) (s : State) : (skipFree n s).par = s.par := rfl
@[simp] theorem skipFree_drvScl (n : Nat) (s : State) : (skipFree n s).drvScl = s.drvScl := rfl
@[simp] theorem skipFree_drvSda (n : Nat) (s : State) : (skipFree n s).drvSda = s.drvSda := rfl
@[simp] theorem skipFree_cfg (n : Nat) (s : State) : (skipFree n s).cfg = s.cfg := rfl
@[simp] theorem skipFree_arg (n : Nat) (s : State) : (skipFree n s).arg = s.arg := rfl
@[simp] theorem skipFree_len (n : Nat) (s : State) : (skipFree n s).len = s.len := rfl
@[simp] theorem skipFree_cmd (n : Nat) (s : State) : (skipFree n s).cmd = s.cmd := rfl
@[simp] theorem skipFree_busy (n : Nat) (s : State) : (skipFree n s).busy = s.busy := rfl
@[simp] theorem skipFree_res (n : Nat) (s : State) : (skipFree n s).res = s.res := rfl
@[simp] theorem skipFree_scan (n : Nat) (s : State) : (skipFree n s).scan = s.scan := rfl
@[simp] theorem skipFree_busOpen (n : Nat) (s : State) : (skipFree n s).busOpen = s.busOpen := rfl
@[simp] theorem skipFree_csActive (n : Nat) (s : State) : (skipFree n s).csActive = s.csActive := rfl
@[simp] theorem skipFree_phase (n : Nat) (s : State) : (skipFree n s).phase = s.phase := rfl
@[simp] theorem skipFree_work (n : Nat) (s : State) : (skipFree n s).work = s.work := rfl
@[simp] theorem skipFree_mpc (n : Nat) (s : State) : (skipFree n s).mpc = s.mpc := rfl
@[simp] theorem skipFree_dbuf (n : Nat) (s : State) : (skipFree n s).dbuf = s.dbuf := rfl
@[simp] theorem skipFree_held (n : Nat) (s : State) : (skipFree n s).held = s.held := rfl
@[simp] theorem skipFree_trace (n : Nat) (s : State) : (skipFree n s).trace = s.trace := rfl
@[simp] theorem skipFree_draws (n : Nat) (s : State) :
    (skipFree n s).draws = { s.draws with freeCtr := s.draws.freeCtr + n } := rfl
@[simp] theorem skipFree_hostQ (n : Nat) (s : State) : (skipFree n s).hostQ = s.hostQ := rfl
@[simp] theorem skipFree_hostSaw (n : Nat) (s : State) : (skipFree n s).hostSaw = s.hostSaw := rfl

/-! ### `record` -/

@[simp] theorem record_par (e : Event) (s : State) : (record e s).par = s.par := rfl
@[simp] theorem record_drvScl (e : Event) (s : State) : (record e s).drvScl = s.drvScl := rfl
@[simp] theorem record_drvSda (e : Event) (s : State) : (record e s).drvSda = s.drvSda := rfl
@[simp] theorem record_cfg (e : Event) (s : State) : (record e s).cfg = s.cfg := rfl
@[simp] theorem record_arg (e : Event) (s : State) : (record e s).arg = s.arg := rfl
@[simp] theorem record_len (e : Event) (s : State) : (record e s).len = s.len := rfl
@[simp] theorem record_cmd (e : Event) (s : State) : (record e s).cmd = s.cmd := rfl
@[simp] theorem record_busy (e : Event) (s : State) : (record e s).busy = s.busy := rfl
@[simp] theorem record_res (e : Event) (s : State) : (record e s).res = s.res := rfl
@[simp] theorem record_scan (e : Event) (s : State) : (record e s).scan = s.scan := rfl
@[simp] theorem record_busOpen (e : Event) (s : State) : (record e s).busOpen = s.busOpen := rfl
@[simp] theorem record_csActive (e : Event) (s : State) : (record e s).csActive = s.csActive := rfl
@[simp] theorem record_phase (e : Event) (s : State) : (record e s).phase = s.phase := rfl
@[simp] theorem record_work (e : Event) (s : State) : (record e s).work = s.work := rfl
@[simp] theorem record_mpc (e : Event) (s : State) : (record e s).mpc = s.mpc := rfl
@[simp] theorem record_dbuf (e : Event) (s : State) : (record e s).dbuf = s.dbuf := rfl
@[simp] theorem record_held (e : Event) (s : State) : (record e s).held = s.held := rfl
@[simp] theorem record_trace (e : Event) (s : State) :
    (record e s).trace = { cmd := s.cmd, event := e } :: s.trace := rfl
@[simp] theorem record_draws (e : Event) (s : State) : (record e s).draws = s.draws := rfl
@[simp] theorem record_hostQ (e : Event) (s : State) : (record e s).hostQ = s.hostQ := rfl
@[simp] theorem record_hostSaw (e : Event) (s : State) : (record e s).hostSaw = s.hostSaw := rfl

/-! ### `setShift` -/

@[simp] theorem setShift_par (v : Byte) (s : State) : (setShift v s).par = s.par := rfl
@[simp] theorem setShift_drvScl (v : Byte) (s : State) : (setShift v s).drvScl = s.drvScl := rfl
@[simp] theorem setShift_drvSda (v : Byte) (s : State) : (setShift v s).drvSda = s.drvSda := rfl
@[simp] theorem setShift_cfg (v : Byte) (s : State) : (setShift v s).cfg = s.cfg := rfl
@[simp] theorem setShift_arg (v : Byte) (s : State) : (setShift v s).arg = s.arg := rfl
@[simp] theorem setShift_len (v : Byte) (s : State) : (setShift v s).len = s.len := rfl
@[simp] theorem setShift_cmd (v : Byte) (s : State) : (setShift v s).cmd = s.cmd := rfl
@[simp] theorem setShift_busy (v : Byte) (s : State) : (setShift v s).busy = s.busy := rfl
@[simp] theorem setShift_res (v : Byte) (s : State) : (setShift v s).res = s.res := rfl
@[simp] theorem setShift_scan (v : Byte) (s : State) : (setShift v s).scan = s.scan := rfl
@[simp] theorem setShift_busOpen (v : Byte) (s : State) : (setShift v s).busOpen = s.busOpen := rfl
@[simp] theorem setShift_csActive (v : Byte) (s : State) : (setShift v s).csActive = s.csActive := rfl
@[simp] theorem setShift_phase (v : Byte) (s : State) : (setShift v s).phase = s.phase := rfl
@[simp] theorem setShift_work (v : Byte) (s : State) : (setShift v s).work = { s.work with shift := v } := rfl
@[simp] theorem setShift_mpc (v : Byte) (s : State) : (setShift v s).mpc = s.mpc := rfl
@[simp] theorem setShift_dbuf (v : Byte) (s : State) : (setShift v s).dbuf = s.dbuf := rfl
@[simp] theorem setShift_held (v : Byte) (s : State) : (setShift v s).held = s.held := rfl
@[simp] theorem setShift_trace (v : Byte) (s : State) : (setShift v s).trace = s.trace := rfl
@[simp] theorem setShift_draws (v : Byte) (s : State) : (setShift v s).draws = s.draws := rfl
@[simp] theorem setShift_hostQ (v : Byte) (s : State) : (setShift v s).hostQ = s.hostQ := rfl
@[simp] theorem setShift_hostSaw (v : Byte) (s : State) : (setShift v s).hostSaw = s.hostSaw := rfl

/-! ### `setBitcnt` -/

@[simp] theorem setBitcnt_par (n : BitVec 4) (s : State) : (setBitcnt n s).par = s.par := rfl
@[simp] theorem setBitcnt_drvScl (n : BitVec 4) (s : State) : (setBitcnt n s).drvScl = s.drvScl := rfl
@[simp] theorem setBitcnt_drvSda (n : BitVec 4) (s : State) : (setBitcnt n s).drvSda = s.drvSda := rfl
@[simp] theorem setBitcnt_cfg (n : BitVec 4) (s : State) : (setBitcnt n s).cfg = s.cfg := rfl
@[simp] theorem setBitcnt_arg (n : BitVec 4) (s : State) : (setBitcnt n s).arg = s.arg := rfl
@[simp] theorem setBitcnt_len (n : BitVec 4) (s : State) : (setBitcnt n s).len = s.len := rfl
@[simp] theorem setBitcnt_cmd (n : BitVec 4) (s : State) : (setBitcnt n s).cmd = s.cmd := rfl
@[simp] theorem setBitcnt_busy (n : BitVec 4) (s : State) : (setBitcnt n s).busy = s.busy := rfl
@[simp] theorem setBitcnt_res (n : BitVec 4) (s : State) : (setBitcnt n s).res = s.res := rfl
@[simp] theorem setBitcnt_scan (n : BitVec 4) (s : State) : (setBitcnt n s).scan = s.scan := rfl
@[simp] theorem setBitcnt_busOpen (n : BitVec 4) (s : State) : (setBitcnt n s).busOpen = s.busOpen := rfl
@[simp] theorem setBitcnt_csActive (n : BitVec 4) (s : State) : (setBitcnt n s).csActive = s.csActive := rfl
@[simp] theorem setBitcnt_phase (n : BitVec 4) (s : State) : (setBitcnt n s).phase = s.phase := rfl
@[simp] theorem setBitcnt_work (n : BitVec 4) (s : State) :
    (setBitcnt n s).work = { s.work with bitcnt := n } := rfl
@[simp] theorem setBitcnt_mpc (n : BitVec 4) (s : State) : (setBitcnt n s).mpc = s.mpc := rfl
@[simp] theorem setBitcnt_dbuf (n : BitVec 4) (s : State) : (setBitcnt n s).dbuf = s.dbuf := rfl
@[simp] theorem setBitcnt_held (n : BitVec 4) (s : State) : (setBitcnt n s).held = s.held := rfl
@[simp] theorem setBitcnt_trace (n : BitVec 4) (s : State) : (setBitcnt n s).trace = s.trace := rfl
@[simp] theorem setBitcnt_draws (n : BitVec 4) (s : State) : (setBitcnt n s).draws = s.draws := rfl
@[simp] theorem setBitcnt_hostQ (n : BitVec 4) (s : State) : (setBitcnt n s).hostQ = s.hostQ := rfl
@[simp] theorem setBitcnt_hostSaw (n : BitVec 4) (s : State) : (setBitcnt n s).hostSaw = s.hostSaw := rfl

/-! ### `setIndex` -/

@[simp] theorem setIndex_par (n : Nat) (s : State) : (setIndex n s).par = s.par := rfl
@[simp] theorem setIndex_drvScl (n : Nat) (s : State) : (setIndex n s).drvScl = s.drvScl := rfl
@[simp] theorem setIndex_drvSda (n : Nat) (s : State) : (setIndex n s).drvSda = s.drvSda := rfl
@[simp] theorem setIndex_cfg (n : Nat) (s : State) : (setIndex n s).cfg = s.cfg := rfl
@[simp] theorem setIndex_arg (n : Nat) (s : State) : (setIndex n s).arg = s.arg := rfl
@[simp] theorem setIndex_len (n : Nat) (s : State) : (setIndex n s).len = s.len := rfl
@[simp] theorem setIndex_cmd (n : Nat) (s : State) : (setIndex n s).cmd = s.cmd := rfl
@[simp] theorem setIndex_busy (n : Nat) (s : State) : (setIndex n s).busy = s.busy := rfl
@[simp] theorem setIndex_res (n : Nat) (s : State) : (setIndex n s).res = s.res := rfl
@[simp] theorem setIndex_scan (n : Nat) (s : State) : (setIndex n s).scan = s.scan := rfl
@[simp] theorem setIndex_busOpen (n : Nat) (s : State) : (setIndex n s).busOpen = s.busOpen := rfl
@[simp] theorem setIndex_csActive (n : Nat) (s : State) : (setIndex n s).csActive = s.csActive := rfl
@[simp] theorem setIndex_phase (n : Nat) (s : State) : (setIndex n s).phase = s.phase := rfl
@[simp] theorem setIndex_work (n : Nat) (s : State) :
    (setIndex n s).work = { s.work with index := BitVec.ofNat 32 n } := rfl
@[simp] theorem setIndex_mpc (n : Nat) (s : State) : (setIndex n s).mpc = s.mpc := rfl
@[simp] theorem setIndex_dbuf (n : Nat) (s : State) : (setIndex n s).dbuf = s.dbuf := rfl
@[simp] theorem setIndex_held (n : Nat) (s : State) : (setIndex n s).held = s.held := rfl
@[simp] theorem setIndex_trace (n : Nat) (s : State) : (setIndex n s).trace = s.trace := rfl
@[simp] theorem setIndex_draws (n : Nat) (s : State) : (setIndex n s).draws = s.draws := rfl
@[simp] theorem setIndex_hostQ (n : Nat) (s : State) : (setIndex n s).hostQ = s.hostQ := rfl
@[simp] theorem setIndex_hostSaw (n : Nat) (s : State) : (setIndex n s).hostSaw = s.hostSaw := rfl

/-! ### `finish` -/

@[simp] theorem finish_par (st : Status) (s : State) : (finish st s).par = s.par := rfl
@[simp] theorem finish_drvScl (st : Status) (s : State) : (finish st s).drvScl = s.drvScl := rfl
@[simp] theorem finish_drvSda (st : Status) (s : State) : (finish st s).drvSda = s.drvSda := rfl
@[simp] theorem finish_cfg (st : Status) (s : State) : (finish st s).cfg = s.cfg := rfl
@[simp] theorem finish_arg (st : Status) (s : State) : (finish st s).arg = s.arg := rfl
@[simp] theorem finish_len (st : Status) (s : State) : (finish st s).len = s.len := rfl
@[simp] theorem finish_cmd (st : Status) (s : State) : (finish st s).cmd = s.cmd := rfl
@[simp] theorem finish_busy (st : Status) (s : State) : (finish st s).busy = false := rfl
@[simp] theorem finish_res (st : Status) (s : State) : (finish st s).res = { s.res with status := st } := rfl
@[simp] theorem finish_scan (st : Status) (s : State) : (finish st s).scan = s.scan := rfl
@[simp] theorem finish_busOpen (st : Status) (s : State) : (finish st s).busOpen = s.busOpen := rfl
@[simp] theorem finish_csActive (st : Status) (s : State) : (finish st s).csActive = s.csActive := rfl
@[simp] theorem finish_phase (st : Status) (s : State) : (finish st s).phase = .idle := rfl
@[simp] theorem finish_work (st : Status) (s : State) :
    (finish st s).work = {
      shift := Config.freeBits 8 s.draws.freeCtr
      bitcnt := Config.freeBits 4 (s.draws.freeCtr + 1)
      index := Config.freeBits 32 (s.draws.freeCtr + 2) } := rfl
@[simp] theorem finish_mpc (st : Status) (s : State) : (finish st s).mpc = none := rfl
@[simp] theorem finish_dbuf (st : Status) (s : State) : (finish st s).dbuf = s.dbuf := rfl
@[simp] theorem finish_held (st : Status) (s : State) : (finish st s).held = { s.held with status := true } := rfl
@[simp] theorem finish_trace (st : Status) (s : State) :
    (finish st s).trace = { cmd := s.cmd, event := .complete st } :: s.trace := rfl
@[simp] theorem finish_draws (st : Status) (s : State) :
    (finish st s).draws = { s.draws with freeCtr := s.draws.freeCtr + 3 } := rfl
@[simp] theorem finish_hostQ (st : Status) (s : State) : (finish st s).hostQ = s.hostQ := rfl
@[simp] theorem finish_hostSaw (st : Status) (s : State) : (finish st s).hostSaw = s.hostSaw := rfl

/-! ### `clearScan` -/

@[simp] theorem clearScan_par (s : State) : (clearScan s).par = s.par := rfl
@[simp] theorem clearScan_drvScl (s : State) : (clearScan s).drvScl = s.drvScl := rfl
@[simp] theorem clearScan_drvSda (s : State) : (clearScan s).drvSda = s.drvSda := rfl
@[simp] theorem clearScan_cfg (s : State) : (clearScan s).cfg = s.cfg := rfl
@[simp] theorem clearScan_arg (s : State) : (clearScan s).arg = s.arg := rfl
@[simp] theorem clearScan_len (s : State) : (clearScan s).len = s.len := rfl
@[simp] theorem clearScan_cmd (s : State) : (clearScan s).cmd = s.cmd := rfl
@[simp] theorem clearScan_busy (s : State) : (clearScan s).busy = s.busy := rfl
@[simp] theorem clearScan_res (s : State) : (clearScan s).res = s.res := rfl
@[simp] theorem clearScan_scan (s : State) : (clearScan s).scan = { s.scan with count := 0 } := rfl
@[simp] theorem clearScan_busOpen (s : State) : (clearScan s).busOpen = s.busOpen := rfl
@[simp] theorem clearScan_csActive (s : State) : (clearScan s).csActive = s.csActive := rfl
@[simp] theorem clearScan_phase (s : State) : (clearScan s).phase = s.phase := rfl
@[simp] theorem clearScan_work (s : State) : (clearScan s).work = s.work := rfl
@[simp] theorem clearScan_mpc (s : State) : (clearScan s).mpc = s.mpc := rfl
@[simp] theorem clearScan_dbuf (s : State) : (clearScan s).dbuf = s.dbuf := rfl
@[simp] theorem clearScan_held (s : State) : (clearScan s).held = { s.held with scan := true } := rfl
@[simp] theorem clearScan_trace (s : State) : (clearScan s).trace = s.trace := rfl
@[simp] theorem clearScan_draws (s : State) : (clearScan s).draws = s.draws := rfl
@[simp] theorem clearScan_hostQ (s : State) : (clearScan s).hostQ = s.hostQ := rfl
@[simp] theorem clearScan_hostSaw (s : State) : (clearScan s).hostSaw = s.hostSaw := rfl

/-! ### `listAddr` -/

@[simp] theorem listAddr_par (a : Addr) (s : State) : (listAddr a s).par = s.par := rfl
@[simp] theorem listAddr_drvScl (a : Addr) (s : State) : (listAddr a s).drvScl = s.drvScl := rfl
@[simp] theorem listAddr_drvSda (a : Addr) (s : State) : (listAddr a s).drvSda = s.drvSda := rfl
@[simp] theorem listAddr_cfg (a : Addr) (s : State) : (listAddr a s).cfg = s.cfg := rfl
@[simp] theorem listAddr_arg (a : Addr) (s : State) : (listAddr a s).arg = s.arg := rfl
@[simp] theorem listAddr_len (a : Addr) (s : State) : (listAddr a s).len = s.len := rfl
@[simp] theorem listAddr_cmd (a : Addr) (s : State) : (listAddr a s).cmd = s.cmd := rfl
@[simp] theorem listAddr_busy (a : Addr) (s : State) : (listAddr a s).busy = s.busy := rfl
@[simp] theorem listAddr_res (a : Addr) (s : State) : (listAddr a s).res = s.res := rfl
@[simp] theorem listAddr_scan (a : Addr) (s : State) :
    (listAddr a s).scan = { count := s.scan.count + 1, list := s.scan.list.setIfInBounds s.scan.count.toNat a } := rfl
@[simp] theorem listAddr_busOpen (a : Addr) (s : State) : (listAddr a s).busOpen = s.busOpen := rfl
@[simp] theorem listAddr_csActive (a : Addr) (s : State) : (listAddr a s).csActive = s.csActive := rfl
@[simp] theorem listAddr_phase (a : Addr) (s : State) : (listAddr a s).phase = s.phase := rfl
@[simp] theorem listAddr_work (a : Addr) (s : State) : (listAddr a s).work = s.work := rfl
@[simp] theorem listAddr_mpc (a : Addr) (s : State) : (listAddr a s).mpc = s.mpc := rfl
@[simp] theorem listAddr_dbuf (a : Addr) (s : State) : (listAddr a s).dbuf = s.dbuf := rfl
@[simp] theorem listAddr_held (a : Addr) (s : State) : (listAddr a s).held = s.held := rfl
@[simp] theorem listAddr_trace (a : Addr) (s : State) : (listAddr a s).trace = s.trace := rfl
@[simp] theorem listAddr_draws (a : Addr) (s : State) : (listAddr a s).draws = s.draws := rfl
@[simp] theorem listAddr_hostQ (a : Addr) (s : State) : (listAddr a s).hostQ = s.hostQ := rfl
@[simp] theorem listAddr_hostSaw (a : Addr) (s : State) : (listAddr a s).hostSaw = s.hostSaw := rfl

/-! ### `forgetScanTail` -/

@[simp] theorem forgetScanTail_par (s : State) : (forgetScanTail s).par = s.par := by simp [forgetScanTail]
@[simp] theorem forgetScanTail_drvScl (s : State) : (forgetScanTail s).drvScl = s.drvScl := by simp [forgetScanTail]
@[simp] theorem forgetScanTail_drvSda (s : State) : (forgetScanTail s).drvSda = s.drvSda := by simp [forgetScanTail]
@[simp] theorem forgetScanTail_cfg (s : State) : (forgetScanTail s).cfg = s.cfg := by simp [forgetScanTail]
@[simp] theorem forgetScanTail_arg (s : State) : (forgetScanTail s).arg = s.arg := by simp [forgetScanTail]
@[simp] theorem forgetScanTail_len (s : State) : (forgetScanTail s).len = s.len := by simp [forgetScanTail]
@[simp] theorem forgetScanTail_cmd (s : State) : (forgetScanTail s).cmd = s.cmd := by simp [forgetScanTail]
@[simp] theorem forgetScanTail_busy (s : State) : (forgetScanTail s).busy = s.busy := by simp [forgetScanTail]
@[simp] theorem forgetScanTail_res (s : State) : (forgetScanTail s).res = s.res := by simp [forgetScanTail]
@[simp] theorem forgetScanTail_scan (s : State) :
    (forgetScanTail s).scan = { s.scan with list := Vector.ofFn fun k =>
      if k.val < s.scan.count.toNat then s.scan.list[k] else Config.freeBits 7 (s.draws.freeCtr + k.val) } := by
  simp [forgetScanTail]
@[simp] theorem forgetScanTail_busOpen (s : State) : (forgetScanTail s).busOpen = s.busOpen := by simp [forgetScanTail]
@[simp] theorem forgetScanTail_csActive (s : State) : (forgetScanTail s).csActive = s.csActive := by
  simp [forgetScanTail]
@[simp] theorem forgetScanTail_phase (s : State) : (forgetScanTail s).phase = s.phase := by simp [forgetScanTail]
@[simp] theorem forgetScanTail_work (s : State) : (forgetScanTail s).work = s.work := by simp [forgetScanTail]
@[simp] theorem forgetScanTail_mpc (s : State) : (forgetScanTail s).mpc = s.mpc := by simp [forgetScanTail]
@[simp] theorem forgetScanTail_dbuf (s : State) : (forgetScanTail s).dbuf = s.dbuf := by simp [forgetScanTail]
@[simp] theorem forgetScanTail_held (s : State) : (forgetScanTail s).held = s.held := by simp [forgetScanTail]
@[simp] theorem forgetScanTail_trace (s : State) : (forgetScanTail s).trace = s.trace := by simp [forgetScanTail]
@[simp] theorem forgetScanTail_draws (s : State) :
    (forgetScanTail s).draws = { s.draws with freeCtr := s.draws.freeCtr + 120 } := by simp [forgetScanTail]
@[simp] theorem forgetScanTail_hostQ (s : State) : (forgetScanTail s).hostQ = s.hostQ := by simp [forgetScanTail]
@[simp] theorem forgetScanTail_hostSaw (s : State) : (forgetScanTail s).hostSaw = s.hostSaw := by simp [forgetScanTail]

end Sys2Proof.Machine
end

