-- ==== Sys2Proof/Laws/Effect.lean ====
section
/-! SUPPORT. What the sequences, the transactions and the scanner do, each as one equation: every one of them is an
`effect`, and effects compose. -/

namespace Sys2Proof.Machine

/-- What a run of micro-operations leaves: the events it adds, the answers it takes, and the fields it writes. -/
structure Effect where
  events : List Event
  draws  : Nat
  scl    : Drive
  sda    : Drive
  busOpen : Bool
  phase  : Phase
  work   : Work
  dbuf   : Memory

/-- n answers of the bus environment taken. -/
def takeDraws (n : Nat) (s : State) : State :=
  { s with draws := { s.draws with
      env := s.draws.env.drop n
      envCtr := s.draws.envCtr + (n - s.draws.env.length) } }

/-- The state an effect leaves; no bracket is open in it. -/
def effect (e : Effect) (s : State) : State :=
  { s with
    drvScl := e.scl
    drvSda := e.sda
    busOpen := e.busOpen
    csActive := false
    phase := e.phase
    work := e.work
    dbuf := e.dbuf
    trace := (e.events.map (TraceEntry.mk s.cmd)).reverse ++ s.trace
    mpc := s.mpc.map fun p => { p with k := p.k + e.events.length }
    draws := (takeDraws e.draws s).draws }

/-! ### `effect` -/

@[simp] theorem effect_par (e : Effect) (s : State) : (effect e s).par = s.par := rfl
@[simp] theorem effect_drvScl (e : Effect) (s : State) : (effect e s).drvScl = e.scl := rfl
@[simp] theorem effect_drvSda (e : Effect) (s : State) : (effect e s).drvSda = e.sda := rfl
@[simp] theorem effect_cfg (e : Effect) (s : State) : (effect e s).cfg = s.cfg := rfl
@[simp] theorem effect_arg (e : Effect) (s : State) : (effect e s).arg = s.arg := rfl
@[simp] theorem effect_len (e : Effect) (s : State) : (effect e s).len = s.len := rfl
@[simp] theorem effect_cmd (e : Effect) (s : State) : (effect e s).cmd = s.cmd := rfl
@[simp] theorem effect_busy (e : Effect) (s : State) : (effect e s).busy = s.busy := rfl
@[simp] theorem effect_res (e : Effect) (s : State) : (effect e s).res = s.res := rfl
@[simp] theorem effect_scan (e : Effect) (s : State) : (effect e s).scan = s.scan := rfl
@[simp] theorem effect_busOpen (e : Effect) (s : State) : (effect e s).busOpen = e.busOpen := rfl
@[simp] theorem effect_csActive (e : Effect) (s : State) : (effect e s).csActive = false := rfl
@[simp] theorem effect_phase (e : Effect) (s : State) : (effect e s).phase = e.phase := rfl
@[simp] theorem effect_work (e : Effect) (s : State) : (effect e s).work = e.work := rfl
@[simp] theorem effect_mpc (e : Effect) (s : State) :
    (effect e s).mpc = s.mpc.map fun p => { p with k := p.k + e.events.length } := rfl
@[simp] theorem effect_dbuf (e : Effect) (s : State) : (effect e s).dbuf = e.dbuf := rfl
@[simp] theorem effect_held (e : Effect) (s : State) : (effect e s).held = s.held := rfl
@[simp] theorem effect_trace (e : Effect) (s : State) :
    (effect e s).trace = (e.events.map (TraceEntry.mk s.cmd)).reverse ++ s.trace := rfl
@[simp] theorem effect_draws (e : Effect) (s : State) : (effect e s).draws = (takeDraws e.draws s).draws := rfl
@[simp] theorem effect_hostQ (e : Effect) (s : State) : (effect e s).hostQ = s.hostQ := rfl
@[simp] theorem effect_hostSaw (e : Effect) (s : State) : (effect e s).hostSaw = s.hostSaw := rfl

/-! ### Answers of the environment -/

theorem envDraw_eq (s : State) : envDraw s = (upcoming s 0, takeDraws 1 s) := by
  unfold envDraw upcoming takeDraws
  cases h : s.draws.env <;> simp [h]

@[simp] theorem upcoming_takeDraws (n k : Nat) (s : State) : upcoming (takeDraws n s) k = upcoming s (n + k) := by
  unfold upcoming takeDraws
  simp only [List.length_drop]
  by_cases h : n + k < s.draws.env.length
  · have : k < s.draws.env.length - n := by omega
    simp [h, this]
  · have h' : ¬ k < s.draws.env.length - n := by omega
    simp only [h, h', if_false]
    congr 1
    omega

theorem upcoming_congr {s t : State} (h : t.draws = s.draws) (k : Nat) : upcoming t k = upcoming s k := by
  simp [upcoming, h]

@[simp] theorem upcoming_effect (e : Effect) (s : State) (k : Nat) :
    upcoming (effect e s) k = upcoming s (e.draws + k) := by
  rw [upcoming_congr (effect_draws e s), upcoming_takeDraws]

/-- An effect takes its answers (R24, R104). -/
theorem AnswersTaken.effect {e : Effect} {n : Nat} (h : e.draws = n) (s : State) :
    AnswersTaken n s (effect e s) :=
  ⟨by subst h; rfl, fun k => by rw [upcoming_effect, h]⟩

/-- What the answers to come depend on. -/
theorem AnswersTaken.congr {n : Nat} {s t u : State} (h : AnswersTaken n s t) (he : u.draws.env = t.draws.env)
    (hc : u.draws.envCtr = t.draws.envCtr) : AnswersTaken n s u :=
  ⟨he.trans h.listed, fun k => by rw [← h.later, upcoming, upcoming, he, hc]⟩

/-- Nothing taken. -/
theorem AnswersTaken.refl (s : State) : AnswersTaken 0 s s := ⟨rfl, fun k => by rw [Nat.zero_add]⟩

/-! ### Effects compose -/

/-- One effect after another. -/
def Effect.seq (e f : Effect) : Effect :=
  { f with events := e.events ++ f.events, draws := e.draws + f.draws }

theorem effect_effect (e f : Effect) (s : State) : effect f (effect e s) = effect (e.seq f) s := by
  have hd : (takeDraws f.draws (effect e s)).draws = (takeDraws (e.draws + f.draws) s).draws := by
    simp only [takeDraws, effect, List.drop_drop, List.length_drop, Draws.mk.injEq, true_and, and_true]
    omega
  have hm : ((s.mpc.map fun p => { p with k := p.k + e.events.length }).map
      fun p : Mpc => { p with k := p.k + f.events.length }) =
      s.mpc.map fun p => { p with k := p.k + (e.events ++ f.events).length } := by
    cases s.mpc <;> simp [Nat.add_assoc]
  unfold effect Effect.seq at *
  simp only [hd, hm, List.map_append, List.reverse_append, List.append_assoc]

/-! ### Writes that an effect takes in or overwrites -/

@[simp] theorem effect_setPhase (e : Effect) (p : Phase) (s : State) : effect e (setPhase p s) = effect e s := rfl
@[simp] theorem effect_setBusOpen (e : Effect) (b : Bool) (s : State) : effect e (setBusOpen b s) = effect e s := rfl
@[simp] theorem effect_setShift (e : Effect) (v : Byte) (s : State) : effect e (setShift v s) = effect e s := rfl
@[simp] theorem effect_setBitcnt (e : Effect) (n : BitVec 4) (s : State) :
    effect e (setBitcnt n s) = effect e s := rfl
@[simp] theorem effect_setIndex (e : Effect) (n : Nat) (s : State) : effect e (setIndex n s) = effect e s := rfl
@[simp] theorem effect_dbufWrite (e : Effect) (i : Nat) (v : Byte) (s : State) :
    effect e (dbufWrite i v s) = effect e s := rfl
@[simp] theorem setPhase_effect (e : Effect) (p : Phase) (s : State) :
    setPhase p (effect e s) = effect { e with phase := p } s := rfl
@[simp] theorem setBitcnt_effect (e : Effect) (n : BitVec 4) (s : State) :
    setBitcnt n (effect e s) = effect { e with work := { e.work with bitcnt := n } } s := rfl
@[simp] theorem setIndex_effect (e : Effect) (n : Nat) (s : State) :
    setIndex n (effect e s) = effect { e with work := { e.work with index := BitVec.ofNat 32 n } } s := rfl
@[simp] theorem dbufWrite_effect (e : Effect) (i : Nat) (v : Byte) (s : State) :
    dbufWrite i v (effect e s) = effect { e with dbuf := Memory.write i v e.dbuf } s := rfl

theorem upcoming_setPhase (p : Phase) (s : State) (k : Nat) : upcoming (setPhase p s) k = upcoming s k := rfl
theorem upcoming_setIndex (n : Nat) (s : State) (k : Nat) : upcoming (setIndex n s) k = upcoming s k := rfl

end Sys2Proof.Machine
end

