-- ==== Sys2Proof/Laws/Engine.lean ====
section
/-! SUPPORT. The four sequences of the transfer engine, each as one effect (R121 to R124, R131). -/

namespace Sys2Proof.Machine

@[simp] theorem takeDraws_zero (s : State) : takeDraws 0 s = s := by simp [takeDraws]

theorem sample_released {l : Line} {s : State} (h : driveOf l s = .released) :
    sample l s = (upcoming s 0, micro (.sample l (upcoming s 0)) (takeDraws 1 s)) := by
  simp [sample, sampleBit, h, envDraw_eq]

theorem sample_low {l : Line} {s : State} (h : driveOf l s = .low) :
    sample l s = (false, micro (.sample l false) s) := by
  simp [sample, sampleBit, h]

/-- A SAMPLE takes answers and records its event; it does nothing else (R104). -/
theorem sample_snd (l : Line) (s : State) :
    ∃ n, (sample l s).2 = micro (.sample l (sample l s).1) (takeDraws n s) := by
  cases hd : driveOf l s
  · exact ⟨0, by simp [sample_low hd]⟩
  · exact ⟨1, by simp [sample_released hd]⟩

/-- START_SEQ (R121). -/
theorem startSeq_eq (s : State) : startSeq s = effect {
    events := startEvents s.cfg.halfPeriod, draws := 0, scl := .released, sda := .low, busOpen := true,
    phase := .start, work := s.work, dbuf := s.dbuf } s := by
  cases h : s.mpc <;> simp [startSeq, effect, startEvents, csBegin, csEnd, release, driveLow, drive, setDrive, wait,
    micro, record, setPhase, setBusOpen, h]

/-- STOP_SEQ (R122). -/
theorem stopSeq_eq (s : State) : stopSeq s = effect {
    events := stopEvents s.cfg.halfPeriod, draws := 0, scl := .released, sda := .released, busOpen := false,
    phase := .idle, work := s.work, dbuf := s.dbuf } s := by
  cases h : s.mpc <;> simp [stopSeq, effect, stopEvents, csBegin, csEnd, release, driveLow, drive, setDrive, wait,
    micro, record, setPhase, setBusOpen, h]

/-- One data bit of WRITE_BYTE_SEQ (R123). -/
theorem sendBit_eq (b : Bool) (s : State) : sendBit b s = effect {
    events := sendBitEvents s.cfg.halfPeriod b, draws := 0, scl := .released, sda := driveOfBit b,
    busOpen := s.busOpen, phase := s.phase, work := s.work, dbuf := s.dbuf } s := by
  cases h : s.mpc <;> simp [sendBit, effect, sendBitEvents, csBegin, csEnd, release, driveLow, setSda, driveOfBit,
    drive, setDrive, wait, micro, record, h]

/-- The data bits of a byte (R123). -/
theorem sendBits_eq (bs : List Bool) (b : Bool) (s : State) : sendBits (bs ++ [b]) s = effect {
    events := (bs ++ [b]).flatMap (sendBitEvents s.cfg.halfPeriod), draws := 0, scl := .released,
    sda := driveOfBit b, busOpen := s.busOpen, phase := s.phase, work := s.work, dbuf := s.dbuf } s := by
  induction bs generalizing s with
  | nil => simp [sendBits, sendBit_eq]
  | cons c cs ih => simp [sendBits, sendBit_eq, ih, effect_effect, Effect.seq]

theorem upcoming_prefix (d : Drive) (s : State) :
    upcoming (wait (release .scl (wait (drive .sda d (driveLow .scl (csBegin s)))))) 0 = upcoming s 0 := by
  apply upcoming_congr
  simp [wait, release, driveLow, drive, setDrive, csBegin, micro]

theorem upcoming_receive (s : State) :
    upcoming (wait (release .scl (wait (driveLow .scl (csBegin s))))) 0 = upcoming s 0 := by
  apply upcoming_congr
  simp [wait, release, driveLow, drive, setDrive, csBegin, micro]

/-- The ninth clock of WRITE_BYTE_SEQ (R123): SDA is released, so the answer is the environment's. -/
theorem ackClock_eq (s : State) : ackClock s = (ackAt s 0, effect {
    events := ackEvents s.cfg.halfPeriod (ackAt s 0), draws := 1, scl := .low, sda := .released,
    busOpen := s.busOpen, phase := s.phase, work := s.work, dbuf := s.dbuf } s) := by
  have hd : driveOf .sda (wait (release .scl (wait (release .sda (driveLow .scl (csBegin s)))))) = .released := by
    simp [wait, release, driveLow, drive, setDrive, csBegin, micro, driveOf]
  simp only [ackClock, sample_released hd]
  rw [show release .sda (driveLow .scl (csBegin s)) = drive .sda .released (driveLow .scl (csBegin s)) from rfl,
    upcoming_prefix]
  cases h : s.mpc <;> simp [effect, ackEvents, ackAt, ackOfSample, csBegin, csEnd, release, driveLow, drive,
    setDrive, wait, micro, record, takeDraws, h]

/-- WRITE_BYTE_SEQ (R123). -/
theorem writeByteSeq_eq (v : Byte) (s : State) : writeByteSeq v s = (ackAt s 0, effect {
    events := (ByteEvent.wrote v (ackAt s 0)).events s.cfg.halfPeriod, draws := 1, scl := .low, sda := .released,
    busOpen := s.busOpen, phase := s.phase, work := s.work, dbuf := s.dbuf } s) := by
  have h := sendBits_eq [v.getLsbD 7, v.getLsbD 6, v.getLsbD 5, v.getLsbD 4, v.getLsbD 3, v.getLsbD 2, v.getLsbD 1]
    (v.getLsbD 0) s
  have hb : bitsMsbFirst v = [v.getLsbD 7, v.getLsbD 6, v.getLsbD 5, v.getLsbD 4, v.getLsbD 3, v.getLsbD 2,
    v.getLsbD 1] ++ [v.getLsbD 0] := rfl
  rw [writeByteSeq, hb, h, ackClock_eq]
  simp [effect_effect, Effect.seq, ackAt, ByteEvent.events, hb]

/-- The bit a data bracket of READ_BYTE_SEQ reads: 0 while the master drives SDA low, else an answer (R104, R124). -/
def heard (s : State) (k : Nat) : Bool := if s.drvSda = .low then false else upcoming s k

/-- The answers n data brackets of READ_BYTE_SEQ take (R104). -/
def heardDraws (s : State) (n : Nat) : Nat := if s.drvSda = .low then 0 else n

theorem heard_effect (e : Effect) (s : State) (m j : Nat) (hs : e.sda = s.drvSda) (hd : e.draws = heardDraws s m) :
    heard (effect e s) j = heard s (m + j) := by
  unfold heard heardDraws at *
  cases h : s.drvSda <;> simp_all

/-- One data bit of READ_BYTE_SEQ (R124). -/
theorem receiveBit_eq (s : State) : receiveBit s = effect {
    events := receiveBitEvents s.cfg.halfPeriod (heard s 0), draws := heardDraws s 1, scl := .released,
    sda := s.drvSda, busOpen := s.busOpen, phase := s.phase,
    work := { s.work with shift := shiftIn s.work.shift (heard s 0) }, dbuf := s.dbuf } s := by
  have hp : driveOf .sda (wait (release .scl (wait (driveLow .scl (csBegin s))))) = s.drvSda := by
    simp [wait, release, driveLow, drive, setDrive, csBegin, micro, driveOf]
  cases hd : s.drvSda
  · simp only [receiveBit, sample_low (hp.trans hd)]
    cases h : s.mpc <;> simp [effect, heard, heardDraws, hd, receiveBitEvents, csBegin, csEnd, release, driveLow,
      drive, setDrive, wait, micro, record, setShift, h]
  · simp only [receiveBit, sample_released (hp.trans hd), upcoming_receive]
    cases h : s.mpc <;> simp [effect, heard, heardDraws, hd, receiveBitEvents, csBegin, csEnd, release, driveLow,
      drive, setDrive, wait, micro, record, setShift, takeDraws, h]

/-- What is heard after one data bit is what would have been heard one answer later. -/
theorem heard_receiveBit (n : BitVec 4) (s : State) (j : Nat) :
    heard (receiveBit (setBitcnt n s)) j = heard s (j + 1) := by
  rw [receiveBit_eq, effect_setBitcnt, heard_effect (m := 1) (hs := rfl) (hd := rfl), Nat.add_comm]

theorem heardDraws_receiveBit (n : BitVec 4) (s : State) (j : Nat) :
    heardDraws (receiveBit (setBitcnt n s)) j = heardDraws s j := by
  rw [receiveBit_eq]; rfl

theorem heardDraws_add (s : State) (m n : Nat) : heardDraws s m + heardDraws s n = heardDraws s (m + n) := by
  unfold heardDraws; split <;> rfl

/-- n data bits of READ_BYTE_SEQ (R124). -/
theorem receiveBits_eq (n k : Nat) (s : State) : receiveBits (n + 1) k s = effect {
    events := (List.range (n + 1)).flatMap fun j => receiveBitEvents s.cfg.halfPeriod (heard s j)
    draws := heardDraws s (n + 1), scl := .released, sda := s.drvSda, busOpen := s.busOpen, phase := s.phase
    work := { s.work with
      shift := (List.range (n + 1)).foldl (fun v j => shiftIn v (heard s j)) s.work.shift
      bitcnt := BitVec.ofNat 4 (k + n + 1) }
    dbuf := s.dbuf } s := by
  have hset (m : BitVec 4) (j : Nat) : heard (setBitcnt m s) j = heard s j := rfl
  have hdraw (m : BitVec 4) (j : Nat) : heardDraws (setBitcnt m s) j = heardDraws s j := rfl
  induction n generalizing k s with
  | zero => simp [receiveBits, receiveBit_eq, hset, hdraw]
  | succ n ih =>
    rw [receiveBits, ih _ _ (fun _ _ => rfl) (fun _ _ => rfl)]
    simp only [heard_receiveBit, heardDraws_receiveBit]
    rw [receiveBit_eq, effect_effect]
    simp [Effect.seq, hset, hdraw, heardDraws_add, Nat.add_comm 1, List.range_succ_eq_map (n := n + 1),
      List.flatMap_map, List.foldl_map, Nat.add_assoc, Nat.add_left_comm]

/-- The ninth clock of READ_BYTE_SEQ (R124). -/
theorem replyClock_eq (nack : Bool) (s : State) : replyClock nack s = effect {
    events := replyEvents s.cfg.halfPeriod (!nack), draws := 0, scl := .low, sda := .released,
    busOpen := s.busOpen, phase := s.phase, work := s.work, dbuf := s.dbuf } s := by
  cases nack <;> cases h : s.mpc <;> simp [replyClock, masterAck, effect, replyEvents, csBegin, csEnd, release,
    driveLow, drive, setDrive, wait, micro, record, h]

/-- The byte READ_BYTE_SEQ assembles from what it hears (R124). -/
def heardByte (s : State) : Byte := (List.range 8).foldl (fun v j => shiftIn v (heard s j)) 0

/-- A byte assembled first bit first has those bits, first one in bit 7 (R52, R124). -/
theorem bitsMsbFirst_shiftIn (f : Nat → Bool) :
    bitsMsbFirst ((List.range 8).foldl (fun v j => shiftIn v (f j)) 0) = (List.range 8).map f := by
  have h : ∀ a b c d e g i j : Bool, bitsMsbFirst (shiftIn (shiftIn (shiftIn (shiftIn (shiftIn (shiftIn (shiftIn
      (shiftIn 0 a) b) c) d) e) g) i) j) = [a, b, c, d, e, g, i, j] := by decide
  exact h (f 0) (f 1) (f 2) (f 3) (f 4) (f 5) (f 6) (f 7)

/-- READ_BYTE_SEQ (R124). -/
theorem readByteSeq_eq (nack : Bool) (s : State) : readByteSeq nack s = (heardByte s, effect {
    events := (ByteEvent.got (heardByte s) (!nack)).events s.cfg.halfPeriod, draws := heardDraws s 8, scl := .low,
    sda := .released, busOpen := s.busOpen, phase := s.phase,
    work := { s.work with shift := heardByte s, bitcnt := 8 }, dbuf := s.dbuf } s) := by
  have hh (j : Nat) : heard (setShift 0 s) j = heard s j := rfl
  have hd (j : Nat) : heardDraws (setShift 0 s) j = heardDraws s j := rfl
  rw [readByteSeq, receiveBits_eq, replyClock_eq, effect_effect]
  simp only [hh, hd, Effect.seq, effect_setShift, effect_work, heardByte, ByteEvent.events, bitsMsbFirst_shiftIn,
    List.flatMap_map]
  rfl

theorem heardByte_released {s : State} (h : s.drvSda = .released) : heardByte s = byteAt s 0 := by
  simp [heardByte, heard, h, byteAt]

theorem heardByte_low {s : State} (h : s.drvSda = .low) : heardByte s = 0 := by
  simp [heardByte, heard, h]; decide

end Sys2Proof.Machine
end

