-- ==== Sys2Proof/Laws/ByteTrace.lean ====
section
/-! SUPPORT. The trace as a list of events: what joins it, and the WAITs, brackets and bus edges of the four
sequences (R106, R125, R131, R247). -/

namespace Sys2Proof.Machine

theorem eventsOf_finish (st : Status) (s : State) : eventsOf (finish st s) = eventsOf s ++ [.complete st] := by
  simp [eventsOf]

theorem eventsOf_micro (e : Event) (s : State) : eventsOf (micro e s) = eventsOf s ++ [e] := by
  simp [eventsOf, micro]

theorem eventsOf_effect (e : Effect) (s : State) : eventsOf (effect e s) = eventsOf s ++ e.events := by
  simp [eventsOf, List.map_reverse, Function.comp_def]

theorem eventsOf_setAck (b : Bool) (s : State) : eventsOf (setAck b s) = eventsOf s := rfl
theorem eventsOf_setLevel (b : Bool) (s : State) : eventsOf (setLevel b s) = eventsOf s := rfl
theorem eventsOf_setByte (v : Byte) (s : State) : eventsOf (setByte v s) = eventsOf s := rfl
theorem eventsOf_setCount (n : Word) (s : State) : eventsOf (setCount n s) = eventsOf s := rfl

theorem byteTraceEvents_append (h : Word) (as bs : List ByteEvent) :
    byteTraceEvents h (as ++ bs) = byteTraceEvents h as ++ byteTraceEvents h bs := by simp [byteTraceEvents]

theorem byteTraceEvents_cons (h : Word) (b : ByteEvent) (bs : List ByteEvent) :
    byteTraceEvents h (b :: bs) = b.events h ++ byteTraceEvents h bs := rfl

@[simp] theorem byteTraceEvents_nil (h : Word) : byteTraceEvents h [] = [] := rfl

/-! ### Counts (R247) -/

theorem waitCount_append (as bs : List Event) : waitCount (as ++ bs) = waitCount as + waitCount bs :=
  List.countP_append

theorem bracketCount_append (as bs : List Event) : bracketCount (as ++ bs) = bracketCount as + bracketCount bs :=
  List.countP_append

/-- The WAITs of a sequence (R131). -/
def ByteEvent.waits : ByteEvent → Nat
  | .start => 3
  | .stop => 4
  | .wrote _ _ => 19
  | .got _ _ => 19

/-- The brackets of a sequence (R131). -/
def ByteEvent.brackets : ByteEvent → Nat
  | .start => 1
  | .stop => 1
  | .wrote _ _ => 9
  | .got _ _ => 9

theorem ByteEvent.waitCount_events (h : Word) (b : ByteEvent) : waitCount (b.events h) = b.waits := by
  cases b with
  | start => rfl
  | stop => rfl
  | wrote v a => cases a <;> simp [events, waits, bitsMsbFirst, sendBitEvents, ackEvents, waitCount]
  | got v a => cases a <;> simp [events, waits, bitsMsbFirst, receiveBitEvents, replyEvents, waitCount]

theorem ByteEvent.bracketCount_events (h : Word) (b : ByteEvent) : bracketCount (b.events h) = b.brackets := by
  cases b with
  | start => rfl
  | stop => rfl
  | wrote v a => cases a <;> simp [events, brackets, bitsMsbFirst, sendBitEvents, ackEvents, bracketCount]
  | got v a => cases a <;> simp [events, brackets, bitsMsbFirst, receiveBitEvents, replyEvents, bracketCount]

theorem waitCount_byteTrace (h : Word) (bs : List ByteEvent) :
    waitCount (byteTraceEvents h bs) = (bs.map ByteEvent.waits).sum := by
  induction bs with
  | nil => rfl
  | cons b bs ih => rw [byteTraceEvents_cons, waitCount_append, ih, b.waitCount_events]; rfl

theorem bracketCount_byteTrace (h : Word) (bs : List ByteEvent) :
    bracketCount (byteTraceEvents h bs) = (bs.map ByteEvent.brackets).sum := by
  induction bs with
  | nil => rfl
  | cons b bs ih => rw [byteTraceEvents_cons, bracketCount_append, ih, b.bracketCount_events]; rfl

/-! ### Brackets (R106) -/

/-- A list with no bracket open at its end may be followed by any other. -/
theorem bracketed_append {inside : Bool} {as bs : List Event} (h : bracketed inside as = true) :
    bracketed inside (as ++ bs) = bracketed false bs := by
  induction as generalizing inside with
  | nil => simp_all [bracketed]
  | cons a as ih => cases inside <;> cases a <;> simp_all [bracketed]

theorem ByteEvent.bracketed_events (h : Word) (b : ByteEvent) : bracketed false (b.events h) = true := by
  cases b with
  | start => rfl
  | stop => rfl
  | wrote v a => rfl
  | got v a => cases a <;> rfl

theorem bracketed_byteTrace (h : Word) (bs : List ByteEvent) : bracketed false (byteTraceEvents h bs) = true := by
  induction bs with
  | nil => rfl
  | cons b bs ih => rw [byteTraceEvents_cons, bracketed_append (b.bracketed_events h), ih]

/-! ### Bus edges (R125) -/

/-- The drive states that a list of events leaves. -/
def linesAfter : Drive × Drive → List Event → Drive × Drive
  | p, [] => p
  | p, .drive .scl d :: es => linesAfter (d, p.2) es
  | p, .drive .sda d :: es => linesAfter (p.1, d) es
  | p, .sample _ _ :: es => linesAfter p es
  | p, .wait _ :: es => linesAfter p es
  | p, .csBegin :: es => linesAfter p es
  | p, .csEnd :: es => linesAfter p es
  | p, .issue _ :: es => linesAfter p es
  | p, .complete _ :: es => linesAfter p es

theorem clockHighEdges_append (scl sda : Drive) (as bs : List Event) : clockHighEdges scl sda (as ++ bs) =
    clockHighEdges scl sda as ++
      clockHighEdges (linesAfter (scl, sda) as).1 (linesAfter (scl, sda) as).2 bs := by
  induction as generalizing scl sda with
  | nil => rfl
  | cons a as ih =>
    cases a with
    | drive l d => cases l <;> simp [clockHighEdges, linesAfter, ih]
    | _ => simp [clockHighEdges, linesAfter, ih]

theorem linesAfter_append (p : Drive × Drive) (as bs : List Event) :
    linesAfter p (as ++ bs) = linesAfter (linesAfter p as) bs := by
  induction as generalizing p with
  | nil => rfl
  | cons a as ih =>
    cases a with
    | drive l d => cases l <;> simp [linesAfter, ih]
    | _ => simp [linesAfter, ih]

/-- The edges of START_SEQ, and the drive states it leaves (R121, R125). -/
theorem edges_start (scl sda : Drive) (h : Word) :
    clockHighEdges scl sda (startEvents h) =
      (if scl = .released ∧ sda = .low then [.stop, .start] else [.start]) ∧
    linesAfter (scl, sda) (startEvents h) = (.released, .low) := by
  cases scl <;> cases sda <;> exact ⟨rfl, rfl⟩

/-- The edges of STOP_SEQ, and the drive states it leaves (R122, R125). -/
theorem edges_stop (scl sda : Drive) (h : Word) :
    clockHighEdges scl sda (stopEvents h) =
      (if scl = .released ∧ sda = .released then [.start, .stop] else [.stop]) ∧
    linesAfter (scl, sda) (stopEvents h) = (.released, .released) := by
  cases scl <;> cases sda <;> exact ⟨rfl, rfl⟩

/-- One data bit makes no edge: SDA changes only while SCL is low (R123). -/
theorem edges_sendBit (scl sda : Drive) (h : Word) (b : Bool) : clockHighEdges scl sda (sendBitEvents h b) = [] ∧
    linesAfter (scl, sda) (sendBitEvents h b) = (.released, if b then .released else .low) := by
  cases b <;> exact ⟨rfl, rfl⟩

theorem edges_sendBits (scl sda : Drive) (h : Word) (bs : List Bool) :
    clockHighEdges scl sda (bs.flatMap (sendBitEvents h)) = [] := by
  induction bs generalizing scl sda with
  | nil => rfl
  | cons b bs ih => rw [List.flatMap_cons, clockHighEdges_append, (edges_sendBit scl sda h b).1, ih]; rfl

/-- A byte sent makes no edge, whatever the drive states before it, and leaves the bus held (R123). -/
theorem edges_wrote (scl sda : Drive) (h : Word) (v : Byte) (a : Bool) :
    clockHighEdges scl sda ((ByteEvent.wrote v a).events h) = [] ∧
    linesAfter (scl, sda) ((ByteEvent.wrote v a).events h) = (.low, .released) := by
  rw [ByteEvent.events, clockHighEdges_append, edges_sendBits, linesAfter_append]
  exact ⟨rfl, rfl⟩

/-- A byte received makes no edge, whatever the drive states before it, and leaves the bus held (R124). -/
theorem edges_got (scl sda : Drive) (h : Word) (v : Byte) (a : Bool) :
    clockHighEdges scl sda ((ByteEvent.got v a).events h) = [] ∧
    linesAfter (scl, sda) ((ByteEvent.got v a).events h) = (.low, .released) := by
  cases a <;> cases scl <;> cases sda <;> exact ⟨rfl, rfl⟩

/-- A symbol that is a byte sent or received. -/
def ByteEvent.isByte : ByteEvent → Bool
  | .wrote _ _ => true
  | .got _ _ => true
  | .start => false
  | .stop => false

/-- Bytes make no edge; at least one of them leaves the bus held. -/
theorem edges_bytes (scl sda : Drive) (h : Word) {bs : List ByteEvent} (hb : bs.all ByteEvent.isByte = true) :
    clockHighEdges scl sda (byteTraceEvents h bs) = [] ∧
    linesAfter (scl, sda) (byteTraceEvents h bs) = if bs = [] then (scl, sda) else (.low, .released) := by
  induction bs generalizing scl sda with
  | nil => exact ⟨rfl, rfl⟩
  | cons b bs ih =>
    simp only [List.all_cons, Bool.and_eq_true] at hb
    have h1 : clockHighEdges scl sda (b.events h) = [] ∧ linesAfter (scl, sda) (b.events h) = (.low, .released) := by
      cases b with
      | wrote v a => exact edges_wrote scl sda h v a
      | got v a => exact edges_got scl sda h v a
      | start => simp [ByteEvent.isByte] at hb
      | stop => simp [ByteEvent.isByte] at hb
    obtain ⟨h2, h3⟩ := ih .low .released hb.2
    rw [byteTraceEvents_cons, clockHighEdges_append, linesAfter_append, h1.1, h1.2, h2, h3]
    simp

/-- A START from a bus that is idle or held, and then at least one byte: one edge, and the bus is held. -/
theorem edges_startBytes {scl sda : Drive} (h : Word) {bs : List ByteEvent}
    (hb : bs.all ByteEvent.isByte = true) (hne : bs ≠ []) (hs : ¬ (scl = .released ∧ sda = .low))
    (rest : List ByteEvent) : clockHighEdges scl sda (byteTraceEvents h (.start :: (bs ++ rest))) =
      .start :: clockHighEdges .low .released (byteTraceEvents h rest) := by
  rw [byteTraceEvents_cons, clockHighEdges_append, byteTraceEvents_append, clockHighEdges_append,
    show ByteEvent.start.events h = startEvents h from rfl, (edges_start scl sda h).1, (edges_start scl sda h).2,
    if_neg hs, (edges_bytes _ _ h hb).1, (edges_bytes _ _ h hb).2, if_neg hne]
  rfl

theorem isByte_sentTrace (s : State) (k : Nat) (vs : List Byte) :
    (sentTrace s k vs).all ByteEvent.isByte = true := by
  induction vs generalizing k with
  | nil => rfl
  | cons v vs ih => cases h : ackAt s k <;> simp [sentTrace, h, ByteEvent.isByte, ih]

theorem isByte_gotTrace (s : State) (k n : Nat) : (gotTrace s k n).all ByteEvent.isByte = true := by
  induction n generalizing k with
  | zero => rfl
  | succ n ih => simp [gotTrace, ByteEvent.isByte, ih]

/-! ### The contract of R125 -/

/-- From these drive states, no START in the list begins with SDA low at a released SCL and no STOP with both lines
released, so that each makes its own edge and no other (R125). -/
def contractKept : Drive × Drive → List ByteEvent → Bool
  | _, [] => true
  | p, .start :: bs => p != (.released, .low) && contractKept (.released, .low) bs
  | p, .stop :: bs => p != (.released, .released) && contractKept (.released, .released) bs
  | _, .wrote _ _ :: bs => contractKept (.low, .released) bs
  | _, .got _ _ :: bs => contractKept (.low, .released) bs

/-- Where the contract is kept, the edges are those of the STARTs and STOPs (R125). -/
theorem edges_contractKept {p : Drive × Drive} (h : Word) {bs : List ByteEvent} (hb : contractKept p bs = true) :
    clockHighEdges p.1 p.2 (byteTraceEvents h bs) = conditionsOf bs := by
  induction bs generalizing p with
  | nil => rfl
  | cons b bs ih =>
    rw [byteTraceEvents_cons, clockHighEdges_append]
    cases b with
    | start =>
      simp only [contractKept, Bool.and_eq_true, bne_iff_ne, ne_eq, Prod.ext_iff] at hb
      simp only [ByteEvent.events, (edges_start p.1 p.2 h).1, (edges_start p.1 p.2 h).2, if_neg hb.1, ih hb.2]; rfl
    | stop =>
      simp only [contractKept, Bool.and_eq_true, bne_iff_ne, ne_eq, Prod.ext_iff] at hb
      simp only [ByteEvent.events, (edges_stop p.1 p.2 h).1, (edges_stop p.1 p.2 h).2, if_neg hb.1, ih hb.2]; rfl
    | wrote v a => rw [(edges_wrote p.1 p.2 h v a).1, (edges_wrote p.1 p.2 h v a).2, ih hb]; rfl
    | got v a => rw [(edges_got p.1 p.2 h v a).1, (edges_got p.1 p.2 h v a).2, ih hb]; rfl

/-- A START from a bus that is already STARTED makes a STOP edge first (R125). -/
theorem edges_startContract {scl sda : Drive} (h : Word) {bs : List ByteEvent}
    (hb : contractKept (.released, .low) bs = true) :
    clockHighEdges scl sda (byteTraceEvents h (.start :: bs)) =
      (if scl = .released ∧ sda = .low then [.stop] else []) ++ .start :: conditionsOf bs := by
  rw [byteTraceEvents_cons, clockHighEdges_append]
  simp only [ByteEvent.events, (edges_start scl sda h).1, (edges_start scl sda h).2]
  rw [edges_contractKept h hb]
  split <;> rfl

/-- Events that drive no line make no edge and leave the lines alone. -/
theorem edges_noDrive {es : List Event} (h : ∀ e ∈ es, e.isDrive = false) (p : Drive × Drive) :
    clockHighEdges p.1 p.2 es = [] ∧ linesAfter p es = p := by
  induction es with
  | nil => exact ⟨rfl, rfl⟩
  | cons e es ih =>
    have := ih (fun e he => h e (List.mem_cons_of_mem _ he))
    cases e with
    | drive l d => exact absurd (h _ List.mem_cons_self) (by simp [Event.isDrive])
    | _ => exact this

@[simp] theorem conditionsOf_start (bs : List ByteEvent) : conditionsOf (.start :: bs) = .start :: conditionsOf bs :=
  rfl

theorem conditionsOf_append (as bs : List ByteEvent) : conditionsOf (as ++ bs) = conditionsOf as ++ conditionsOf bs :=
  List.filterMap_append

theorem conditionsOf_bytes {bs : List ByteEvent} (hb : bs.all ByteEvent.isByte = true) : conditionsOf bs = [] := by
  induction bs with
  | nil => rfl
  | cons b bs ih => cases b <;> simp_all [conditionsOf, ByteEvent.isByte]

theorem contractKept_bytes {p : Drive × Drive} {bs : List ByteEvent} (hb : bs.all ByteEvent.isByte = true)
    (rest : List ByteEvent) :
    contractKept p (bs ++ rest) = contractKept (if bs = [] then p else (.low, .released)) rest := by
  induction bs generalizing p with
  | nil => rfl
  | cons b bs ih => cases b <;> simp_all [contractKept, ByteEvent.isByte]

/-- The three clean line states, by the lines and BUS_OPEN (R125). -/
theorem lineState_eq_some {s : State} {l : LineState} (h : lineState s = some l) :
    (l = .idle ∧ s.drvScl = .released ∧ s.drvSda = .released ∧ s.busOpen = false) ∨
    (l = .held ∧ s.drvScl = .low ∧ s.drvSda = .released ∧ s.busOpen = true) ∨
    (l = .started ∧ s.drvScl = .released ∧ s.drvSda = .low ∧ s.busOpen = true) := by
  revert h
  unfold lineState
  cases s.drvScl <;> cases s.drvSda <;> cases s.busOpen <;> simp <;> exact Eq.symm

end Sys2Proof.Machine
end

