-- ==== Sys2Proof/Laws/Memory.lean ====
section
/-! SUPPORT. The laws of the data buffer: reading after writing, the canonical form, and the loops that write it. -/

namespace Sys2Proof.Machine

theorem Memory.read_write_self (a : Nat) (v : Byte) (m : Memory) : Memory.read (Memory.write a v m) a = some v := by
  induction m with
  | nil => simp [Memory.write, Memory.read]
  | cons c m ih =>
    unfold Memory.write
    split
    · simp [Memory.read]
    · split
      · simp [Memory.read]
      · have : c.1 ≠ a := by omega
        simp [Memory.read, this, ih]

theorem Memory.read_write_other {a b : Nat} (v : Byte) (m : Memory) (h : b ≠ a) :
    Memory.read (Memory.write a v m) b = Memory.read m b := by
  induction m with
  | nil => simp [Memory.write, Memory.read, h.symm]
  | cons c m ih =>
    unfold Memory.write
    split
    · simp [Memory.read, h.symm]
    · split
      · rename_i h1 h2
        have : c.1 ≠ b := by omega
        simp [Memory.read, h.symm, this]
      · simp [Memory.read, ih]

theorem Memory.read_write (a b : Nat) (v : Byte) (m : Memory) :
    Memory.read (Memory.write a v m) b = if b = a then some v else Memory.read m b := by
  split
  · next h => rw [h, Memory.read_write_self]
  · next h => exact Memory.read_write_other v m h

/-- A cell of the buffer after a store is the stored one or was there before. -/
theorem Memory.mem_write {a : Nat} {v : Byte} {m : Memory} {c : Host.Cell} (h : c ∈ Memory.write a v m) :
    c = (a, v) ∨ c ∈ m := by
  induction m with
  | nil => simpa [Memory.write] using h
  | cons d m ih =>
    unfold Memory.write at h
    split at h
    · simpa using h
    · split at h <;> simp only [List.mem_cons] at h ⊢ <;> tauto

/-- A store keeps the canonical form. -/
theorem Memory.wf_write {a : Nat} {v : Byte} {m : Memory} (h : Memory.wf m) : Memory.wf (Memory.write a v m) := by
  induction m with
  | nil => simp [Memory.write, Memory.wf]
  | cons c m ih =>
    obtain ⟨hc, hm⟩ := List.pairwise_cons.mp h
    unfold Memory.write
    split
    · next hlt =>
      refine List.pairwise_cons.mpr ⟨fun x hx => ?_, h⟩
      rcases List.mem_cons.mp hx with rfl | hx
      · exact hlt
      · exact lt_trans hlt (hc x hx)
    · split
      · next heq => exact List.pairwise_cons.mpr ⟨fun x hx => heq ▸ hc x hx, hm⟩
      · next h1 h2 =>
        refine List.pairwise_cons.mpr ⟨fun x hx => ?_, ih hm⟩
        rcases Memory.mem_write hx with rfl | hx
        · show c.1 < a; omega
        · exact hc x hx

/-- What the buffer must satisfy for indexes below a bound. -/
def Memory.Good (n : Nat) (m : Memory) : Prop := Memory.wf m ∧ ∀ c ∈ m, c.1 < n

theorem Memory.Good.write {n a : Nat} {v : Byte} {m : Memory} (h : Memory.Good n m) (ha : a < n) :
    Memory.Good n (Memory.write a v m) :=
  ⟨Memory.wf_write h.1, fun c hc => by
    rcases Memory.mem_write hc with rfl | hc
    · exact ha
    · exact h.2 c hc⟩

/-! ### The payload -/

theorem bytesFrom_eq_some {m : Memory} {i n : Nat} {bs : List Byte} :
    bytesFrom m i n = some bs ↔ bs.length = n ∧ ∀ j < n, Memory.read m (i + j) = bs[j]? := by
  induction n generalizing i bs with
  | zero => cases bs <;> simp [bytesFrom]
  | succ n ih =>
    constructor
    · intro h
      unfold bytesFrom at h
      split at h
      · next v vs hv hvs =>
        obtain rfl := Option.some.inj h
        obtain ⟨hl, hr⟩ := ih.mp hvs
        refine ⟨by simp [hl], fun j hj => ?_⟩
        cases j with
        | zero => simpa using hv
        | succ j => simpa [Nat.add_assoc, Nat.add_comm 1] using hr j (by omega)
      · cases h
    · rintro ⟨hl, hr⟩
      cases bs with
      | nil => simp at hl
      | cons v vs =>
        have h0 := hr 0 (by omega)
        have hvs : bytesFrom m (i + 1) n = some vs := ih.mpr ⟨by simpa using hl, fun j hj => by
          simpa [Nat.add_assoc, Nat.add_comm 1] using hr (j + 1) (by omega)⟩
        simp only [Nat.add_zero, List.getElem?_cons_zero] at h0
        simp [bytesFrom, h0, hvs]

/-- The payload is the bytes DBUF[0..LEN-1], all of which hold a value (R50). -/
theorem payload_eq_some {s : State} {bs : List Byte} :
    payload s = some bs ↔ bs.length = s.len.toNat ∧ ∀ j < s.len.toNat, dbufRead j s = bs[j]? := by
  simpa [payload, dbufRead] using bytesFrom_eq_some (m := s.dbuf) (i := 0) (n := s.len.toNat) (bs := bs)

theorem bytesFrom_eq_none {m : Memory} {i n : Nat} :
    bytesFrom m i n = none ↔ ∃ j < n, Memory.read m (i + j) = none := by
  induction n generalizing i with
  | zero => simp [bytesFrom]
  | succ n ih =>
    unfold bytesFrom
    cases h : Memory.read m i with
    | none => simpa using ⟨0, by omega, by simpa using h⟩
    | some v =>
      cases h2 : bytesFrom m (i + 1) n with
      | none =>
        obtain ⟨j, hj, hr⟩ := ih.mp h2
        simpa using ⟨j + 1, by omega, by simpa [Nat.add_assoc, Nat.add_comm 1] using hr⟩
      | some vs =>
        simp only [reduceCtorEq, false_iff, not_exists, not_and]
        intro j hj hr
        cases j with
        | zero => simp [h] at hr
        | succ j =>
          have := (ih (i := i + 1)).mpr ⟨j, by omega, by simpa [Nat.add_assoc, Nat.add_comm 1] using hr⟩
          simp [this] at h2

/-- There is no payload exactly when a byte of DBUF[0..LEN-1] holds no value (R43). -/
theorem payload_eq_none {s : State} : payload s = none ↔ ∃ j < s.len.toNat, dbufRead j s = none := by
  simpa [payload, dbufRead] using bytesFrom_eq_none (m := s.dbuf) (i := 0) (n := s.len.toNat)

/-! ### The cleanup of a failed read (R150) -/

/-- The buffer with n free values stored from index i on. -/
def freeStore (c : Nat) : Nat → Nat → Memory → Memory
  | 0, _, m => m
  | n + 1, i, m => freeStore (c + 1) n (i + 1) (Memory.write i (Config.freeBits 8 c) m)

/-- abort_cleanup writes DBUF and uses up free values, and nothing else (R142, R150). -/
theorem abortCleanup_eq (n i : Nat) (s : State) : abortCleanup n i s =
    { s with dbuf := freeStore s.draws.freeCtr n i s.dbuf, draws.freeCtr := s.draws.freeCtr + n } := by
  induction n generalizing i s with
  | zero => rfl
  | succ n ih =>
    simp [abortCleanup, ih, skipFree, dbufWrite, freeValue, freeStore, Nat.add_assoc, Nat.add_comm 1]

theorem read_freeStore (c n i : Nat) (m : Memory) (j : Nat) : Memory.read (freeStore c n i m) j =
    if i ≤ j ∧ j < i + n then some (Config.freeBits 8 (c + (j - i))) else Memory.read m j := by
  induction n generalizing c i m with
  | zero => rw [freeStore, if_neg (by omega)]
  | succ n ih =>
    rw [freeStore, ih, Memory.read_write]
    by_cases h0 : j = i
    · subst h0; simp
    · by_cases h1 : i + 1 ≤ j ∧ j < i + 1 + n
      · have h2 : i ≤ j ∧ j < i + (n + 1) := by omega
        have h3 : c + 1 + (j - (i + 1)) = c + (j - i) := by omega
        rw [if_pos h1, if_pos h2, h3]
      · have h2 : ¬ (i ≤ j ∧ j < i + (n + 1)) := by omega
        rw [if_neg h1, if_neg h2, if_neg h0]

theorem good_freeStore {b c n i : Nat} {m : Memory} (h : Memory.Good b m) (hi : i + n ≤ b) :
    Memory.Good b (freeStore c n i m) := by
  induction n generalizing c i m with
  | zero => exact h
  | succ n ih => exact ih (h.write (by omega)) (by omega)

end Sys2Proof.Machine
end

