-- ==== Sys2Proof/Laws/Transactions.lean ====
section
/-! SUPPORT. What a transaction leaves after each of its parts (R142 to R147): `Sent` says it once, and each part
adds to it. -/

namespace Sys2Proof.Machine

/-! ### Acknowledgements and byte traces -/

theorem ackAt_effect (e : Effect) (s : State) (k : Nat) : ackAt (effect e s) k = ackAt s (e.draws + k) := by
  simp [ackAt]

theorem byteAt_effect (e : Effect) (s : State) (k : Nat) : byteAt (effect e s) k = byteAt s (e.draws + k) := by
  simp [byteAt, Nat.add_assoc]

@[simp] theorem acked_zero (s : State) (k : Nat) : acked s k 0 = true := rfl

theorem acked_succ (s : State) (k n : Nat) : acked s k (n + 1) = (acked s k n && ackAt s (k + n)) := by
  simp [acked, List.range_succ]

theorem sentTrace_append (s : State) (k : Nat) (vs : List Byte) (v : Byte) : sentTrace s k (vs ++ [v]) =
    sentTrace s k vs ++ if acked s k vs.length then [.wrote v (ackAt s (k + vs.length))] else [] := by
  induction vs generalizing k with
  | nil => simp [sentTrace]
  | cons w ws ih =>
    have h : acked s k (ws.length + 1) = (ackAt s k && acked s (k + 1) ws.length) := by
      simp [acked, List.range_succ_eq_map, Function.comp_def, Nat.add_assoc, Nat.add_comm 1]
    cases h0 : ackAt s k <;> simp [sentTrace, ih, h, h0, Nat.add_assoc, Nat.add_comm 1]

theorem length_sentTrace {s : State} {k : Nat} {vs : List Byte} (h : acked s k vs.length = true) :
    (sentTrace s k vs).length = vs.length := by
  induction vs using List.reverseRecOn with
  | nil => rfl
  | append_singleton vs v ih =>
    simp only [List.length_append, List.length_singleton, acked_succ, Bool.and_eq_true] at h
    simp [sentTrace_append, h.1, ih h.1]

/-! ### The parts of a writing transaction -/

/-- What a transaction that has sent vs after the symbols pre has left: it goes on, with the bus held, exactly
when every byte was acknowledged; else one STOP_SEQ has ended it (R142, R149). -/
structure Sent (s : State) (pre : List ByteEvent) (vs : List Byte) (r : Bool × State) : Prop where
  ok : r.1 = acked s 0 vs.length
  state : ∃ p w, r.2 = effect {
    events := byteTraceEvents s.cfg.halfPeriod
      (pre ++ sentTrace s 0 vs ++ if acked s 0 vs.length then [] else [.stop])
    draws := (sentTrace s 0 vs).length
    scl := if acked s 0 vs.length then .low else .released
    sda := .released
    busOpen := acked s 0 vs.length
    phase := p, work := w, dbuf := s.dbuf } s

/-- SEND (R142). -/
theorem send_eq (v : Byte) (s : State) : send v s = (ackAt s 0, effect {
    events := byteTraceEvents s.cfg.halfPeriod (.wrote v (ackAt s 0) :: if ackAt s 0 then [] else [.stop])
    draws := 1
    scl := if ackAt s 0 then .low else .released
    sda := .released
    busOpen := s.busOpen && ackAt s 0
    phase := if ackAt s 0 then s.phase else .idle
    work := s.work, dbuf := s.dbuf } s) := by
  unfold send
  rw [writeByteSeq_eq]
  cases h : ackAt s 0 <;>
    simp [stopSeq_eq, effect_effect, Effect.seq, byteTraceEvents, ByteEvent.events]

@[simp] theorem send_setPhase_fst (v : Byte) (p : Phase) (s : State) : (send v (setPhase p s)).1 = (send v s).1 := by
  simp [send_eq]; rfl

/-- START_SEQ and the address byte (R143 to R146). -/
theorem Sent.opened (a : Addr) (rw : BitVec 1) (s : State) :
    Sent s [.start] [addrByte a rw] (openTransaction a rw s) := by
  have h : ackAt (setPhase .address (startSeq (setPhase .start s))) 0 = ackAt s 0 := by
    rw [startSeq_eq]; simp [ackAt_effect]
  have hk : acked s 0 1 = ackAt s 0 := by simp [acked]
  refine ⟨by simp only [openTransaction, send_eq, h, List.length_singleton, hk], ?_⟩
  rw [openTransaction, send_eq, h, startSeq_eq]
  simp only [List.length_singleton, hk, setPhase_effect, effect_setPhase, effect_effect, Effect.seq]
  cases h0 : ackAt s 0 <;> simp [sentTrace, h0, byteTraceEvents, ByteEvent.events] <;> exact ⟨_, _, rfl⟩

/-- One more byte sent, whatever PHASE and i are set to first (R142, R143). -/
theorem Sent.send {s : State} {pre : List ByteEvent} {vs : List Byte} {r : Bool × State} (h : Sent s pre vs r)
    (v : Byte) (f : State → State) (hf : ∀ e, ∃ p w, f (effect e s) = effect { e with phase := p, work := w } s) :
    Sent s pre (vs ++ [v]) (andThen r fun t => Machine.send v (f t)) := by
  obtain ⟨b, t⟩ := r
  obtain ⟨hok, p, w, ht⟩ := h
  simp only at hok ht
  cases hb : acked s 0 vs.length
  · rw [hb] at hok
    subst hok
    refine ⟨by simp [andThen, acked_succ, hb], p, w, ?_⟩
    simp only [andThen, Bool.false_eq_true, if_false, ht, List.length_append, List.length_singleton, acked_succ, hb,
      Bool.false_and, sentTrace_append, List.append_nil]
  · rw [hb] at hok
    subst hok
    obtain ⟨p', w', hp⟩ := hf _
    rw [ht, andThen, if_pos rfl, hp, send_eq]
    have hl := length_sentTrace hb
    have ha (e : Effect) (he : e.draws = (sentTrace s 0 vs).length) :
        ackAt (effect e s) 0 = ackAt s vs.length := by
      simp [ackAt_effect, he, hl]
    refine ⟨by simp [ha, acked_succ, hb], ?_⟩
    simp only [ha, effect_effect, Effect.seq, effect_cfg, effect_busOpen, hb, Bool.true_and, List.length_append,
      List.length_singleton, acked_succ, sentTrace_append, Nat.zero_add, if_true, List.append_nil]
    cases hk : ackAt s vs.length <;> simp [byteTraceEvents] <;> exact ⟨_, _, rfl⟩

theorem andThen_assoc (r : Bool × State) (f g : State → Bool × State) :
    andThen (andThen r f) g = andThen r fun t => andThen (f t) g := by
  obtain ⟨b, t⟩ := r
  cases b <;> simp [andThen]

theorem andThen_true (s : State) (f : State → Bool × State) : andThen (true, s) f = f s := by simp [andThen]

theorem andThen_pure (r : Bool × State) : andThen r (fun t => (true, t)) = r := by
  obtain ⟨b, t⟩ := r
  cases b <;> simp [andThen]

/-- PHASE and i may be set between bytes. -/
theorem Sent.set {s : State} {pre : List ByteEvent} {vs : List Byte} {r : Bool × State} (h : Sent s pre vs r)
    (f : State → State) (hf : ∀ e, ∃ p w, f (effect e s) = effect { e with phase := p, work := w } s) :
    Sent s pre vs (andThen r fun t => (true, f t)) := by
  obtain ⟨b, t⟩ := r
  obtain ⟨hok, p, w, ht⟩ := h
  simp only at hok ht
  cases b
  · exact ⟨hok, p, w, ht⟩
  · refine ⟨hok, ?_⟩
    simp only [andThen, if_true, ht]
    exact hf _

theorem Sent.sendAll {s : State} {pre : List ByteEvent} {vs : List Byte} {r : Bool × State} (h : Sent s pre vs r)
    (ws : List Byte) : Sent s pre (vs ++ ws) (andThen r (Machine.sendAll ws)) := by
  induction ws generalizing vs r with
  | nil => simpa [Machine.sendAll, andThen_pure] using h
  | cons w ws ih =>
    have h1 := ih (h.send w id fun e => ⟨e.phase, e.work, rfl⟩)
    rw [andThen_assoc] at h1
    simpa [Machine.sendAll] using h1

theorem Sent.sendData {s : State} {pre : List ByteEvent} {vs : List Byte} {r : Bool × State} (h : Sent s pre vs r)
    (i : Nat) (ws : List Byte) : Sent s pre (vs ++ ws) (andThen r (Machine.sendData i ws)) := by
  induction ws generalizing vs r i with
  | nil => simpa [Machine.sendData, andThen_pure] using h
  | cons w ws ih =>
    have h1 := ih (h.send w (setIndex i) fun e => ⟨e.phase, _, rfl⟩) (i + 1)
    rw [andThen_assoc] at h1
    simpa [Machine.sendData] using h1

/-- The sub-address bytes (R145, R146). -/
theorem Sent.subAddr {s : State} {pre : List ByteEvent} {vs : List Byte} {r : Bool × State} (h : Sent s pre vs r)
    (sub : SubAddr) : Sent s pre (vs ++ subBytes sub) (andThen r (sendSubAddr sub)) := by
  have h1 := (h.set (setPhase .subaddr) fun e => ⟨_, e.work, rfl⟩).sendAll (subBytes sub)
  simp only [andThen_assoc, andThen_true] at h1
  exact h1

/-- The payload bytes (R143, R145). -/
theorem Sent.payload {s : State} {pre : List ByteEvent} {vs : List Byte} {r : Bool × State} (h : Sent s pre vs r)
    (ws : List Byte) : Sent s pre (vs ++ ws) (andThen r (sendPayload ws)) := by
  have h1 := (h.set (setPhase .data) fun e => ⟨_, e.work, rfl⟩).sendData 0 ws
  simp only [andThen_assoc, andThen_true] at h1
  exact h1

/-! ### The data loop of a read -/

/-- The buffer with n bytes received from answer k on stored from index i on. -/
def storeGot (s : State) : Nat → Nat → Nat → Memory → Memory
  | _, _, 0, m => m
  | k, i, n + 1, m => storeGot s (k + 8) (i + 1) n (Memory.write i (byteAt s k) m)

theorem read_storeGot (s : State) (k i n : Nat) (m : Memory) (j : Nat) : Memory.read (storeGot s k i n m) j =
    if i ≤ j ∧ j < i + n then some (byteAt s (k + 8 * (j - i))) else Memory.read m j := by
  induction n generalizing k i m with
  | zero => rw [storeGot, if_neg (by omega)]
  | succ n ih =>
    rw [storeGot, ih, Memory.read_write]
    by_cases h0 : j = i
    · subst h0; simp
    · by_cases h1 : i + 1 ≤ j ∧ j < i + 1 + n
      · have h2 : i ≤ j ∧ j < i + (n + 1) := by omega
        have h3 : k + 8 + 8 * (j - (i + 1)) = k + 8 * (j - i) := by omega
        rw [if_pos h1, if_pos h2, h3]
      · have h2 : ¬ (i ≤ j ∧ j < i + (n + 1)) := by omega
        rw [if_neg h1, if_neg h2, if_neg h0]

theorem good_storeGot {s : State} {b k i n : Nat} {m : Memory} (h : Memory.Good b m) (hi : i + n ≤ b) :
    Memory.Good b (storeGot s k i n m) := by
  induction n generalizing k i m with
  | zero => exact h
  | succ n ih => exact ih (h.write (by omega)) (by omega)

/-- The data loop of READ_BODY, from a held bus (R144). -/
theorem receiveData_effect (n i : Nat) (e : Effect) (s : State) (hl : e.scl = .low) (hr : e.sda = .released) :
    ∃ w, receiveData n i (effect e s) = effect { e with
      events := e.events ++ byteTraceEvents s.cfg.halfPeriod (gotTrace s e.draws n)
      draws := e.draws + 8 * n
      work := w
      dbuf := storeGot s e.draws i n e.dbuf } s := by
  induction n generalizing i e with
  | zero => exact ⟨e.work, by simp [receiveData, gotTrace, byteTraceEvents, storeGot]⟩
  | succ n ih =>
    have hb : heardByte (setIndex i (effect e s)) = byteAt s e.draws := by
      rw [heardByte_released (by simpa using hr), setIndex_effect, byteAt_effect]; rfl
    have hd : heardDraws (setIndex i (effect e s)) 8 = 8 := by simp [heardDraws, hr]
    rw [receiveData, readByteSeq_eq]
    simp only [hb, hd]
    simp only [setIndex_effect, effect_effect, dbufWrite_effect, Effect.seq]
    obtain ⟨w, hw⟩ := ih (i + 1) {
      events := e.events ++ (ByteEvent.got (byteAt s e.draws) (!(n == 0))).events s.cfg.halfPeriod
      draws := e.draws + 8, scl := .low, sda := .released, busOpen := e.busOpen, phase := e.phase
      work := { shift := byteAt s e.draws, bitcnt := 8, index := BitVec.ofNat 32 i }
      dbuf := Memory.write i (byteAt s e.draws) e.dbuf } rfl rfl
    refine ⟨w, ?_⟩
    refine Eq.trans hw ?_
    have hn : (!(n == 0)) = (n != 0) := rfl
    have h8 : e.draws + 8 + 8 * n = e.draws + 8 * (n + 1) := by omega
    simp [hn, h8, gotTrace, byteTraceEvents, storeGot, hl, hr]

end Sys2Proof.Machine
end

