-- ==== Sys2Proof/Laws/Commands.lean ====
section
/-! SUPPORT. What each command of the orchestrator and the scanner leaves, as one equation over the state it runs
in; the fields of a command's end. -/

namespace Sys2Proof.Machine

/-! ### The end of a transaction -/

@[simp] theorem concludeWrite_par (r : Bool × State) : (concludeWrite r).par = r.2.par := by
  unfold concludeWrite; split <;> rfl
@[simp] theorem concludeWrite_drvScl (r : Bool × State) : (concludeWrite r).drvScl = r.2.drvScl := by
  unfold concludeWrite; split <;> rfl
@[simp] theorem concludeWrite_drvSda (r : Bool × State) : (concludeWrite r).drvSda = r.2.drvSda := by
  unfold concludeWrite; split <;> rfl
@[simp] theorem concludeWrite_cfg (r : Bool × State) : (concludeWrite r).cfg = r.2.cfg := by
  unfold concludeWrite; split <;> rfl
@[simp] theorem concludeWrite_arg (r : Bool × State) : (concludeWrite r).arg = r.2.arg := by
  unfold concludeWrite; split <;> rfl
@[simp] theorem concludeWrite_len (r : Bool × State) : (concludeWrite r).len = r.2.len := by
  unfold concludeWrite; split <;> rfl
@[simp] theorem concludeWrite_cmd (r : Bool × State) : (concludeWrite r).cmd = r.2.cmd := by
  unfold concludeWrite; split <;> rfl
@[simp] theorem concludeWrite_busy (r : Bool × State) : (concludeWrite r).busy = false := by
  unfold concludeWrite; split <;> rfl
@[simp] theorem concludeWrite_res (r : Bool × State) : (concludeWrite r).res = { r.2.res with
    count := if r.1 then r.2.len else Config.freeBits 32 r.2.draws.freeCtr, status := statusOf r.1 } := by
  obtain ⟨b, t⟩ := r; cases b <;> rfl
@[simp] theorem concludeWrite_scan (r : Bool × State) : (concludeWrite r).scan = r.2.scan := by
  unfold concludeWrite; split <;> rfl
@[simp] theorem concludeWrite_busOpen (r : Bool × State) : (concludeWrite r).busOpen = r.2.busOpen := by
  unfold concludeWrite; split <;> rfl
@[simp] theorem concludeWrite_csActive (r : Bool × State) : (concludeWrite r).csActive = r.2.csActive := by
  unfold concludeWrite; split <;> rfl
@[simp] theorem concludeWrite_phase (r : Bool × State) : (concludeWrite r).phase = .idle := by
  unfold concludeWrite; split <;> rfl
@[simp] theorem concludeWrite_mpc (r : Bool × State) : (concludeWrite r).mpc = none := by
  unfold concludeWrite; split <;> rfl
@[simp] theorem concludeWrite_dbuf (r : Bool × State) : (concludeWrite r).dbuf = r.2.dbuf := by
  unfold concludeWrite; split <;> rfl
@[simp] theorem concludeWrite_held (r : Bool × State) :
    (concludeWrite r).held = { r.2.held with status := true, count := true } := by
  unfold concludeWrite; split <;> rfl
@[simp] theorem concludeWrite_trace (r : Bool × State) : (concludeWrite r).trace =
    { cmd := r.2.cmd, event := .complete (statusOf r.1) } :: r.2.trace := by
  obtain ⟨b, t⟩ := r; cases b <;> rfl
@[simp] theorem concludeWrite_env (r : Bool × State) : (concludeWrite r).draws.env = r.2.draws.env := by
  unfold concludeWrite; split <;> rfl
@[simp] theorem concludeWrite_envCtr (r : Bool × State) : (concludeWrite r).draws.envCtr = r.2.draws.envCtr := by
  unfold concludeWrite; split <;> rfl
@[simp] theorem concludeWrite_hostQ (r : Bool × State) : (concludeWrite r).hostQ = r.2.hostQ := by
  unfold concludeWrite; split <;> rfl
@[simp] theorem concludeWrite_hostSaw (r : Bool × State) : (concludeWrite r).hostSaw = r.2.hostSaw := by
  unfold concludeWrite; split <;> rfl

/-- A reading transaction ends as a writing one does, after the cleanup of its buffer if it failed (R150). -/
theorem concludeRead_eq (r : Bool × State) : concludeRead r =
    concludeWrite (r.1, if r.1 then r.2 else abortCleanup r.2.len.toNat 0 r.2) := by
  obtain ⟨b, t⟩ := r
  cases b
  · simp [concludeRead, concludeWrite]
  · simp [concludeRead, concludeWrite]

@[simp] theorem concludeRead_par (r : Bool × State) : (concludeRead r).par = r.2.par := by
  rw [concludeRead_eq]; cases h : r.1 <;> simp [abortCleanup_eq]
@[simp] theorem concludeRead_drvScl (r : Bool × State) : (concludeRead r).drvScl = r.2.drvScl := by
  rw [concludeRead_eq]; cases h : r.1 <;> simp [abortCleanup_eq]
@[simp] theorem concludeRead_drvSda (r : Bool × State) : (concludeRead r).drvSda = r.2.drvSda := by
  rw [concludeRead_eq]; cases h : r.1 <;> simp [abortCleanup_eq]
@[simp] theorem concludeRead_cfg (r : Bool × State) : (concludeRead r).cfg = r.2.cfg := by
  rw [concludeRead_eq]; cases h : r.1 <;> simp [abortCleanup_eq]
@[simp] theorem concludeRead_arg (r : Bool × State) : (concludeRead r).arg = r.2.arg := by
  rw [concludeRead_eq]; cases h : r.1 <;> simp [abortCleanup_eq]
@[simp] theorem concludeRead_len (r : Bool × State) : (concludeRead r).len = r.2.len := by
  rw [concludeRead_eq]; cases h : r.1 <;> simp [abortCleanup_eq]
@[simp] theorem concludeRead_cmd (r : Bool × State) : (concludeRead r).cmd = r.2.cmd := by
  rw [concludeRead_eq]; cases h : r.1 <;> simp [abortCleanup_eq]
@[simp] theorem concludeRead_busy (r : Bool × State) : (concludeRead r).busy = false := by
  rw [concludeRead_eq]; simp
/-- RES_COUNT after a failed read is a free value drawn after those of the buffer. -/
@[simp] theorem concludeRead_res (r : Bool × State) : (concludeRead r).res = { r.2.res with
    count := if r.1 then r.2.len else Config.freeBits 32 (r.2.draws.freeCtr + r.2.len.toNat)
    status := statusOf r.1 } := by
  rw [concludeRead_eq]; cases h : r.1 <;> simp [abortCleanup_eq]
@[simp] theorem concludeRead_scan (r : Bool × State) : (concludeRead r).scan = r.2.scan := by
  rw [concludeRead_eq]; cases h : r.1 <;> simp [abortCleanup_eq]
@[simp] theorem concludeRead_busOpen (r : Bool × State) : (concludeRead r).busOpen = r.2.busOpen := by
  rw [concludeRead_eq]; cases h : r.1 <;> simp [abortCleanup_eq]
@[simp] theorem concludeRead_csActive (r : Bool × State) : (concludeRead r).csActive = r.2.csActive := by
  rw [concludeRead_eq]; cases h : r.1 <;> simp [abortCleanup_eq]
@[simp] theorem concludeRead_phase (r : Bool × State) : (concludeRead r).phase = .idle := by
  rw [concludeRead_eq]; simp
@[simp] theorem concludeRead_mpc (r : Bool × State) : (concludeRead r).mpc = none := by
  rw [concludeRead_eq]; simp
@[simp] theorem concludeRead_dbuf (r : Bool × State) : (concludeRead r).dbuf =
    if r.1 then r.2.dbuf else freeStore r.2.draws.freeCtr r.2.len.toNat 0 r.2.dbuf := by
  rw [concludeRead_eq]; cases h : r.1 <;> simp [abortCleanup_eq]
@[simp] theorem concludeRead_held (r : Bool × State) :
    (concludeRead r).held = { r.2.held with status := true, count := true } := by
  rw [concludeRead_eq]; cases h : r.1 <;> simp [abortCleanup_eq]
@[simp] theorem concludeRead_trace (r : Bool × State) : (concludeRead r).trace =
    { cmd := r.2.cmd, event := .complete (statusOf r.1) } :: r.2.trace := by
  rw [concludeRead_eq]; cases h : r.1 <;> simp [abortCleanup_eq]
@[simp] theorem concludeRead_env (r : Bool × State) : (concludeRead r).draws.env = r.2.draws.env := by
  rw [concludeRead_eq]; cases h : r.1 <;> simp [abortCleanup_eq]
@[simp] theorem concludeRead_envCtr (r : Bool × State) : (concludeRead r).draws.envCtr = r.2.draws.envCtr := by
  rw [concludeRead_eq]; cases h : r.1 <;> simp [abortCleanup_eq]
@[simp] theorem concludeRead_hostQ (r : Bool × State) : (concludeRead r).hostQ = r.2.hostQ := by
  rw [concludeRead_eq]; cases h : r.1 <;> simp [abortCleanup_eq]
@[simp] theorem concludeRead_hostSaw (r : Bool × State) : (concludeRead r).hostSaw = r.2.hostSaw := by
  rw [concludeRead_eq]; cases h : r.1 <;> simp [abortCleanup_eq]

/-- The end of a command takes no answer (R24, R104). -/
theorem AnswersTaken.finish {n : Nat} {s t : State} (h : AnswersTaken n s t) (st : Status) :
    AnswersTaken n s (Machine.finish st t) := h.congr rfl rfl

theorem AnswersTaken.concludeWrite {n : Nat} {s : State} {r : Bool × State} (h : AnswersTaken n s r.2) :
    AnswersTaken n s (Machine.concludeWrite r) := h.congr (by simp) (by simp)

theorem AnswersTaken.concludeRead {n : Nat} {s : State} {r : Bool × State} (h : AnswersTaken n s r.2) :
    AnswersTaken n s (Machine.concludeRead r) := h.congr (by simp) (by simp)

theorem eventsOf_concludeWrite (r : Bool × State) :
    eventsOf (concludeWrite r) = eventsOf r.2 ++ [.complete (statusOf r.1)] := by simp [eventsOf]

theorem eventsOf_concludeRead (r : Bool × State) :
    eventsOf (concludeRead r) = eventsOf r.2 ++ [.complete (statusOf r.1)] := by simp [eventsOf]

/-! ### Symbols and answers seen later -/

theorem gotTrace_effect (e : Effect) (s : State) (k n : Nat) :
    gotTrace (effect e s) k n = gotTrace s (e.draws + k) n := by
  induction n generalizing k with
  | zero => rfl
  | succ n ih => simp [gotTrace, byteAt_effect, ih, Nat.add_assoc]

theorem storeGot_effect (e : Effect) (s : State) (k i n : Nat) (m : Memory) :
    storeGot (effect e s) k i n m = storeGot s (e.draws + k) i n m := by
  induction n generalizing k i m with
  | zero => rfl
  | succ n ih => simp [storeGot, byteAt_effect, ih, Nat.add_assoc]

/-! ### WRITE and WRITE_MEM -/

/-- The end of a writing transaction that leaves the bus held or not. -/
theorem Sent.close {s : State} {pre : List ByteEvent} {vs : List Byte} {r : Bool × State} (h : Sent s pre vs r)
    (sendStop : Bool) :
    ∃ p w, andThen r (fun t => (true, closeWrite sendStop t)) = (acked s 0 vs.length, effect {
      events := byteTraceEvents s.cfg.halfPeriod
        (pre ++ sentTrace s 0 vs ++ if acked s 0 vs.length && !sendStop then [] else [.stop])
      draws := (sentTrace s 0 vs).length
      scl := if acked s 0 vs.length && !sendStop then .low else .released
      sda := .released
      busOpen := acked s 0 vs.length && !sendStop
      phase := p, work := w, dbuf := s.dbuf } s) := by
  obtain ⟨b, t⟩ := r
  obtain ⟨hok, p, w, ht⟩ := h
  simp only at hok ht
  subst ht
  cases hb : acked s 0 vs.length <;> rw [hb] at hok <;> subst hok
  · exact ⟨p, w, by simp [andThen]⟩
  · cases sendStop
    · exact ⟨.idle, w, by simp [andThen, closeWrite]⟩
    · refine ⟨.idle, w, ?_⟩
      simp [andThen, closeWrite, stopSeq_eq, effect_effect, Effect.seq, byteTraceEvents, ByteEvent.events]

/-- WRITE (R143). -/
theorem execWrite_eq {s : State} {bytes : List Byte} (a : Addr) (sendStop : Bool) (ha : admitted s = true)
    (hl : lenFits s = true) (hp : payload s = some bytes) :
    ∃ p w, exec (.write sendStop a) s = .next (concludeWrite (acked s 0 (bytes.length + 1), effect {
      events := byteTraceEvents s.cfg.halfPeriod (.start :: (sentTrace s 0 (addrByte a rwWrite :: bytes) ++
        if acked s 0 (bytes.length + 1) && !sendStop then [] else [.stop]))
      draws := (sentTrace s 0 (addrByte a rwWrite :: bytes)).length
      scl := if acked s 0 (bytes.length + 1) && !sendStop then .low else .released
      sda := .released
      busOpen := acked s 0 (bytes.length + 1) && !sendStop
      phase := p, work := w, dbuf := s.dbuf } s)) := by
  obtain ⟨p, w, h⟩ := (((Sent.opened a rwWrite s).payload bytes).close sendStop)
  simp only [andThen_assoc, List.singleton_append] at h
  exact ⟨p, w, by simp only [exec, execWrite, ifAdmitted, ha, withLen, hl, withPayload, hp, if_true, h]; rfl⟩

/-- WRITE_MEM (R145). -/
theorem execWriteMem_eq {s : State} {bytes : List Byte} (a : Addr) (sub : SubAddr) (ha : admitted s = true)
    (hl : lenFits s = true) (hp : payload s = some bytes) :
    ∃ p w, exec (.writeMem a sub) s = .next (concludeWrite
      (acked s 0 (addrByte a rwWrite :: (subBytes sub ++ bytes)).length, effect {
        events := byteTraceEvents s.cfg.halfPeriod
          (.start :: (sentTrace s 0 (addrByte a rwWrite :: (subBytes sub ++ bytes)) ++ [.stop]))
        draws := (sentTrace s 0 (addrByte a rwWrite :: (subBytes sub ++ bytes))).length
        scl := .released, sda := .released, busOpen := false
        phase := p, work := w, dbuf := s.dbuf } s)) := by
  obtain ⟨p, w, h⟩ := ((((Sent.opened a rwWrite s).subAddr sub).payload bytes).close true)
  simp only [andThen_assoc, List.cons_append, Bool.not_true, Bool.and_false,
    Bool.false_eq_true, if_false] at h
  refine ⟨p, w, ?_⟩
  simp only [exec, execWriteMem, ifAdmitted, ha, withLen, hl, withPayload, hp, if_true]
  exact congrArg (fun r => Host.Outcome.next (concludeWrite r)) h

/-! ### READ and READ_MEM -/

/-- READ_BODY (R144). -/
theorem readBody_eq (a : Addr) (s : State) : ∃ p w, readBody a s = (ackAt s 0, effect {
    events := byteTraceEvents s.cfg.halfPeriod (.start :: .wrote (addrByte a rwRead) (ackAt s 0) ::
      ((if ackAt s 0 then gotTrace s 1 s.len.toNat else []) ++ [.stop]))
    draws := 1 + if ackAt s 0 then 8 * s.len.toNat else 0
    scl := .released, sda := .released, busOpen := false, phase := p, work := w
    dbuf := if ackAt s 0 then storeGot s 1 0 s.len.toNat s.dbuf else s.dbuf } s) := by
  have h1 := Sent.opened a rwRead s
  obtain ⟨hok, p, w, ht⟩ := h1
  have hk : acked s 0 1 = ackAt s 0 := by simp [acked]
  rw [readBody]
  generalize openTransaction a rwRead s = r at hok ht
  obtain ⟨b, t⟩ := r
  simp only [List.length_singleton, hk] at hok ht
  subst hok ht
  cases hb : ackAt s 0
  · exact ⟨p, w, by simp [andThen, sentTrace, hb]⟩
  · simp only [andThen, if_true, effect_len, setPhase_effect]
    obtain ⟨w', hw⟩ := receiveData_effect s.len.toNat 0 {
      events := byteTraceEvents s.cfg.halfPeriod ([.start] ++ sentTrace s 0 [addrByte a rwRead] ++ [])
      draws := (sentTrace s 0 [addrByte a rwRead]).length
      scl := .low, sda := .released, busOpen := true, phase := .data, work := w, dbuf := s.dbuf } s rfl rfl
    rw [hw]
    refine ⟨.idle, w', ?_⟩
    simp [stopSeq_eq, effect_effect, Effect.seq, sentTrace, hb, byteTraceEvents, ByteEvent.events]

/-- READ (R144). -/
theorem execRead_eq {s : State} (a : Addr) (ha : admitted s = true)
    (hl : lenFits s = true) (h0 : ¬ (s.len = 0 ∧ s.par.read0Mode = .nobus)) :
    ∃ p w, exec (.read a) s = .next (concludeRead (ackAt s 0, effect {
      events := byteTraceEvents s.cfg.halfPeriod (.start :: .wrote (addrByte a rwRead) (ackAt s 0) ::
        ((if ackAt s 0 then gotTrace s 1 s.len.toNat else []) ++ [.stop]))
      draws := 1 + if ackAt s 0 then 8 * s.len.toNat else 0
      scl := .released, sda := .released, busOpen := false, phase := p, work := w
      dbuf := if ackAt s 0 then storeGot s 1 0 s.len.toNat s.dbuf else s.dbuf } s)) := by
  obtain ⟨p, w, h⟩ := readBody_eq a s
  exact ⟨p, w, by simp only [exec, execRead, ifAdmitted, ha, withLen, hl, if_true, if_neg h0, h]⟩

/-- A read of no bytes that does not use the bus (R144, R146). -/
theorem execRead_empty {s : State} (a : Addr) (ha : admitted s = true)
    (hl : lenFits s = true) (h0 : s.len = 0 ∧ s.par.read0Mode = .nobus) : exec (.read a) s = .next (emptyRead s) := by
  simp only [exec, execRead, ifAdmitted, ha, withLen, hl, if_true, if_pos h0]

/-- A READ_MEM of no bytes (R146). -/
theorem execReadMem_empty {s : State} (a : Addr) (sub : SubAddr) (ha : admitted s = true)
    (hl : lenFits s = true) (h0 : s.len = 0) :
    exec (.readMem a sub) s = .next (emptyRead s) := by
  simp only [exec, execReadMem, ifAdmitted, ha, withLen, hl, if_true, if_pos h0]

/-- READ_MEM (R146); n is the number of bytes sent before the repeated start. -/
theorem execReadMem_eq {s : State} (a : Addr) (sub : SubAddr) (ha : admitted s = true)
    (hl : lenFits s = true) (h0 : s.len ≠ 0) {n : Nat}
    (hn : n = (addrByte a rwWrite :: subBytes sub).length) :
    ∃ p w, exec (.readMem a sub) s = .next (concludeRead (acked s 0 (n + 1), effect {
      events := byteTraceEvents s.cfg.halfPeriod
        (.start :: (sentTrace s 0 (addrByte a rwWrite :: subBytes sub) ++
          (if acked s 0 n then .start :: .wrote (addrByte a rwRead) (ackAt s n) ::
            (if acked s 0 (n + 1) then gotTrace s (n + 1) s.len.toNat else []) else []) ++ [.stop]))
      draws := (sentTrace s 0 (addrByte a rwWrite :: subBytes sub)).length +
        if acked s 0 n then 1 + (if acked s 0 (n + 1) then 8 * s.len.toNat else 0) else 0
      scl := .released, sda := .released, busOpen := false, phase := p, work := w
      dbuf := if acked s 0 (n + 1) then storeGot s (n + 1) 0 s.len.toNat s.dbuf else s.dbuf } s)) := by
  obtain ⟨hok, p, w, ht⟩ := (Sent.opened a rwWrite s).subAddr sub
  have h1 : exec (.readMem a sub) s = .next (concludeRead
      (andThen (andThen (openTransaction a rwWrite s) (sendSubAddr sub)) (readBody a))) := by
    simp only [exec, execReadMem, ifAdmitted, ha, withLen, hl, if_true, if_neg h0, andThen_assoc]
  rw [h1]
  generalize andThen (openTransaction a rwWrite s) (sendSubAddr sub) = r at hok ht
  obtain ⟨b, t⟩ := r
  simp only [List.singleton_append, ← hn] at hok ht
  subst hok ht
  cases hb : acked s 0 n
  · refine ⟨p, w, ?_⟩
    simp only [andThen, acked_succ, hb, Bool.false_and, Bool.false_eq_true, if_false, List.append_nil]
    rfl
  · have hlen : (sentTrace s 0 (addrByte a rwWrite :: subBytes sub)).length = n := by
      rw [hn]; exact length_sentTrace (hn ▸ hb)
    simp only [andThen, if_true]
    generalize he : (Effect.mk _ _ _ _ _ _ _ _) = e
    have hd : e.draws = n := by rw [← he]; exact hlen
    have hm : e.dbuf = s.dbuf := by rw [← he]
    have hv : e.events = byteTraceEvents s.cfg.halfPeriod
        (.start :: sentTrace s 0 (addrByte a rwWrite :: subBytes sub)) := by rw [← he]; simp
    obtain ⟨p', w', hr⟩ := readBody_eq a (effect e s)
    rw [hr]
    refine ⟨p', w', ?_⟩
    simp only [hlen, effect_effect, ackAt_effect, gotTrace_effect, storeGot_effect, effect_cfg, effect_len,
      effect_dbuf, Effect.seq, hd, hm, hv, acked_succ, hb, Bool.true_and, Nat.zero_add, Nat.add_zero]
    simp [byteTraceEvents]

/-! ### PING and SCAN -/

/-- The body of PING and of each probe (R147, R170). -/
theorem probe_eq (a : Addr) (s : State) : probe a s = (ackAt s 0, effect {
    events := byteTraceEvents s.cfg.halfPeriod [.start, .wrote (addrByte a rwWrite) (ackAt s 0), .stop]
    draws := 1, scl := .released, sda := .released, busOpen := false, phase := .idle, work := s.work
    dbuf := s.dbuf } s) := by
  have h : ackAt (setPhase .address (startSeq (setPhase .start s))) 0 = ackAt s 0 := by
    rw [startSeq_eq]; simp [ackAt_effect]
  rw [probe, writeByteSeq_eq, h, startSeq_eq]
  simp [stopSeq_eq, effect_effect, Effect.seq, byteTraceEvents, ByteEvent.events]

/-- The addresses a SCAN has listed after n probes from answer k on, the first one probing address b. -/
def foundAddrs (s : State) (b k n : Nat) : List Addr :=
  ((List.range n).filter fun j => ackAt s (k + j)).map fun j => BitVec.ofNat 7 (b + j)

theorem foundAddrs_succ (s : State) (b k n : Nat) : foundAddrs s b k (n + 1) =
    (if ackAt s k then [BitVec.ofNat 7 b] else []) ++ foundAddrs s (b + 1) (k + 1) n := by
  cases hk : ackAt s k <;>
    simp [foundAddrs, List.range_succ_eq_map, List.filter_map, List.map_map, Function.comp_def, hk, Nat.add_assoc,
      Nat.add_comm 1]

theorem length_foundAddrs_le (s : State) (b k n : Nat) : (foundAddrs s b k n).length ≤ n := by
  simpa [foundAddrs] using List.length_filter_le (fun j => ackAt s (k + j)) (List.range n)

/-- Listing addresses one after another (R170). -/
def listAll : List Addr → State → State
  | [], s => s
  | a :: as, s => listAll as (listAddr a s)

theorem listAll_eq (as : List Addr) (s : State) : listAll as s = { s with scan := (listAll as s).scan } := by
  induction as generalizing s with
  | nil => rfl
  | cons a as ih => rw [listAll, ih]; rfl

theorem listAll_append (as bs : List Addr) (s : State) : listAll (as ++ bs) s = listAll bs (listAll as s) := by
  induction as generalizing s with
  | nil => rfl
  | cons a as ih => simp [listAll, ih]

/-- SCAN_COUNT and SCAN_LIST after listing addresses, as long as they fit (R37, R170). -/
theorem scan_listAll (as : List Addr) (s : State) (h : s.scan.count.toNat + as.length ≤ 120) :
    (listAll as s).scan.count.toNat = s.scan.count.toNat + as.length ∧
    ∀ (k : Nat) (hk : k < 120), (listAll as s).scan.list[k] =
      if k < s.scan.count.toNat then s.scan.list[k]
      else (as[k - s.scan.count.toNat]?).getD s.scan.list[k] := by
  induction as generalizing s with
  | nil => simp [listAll]
  | cons a as ih =>
    simp only [List.length_cons] at h
    have hc : (listAddr a s).scan.count.toNat = s.scan.count.toNat + 1 := by
      have h1 : BitVec.toNat (1 : BitVec 8) = 1 := rfl
      simp only [listAddr, BitVec.toNat_add, h1]; omega
    obtain ⟨h1, h2⟩ := ih (listAddr a s) (by omega)
    refine ⟨by rw [listAll, h1, hc, List.length_cons]; omega, fun k hk => ?_⟩
    have hg : (listAddr a s).scan.list[k] = if s.scan.count.toNat = k then a else s.scan.list[k] := by
      simp [listAddr, Vector.getElem_setIfInBounds]
    rw [listAll, h2 k hk, hc, hg]
    rcases Nat.lt_trichotomy k s.scan.count.toNat with hlt | heq | hgt
    · rw [if_pos (by omega), if_pos hlt, if_neg (by omega)]
    · rw [if_pos (show k < s.scan.count.toNat + 1 by omega), if_pos heq.symm,
        if_neg (show ¬ k < s.scan.count.toNat by omega), show k - s.scan.count.toNat = 0 by omega]; rfl
    · have : k - s.scan.count.toNat = (k - (s.scan.count.toNat + 1)) + 1 := by omega
      rw [if_neg (show ¬ k < s.scan.count.toNat + 1 by omega), if_neg (show ¬ s.scan.count.toNat = k by omega),
        if_neg (show ¬ k < s.scan.count.toNat by omega), this, List.getElem?_cons_succ]

@[simp] theorem listAll_held (as : List Addr) (s : State) : (listAll as s).held = s.held := by rw [listAll_eq]

theorem listAddr_effect (a : Addr) (e : Effect) (s : State) : listAddr a (effect e s) = effect e (listAddr a s) := rfl

theorem listAll_effect (as : List Addr) (e : Effect) (s : State) :
    listAll as (effect e s) = effect e (listAll as s) := by
  induction as generalizing s with
  | nil => rfl
  | cons a as ih => rw [listAll, listAddr_effect, ih]; rfl

theorem ackAt_listAll (as : List Addr) (s : State) (k : Nat) : ackAt (listAll as s) k = ackAt s k := by
  rw [listAll_eq]; rfl

/-- The symbols of n probes from address b on, the first one taking answer k (R170, R171). -/
def probeTrace (s : State) (b k n : Nat) : List ByteEvent :=
  (List.range n).flatMap fun j =>
    [.start, .wrote (addrByte (BitVec.ofNat 7 (b + j)) rwWrite) (ackAt s (k + j)), .stop]

theorem probeTrace_succ (s : State) (b k n : Nat) : probeTrace s b k (n + 1) =
    [.start, .wrote (addrByte (BitVec.ofNat 7 b) rwWrite) (ackAt s k), .stop] ++
      probeTrace s (b + 1) (k + 1) n := by
  simp [probeTrace, List.range_succ_eq_map, List.flatMap_map, Nat.add_assoc, Nat.add_comm 1]

/-- A probe loop keeps the contract from any clean state but STARTED (R125, R170). -/
theorem contractKept_probes {p : Drive × Drive} (hp : p ≠ (.released, .low)) (s : State) (b k n : Nat) :
    contractKept p (probeTrace s b k n) = true := by
  induction n generalizing p b k with
  | zero => rfl
  | succ n ih =>
    rw [probeTrace_succ]
    simpa [contractKept, hp] using ih (by decide) (b + 1) (k + 1)

theorem conditionsOf_probes (s : State) (b k n : Nat) :
    conditionsOf (probeTrace s b k n) = (List.replicate n [Edge.start, Edge.stop]).flatten := by
  induction n generalizing b k with
  | zero => rfl
  | succ n ih => rw [probeTrace_succ, conditionsOf_append, ih]; rfl

/-- One probe (R170). -/
theorem scanOne_eq (a : Addr) (s : State) : scanOne a s = effect {
    events := byteTraceEvents s.cfg.halfPeriod [.start, .wrote (addrByte a rwWrite) (ackAt s 0), .stop]
    draws := 1, scl := .released, sda := .released, busOpen := false, phase := .idle, work := s.work
    dbuf := s.dbuf } (listAll (if ackAt s 0 then [a] else []) s) := by
  unfold scanOne
  rw [probe_eq]
  cases h : ackAt s 0 <;> simp [listAll, listAddr_effect]

/-- n + 1 probes of consecutive addresses (R170, R171). -/
theorem scanAll_eq (n b : Nat) (s : State) : scanAll ((List.range' b (n + 1)).map (BitVec.ofNat 7)) s = effect {
    events := byteTraceEvents s.cfg.halfPeriod (probeTrace s b 0 (n + 1))
    draws := n + 1, scl := .released, sda := .released, busOpen := false, phase := .idle, work := s.work
    dbuf := s.dbuf } (listAll (foundAddrs s b 0 (n + 1)) s) := by
  induction n generalizing b s with
  | zero => cases h : ackAt s 0 <;> simp [scanAll, scanOne_eq, probeTrace, foundAddrs, h]
  | succ n ih =>
    rw [List.range'_succ, List.map_cons, scanAll, ih]
    generalize hL : (if ackAt s 0 then [(BitVec.ofNat 7 b : Addr)] else []) = L
    have hs := scanOne_eq (BitVec.ofNat 7 b) s
    rw [hL] at hs
    generalize he : Effect.mk _ _ _ _ _ _ _ _ = e at hs
    have hd : e.draws = 1 := by rw [← he]
    have hack (k : Nat) : ackAt (scanOne (BitVec.ofNat 7 b) s) k = ackAt s (1 + k) := by
      rw [hs, ackAt_effect, ackAt_listAll, hd]
    have hf (c k m : Nat) : foundAddrs (scanOne (BitVec.ofNat 7 b) s) c k m = foundAddrs s c (1 + k) m := by
      simp [foundAddrs, hack, Nat.add_assoc]
    have hp (c k m : Nat) : probeTrace (scanOne (BitVec.ofNat 7 b) s) c k m = probeTrace s c (1 + k) m := by
      simp [probeTrace, hack, Nat.add_assoc]
    rw [hf, hp, foundAddrs_succ s b, probeTrace_succ s b, listAll_append, hL]
    have hcfg : (scanOne (BitVec.ofNat 7 b) s).cfg = s.cfg := by rw [hs, listAll_eq]; rfl
    have hwork : (scanOne (BitVec.ofNat 7 b) s).work = s.work := by rw [hs, ← he]; rfl
    have hdbuf : (scanOne (BitVec.ofNat 7 b) s).dbuf = s.dbuf := by rw [hs, ← he]; rfl
    rw [hcfg, hwork, hdbuf, hs, listAll_effect, effect_effect]
    simp only [Effect.seq, ← he, byteTraceEvents_append, Nat.add_comm 1]

/-- SCAN up to its end (R170). -/
theorem scanAll_scanAddrs (s : State) : scanAll (scanAddrs s.par) (clearScan s) =
    let n := scanEndOf s.par - scanFirst
    effect {
      events := byteTraceEvents s.cfg.halfPeriod (probeTrace s scanFirst 0 n)
      draws := n, scl := .released, sda := .released, busOpen := false, phase := .idle, work := s.work
      dbuf := s.dbuf } (listAll (foundAddrs s scanFirst 0 n) (clearScan s)) := by
  have hn : scanEndOf s.par - scanFirst = (scanEndOf s.par - scanFirst - 1) + 1 := by
    unfold scanEndOf scanFirst; cases s.par.scanEnd <;> rfl
  have hack (k : Nat) : ackAt (clearScan s) k = ackAt s k := rfl
  have hf (c k m : Nat) : foundAddrs (clearScan s) c k m = foundAddrs s c k m := rfl
  have hp (c k m : Nat) : probeTrace (clearScan s) c k m = probeTrace s c k m := rfl
  simp only
  rw [scanAddrs, hn, scanAll_eq, hf, hp]
  rfl

/-- SCAN (R170). -/
theorem execScan_eq {s : State} (ha : admitted s = true) : exec .scan s = .next (finish .ok (forgetScanTail (
    let n := scanEndOf s.par - scanFirst
    effect {
      events := byteTraceEvents s.cfg.halfPeriod (probeTrace s scanFirst 0 n)
      draws := n, scl := .released, sda := .released, busOpen := false, phase := .idle, work := s.work
      dbuf := s.dbuf } (listAll (foundAddrs s scanFirst 0 n) (clearScan s))))) := by
  simp only [exec, execScan, ifAdmitted, ha, if_true, scanAll_scanAddrs]

/-- The events of a SCAN before its completion. -/
theorem eventsOf_scan (s : State) (e : Effect) (as : List Addr) :
    eventsOf (forgetScanTail (effect e (listAll as s))) = eventsOf s ++ e.events := by
  simp only [eventsOf, forgetScanTail_trace]
  exact (eventsOf_effect _ _).trans (by rw [listAll_eq]; rfl)

/-- SCAN probes 112 addresses, or 113 with the alternative SCAN_END (R7, R171). -/
theorem scanCount_le (p : Params) : scanEndOf p - scanFirst ≤ 113 := by
  unfold scanEndOf scanFirst; cases p.scanEnd <;> decide

/-! ### The WAITs and brackets of the parts of a transaction (R247) -/

theorem counts_sentTrace {s : State} {k : Nat} {vs : List Byte} (h : acked s k vs.length = true) :
    ((sentTrace s k vs).map ByteEvent.waits).sum = 19 * vs.length ∧
    ((sentTrace s k vs).map ByteEvent.brackets).sum = 9 * vs.length := by
  induction vs using List.reverseRecOn with
  | nil => simp [sentTrace]
  | append_singleton vs v ih =>
    simp only [List.length_append, List.length_singleton, acked_succ, Bool.and_eq_true] at h
    have := ih h.1
    simp [sentTrace_append, h.1, this, ByteEvent.waits, ByteEvent.brackets]
    omega

theorem counts_gotTrace (s : State) (k n : Nat) :
    ((gotTrace s k n).map ByteEvent.waits).sum = 19 * n ∧
    ((gotTrace s k n).map ByteEvent.brackets).sum = 9 * n := by
  induction n generalizing k with
  | zero => simp [gotTrace]
  | succ n ih =>
    have := ih (k + 8)
    simp [gotTrace, this, ByteEvent.waits, ByteEvent.brackets]
    omega

theorem counts_probeTrace (s : State) (b k n : Nat) :
    ((probeTrace s b k n).map ByteEvent.waits).sum = 26 * n ∧
    ((probeTrace s b k n).map ByteEvent.brackets).sum = 11 * n := by
  induction n generalizing b k with
  | zero => simp [probeTrace]
  | succ n ih =>
    have := ih (b + 1) (k + 1)
    rw [probeTrace_succ]
    simp [this, ByteEvent.waits, ByteEvent.brackets]
    omega

end Sys2Proof.Machine
end

