-- ==== Sys2Proof/Laws/Decode.lean ====
section
/-! SUPPORT. The command word and its fields are two views of the same 32 bits; the operations and their OP values. -/

namespace Sys2Proof

/-- A word is its fields. -/
@[simp] theorem CommandFields.toWord_ofWord (w : Word) : (CommandFields.ofWord w).toWord = w := by
  simp only [CommandFields.toWord, CommandFields.ofWord]
  ext i hi
  simp only [BitVec.getElem_append, BitVec.getElem_extractLsb']
  simp only [← BitVec.getLsbD_eq_getElem]
  split <;> (try split) <;> (try split) <;> (try split) <;> (try split) <;> (try split) <;> congr 1 <;> omega

/-- The fields of a word made of fields are those fields. -/
@[simp] theorem CommandFields.ofWord_toWord (f : CommandFields) : CommandFields.ofWord f.toWord = f := by
  obtain ⟨op, s, n, l, rsv, a, imm⟩ := f
  simp only [CommandFields.toWord, CommandFields.ofWord, CommandFields.mk.injEq]
  refine ⟨?_, ?_, ?_, ?_, ?_, ?_, ?_⟩ <;> apply BitVec.eq_of_getLsbD_eq <;> intro i hi <;>
    simp only [BitVec.getLsbD_extractLsb', BitVec.getLsbD_append, hi, decide_true, Bool.true_and] <;>
    repeat' (first | rw [if_pos (by omega)] | rw [if_neg (by omega)])
  all_goals (congr 1; omega)

/-! ### Operations -/

@[simp] theorem Opcode.ofBits_bits (o : Opcode) : Opcode.ofBits o.bits = some o := by cases o <;> decide

/-- Only the OP value of an operation selects it (R75). -/
theorem Opcode.ofBits_eq_some {b : BitVec 5} {o : Opcode} : Opcode.ofBits b = some o ↔ b = o.bits := by
  constructor
  · intro h
    have := List.find?_some h
    simpa using (beq_iff_eq.mp this).symm
  · rintro rfl; simp

@[simp] theorem Instr.fields_op (i : Instr) : i.fields.op = i.opcode.bits := by cases i <;> rfl

@[simp] theorem Instr.fields_rsv (i : Instr) : i.fields.rsv = 0 := by cases i <;> rfl

theorem BitVec.setWidth_and_not_low (v : Byte) : (v.setWidth 16) &&& ~~~(0x00FF : BitVec 16) = 0 := by
  apply BitVec.eq_of_getLsbD_eq
  intro i hi
  have h : ∀ j < 16, (0x00FF : BitVec 16).getLsbD j = decide (j < 8) := by decide
  simp only [BitVec.getLsbD_and, BitVec.getLsbD_not, BitVec.getLsbD_setWidth, h i hi]
  by_cases h8 : i < 8
  · simp [h8]
  · simp [h8, BitVec.getLsbD_of_ge v i (by omega)]

/-- The word of an instruction has 0 in every field its operation does not use (R76). -/
@[simp] theorem Instr.fields_unused (i : Instr) : i.opcode.unusedFieldsZero i.fields = true := by
  cases i
  case writeByte v =>
    have := BitVec.setWidth_and_not_low v
    simp only [Opcode.unusedFieldsZero, Instr.opcode, Instr.fields, Opcode.immMask, this]
    rfl
  all_goals first | rfl | simp [Opcode.unusedFieldsZero, Instr.opcode, Instr.fields, Opcode.immMask,
    Opcode.bareFields, Opcode.usesS, Opcode.usesN, Opcode.usesL, Opcode.usesA]

@[simp] theorem flagOfBit_ofBool (b : Bool) : flagOfBit (BitVec.ofBool b) = b := by cases b <;> rfl

@[simp] theorem Line.ofBit_bit (l : Line) : Line.ofBit l.bit = l := by cases l <;> rfl

/-- An instruction is built from its own fields. -/
@[simp] theorem Opcode.build_fields (i : Instr) : i.opcode.build i.fields = i := by
  cases i
  case writeByte v =>
    simp only [Opcode.build, Instr.opcode, Instr.fields, Instr.writeByte.injEq]
    apply BitVec.eq_of_getLsbD_eq
    intro k hk
    have hk' : k < 16 := by omega
    simp [hk, hk']
  all_goals simp [Opcode.build, Instr.opcode, Instr.fields]

/-! ### The mask and match columns of R75 -/

/-- Two lists of fields taken bit by bit. -/
def CommandFields.and (f g : CommandFields) : CommandFields where
  op := f.op &&& g.op
  s := f.s &&& g.s
  n := f.n &&& g.n
  l := f.l &&& g.l
  rsv := f.rsv &&& g.rsv
  a := f.a &&& g.a
  imm := f.imm &&& g.imm

theorem CommandFields.toWord_and (f g : CommandFields) : f.toWord &&& g.toWord = (f.and g).toWord := by
  apply BitVec.eq_of_getLsbD_eq
  intro i _
  simp only [CommandFields.toWord, CommandFields.and, BitVec.getLsbD_and, BitVec.getLsbD_append]
  repeat' split
  all_goals rfl

theorem CommandFields.toWord_inj {f g : CommandFields} (h : f.toWord = g.toWord) : f = g := by
  have := congrArg CommandFields.ofWord h
  simpa using this

/-- The fields of an operation's mask: 0 where the word may have any bit. -/
def Opcode.maskFields (o : Opcode) : CommandFields where
  op := 31
  s := if o.usesS then 0 else 1
  n := if o.usesN then 0 else 1
  l := if o.usesL then 0 else 1
  rsv := 1
  a := if o.usesA then 0 else 127
  imm := ~~~ o.immMask

theorem Opcode.maskWord_eq (o : Opcode) : o.maskWord = o.maskFields.toWord := by cases o <;> decide

theorem Opcode.matchWord_eq (o : Opcode) : o.matchWord = o.bareFields.toWord := by cases o <;> decide

/-- A word is in an operation's row of R75 exactly when its OP is the operation's, RSV is 0 and every field the
operation does not use is 0 (R76, R77). -/
theorem Opcode.mask_match_iff (o : Opcode) (w : Word) : w &&& o.maskWord = o.matchWord ↔
    (CommandFields.ofWord w).op = o.bits ∧ (CommandFields.ofWord w).rsv = 0 ∧
      o.unusedFieldsZero (CommandFields.ofWord w) = true := by
  generalize hf : CommandFields.ofWord w = f
  obtain rfl : w = f.toWord := by rw [← hf, CommandFields.toWord_ofWord]
  have h1 (b : BitVec 1) : b &&& 1 = b := by revert b; decide
  have h5 (b : BitVec 5) : b &&& 31 = b := by revert b; decide
  have h7 (b : BitVec 7) : b &&& 127 = b := by revert b; decide
  rw [o.maskWord_eq, o.matchWord_eq, CommandFields.toWord_and]
  constructor
  · intro h
    have h := CommandFields.toWord_inj h
    simp only [CommandFields.and, Opcode.maskFields, Opcode.bareFields, CommandFields.mk.injEq, h1, h5] at h
    obtain ⟨hop, hs, hn, hl, hr, ha, hi⟩ := h
    refine ⟨hop, hr, ?_⟩
    simp only [Opcode.unusedFieldsZero, Bool.and_eq_true, Bool.or_eq_true, beq_iff_eq]
    refine ⟨⟨⟨⟨?_, ?_⟩, ?_⟩, ?_⟩, hi⟩
    · cases hu : o.usesS <;> simp_all
    · cases hu : o.usesN <;> simp_all
    · cases hu : o.usesL <;> simp_all
    · cases hu : o.usesA <;> simp_all
  · rintro ⟨hop, hr, hu⟩
    simp only [Opcode.unusedFieldsZero, Bool.and_eq_true, Bool.or_eq_true, beq_iff_eq] at hu
    obtain ⟨⟨⟨⟨hs, hn⟩, hl⟩, ha⟩, hi⟩ := hu
    congr 1
    simp only [CommandFields.and, Opcode.maskFields, Opcode.bareFields, CommandFields.mk.injEq, h1, h5]
    refine ⟨hop, ?_, ?_, ?_, hr, ?_, hi⟩
    · cases hu : o.usesS <;> simp_all
    · cases hu : o.usesN <;> simp_all
    · cases hu : o.usesL <;> simp_all
    · cases hu : o.usesA <;> simp_all

/-- The word of an instruction is in its operation's row of R75. -/
theorem encode_mask (i : Instr) : encode i &&& i.opcode.maskWord = i.opcode.matchWord := by
  rw [Opcode.mask_match_iff]
  simp [encode]

/-! ### What decodes -/

/-- A word decodes to an operation's command exactly when it is in the operation's row (R79). -/
theorem decode_of_mask_match {o : Opcode} {w : Word} (h : w &&& o.maskWord = o.matchWord) :
    decode w = .ok (o.build (CommandFields.ofWord w)) := by
  obtain ⟨hop, hr, hu⟩ := o.mask_match_iff w |>.mp h
  simp [decode, decodeFields, hop, hr, hu]

theorem mask_match_of_decode {w : Word} {i : Instr} (h : decode w = .ok i) :
    ∃ o : Opcode, w &&& o.maskWord = o.matchWord ∧ i = o.build (CommandFields.ofWord w) := by
  unfold decode decodeFields at h
  split at h
  · cases h
  · next o ho =>
    split at h
    · next hr =>
      split at h
      · next hu =>
        exact ⟨o, (o.mask_match_iff w).mpr ⟨Opcode.ofBits_eq_some.mp ho, hr, hu⟩, (Except.ok.inj h).symm⟩
      · cases h
    · cases h

/-- The fields of the command that an operation builds from the fields of a legal word are those fields. -/
theorem Opcode.fields_build {o : Opcode} {f : CommandFields} (hop : f.op = o.bits) (hr : f.rsv = 0)
    (hu : o.unusedFieldsZero f = true) : (o.build f).fields = f ∧ (o.build f).opcode = o := by
  have hb (b : BitVec 1) : BitVec.ofBool (flagOfBit b) = b := by revert b; decide
  have hl (b : BitVec 1) : (Line.ofBit b).bit = b := by revert b; decide
  have hall (v : BitVec 16) : v &&& ~~~ (0 : BitVec 16) = v := BitVec.and_allOnes
  have hbyte (v : BitVec 16) (h : v &&& ~~~ (0x00FF : BitVec 16) = 0) : (v.extractLsb' 0 8).setWidth 16 = v := by
    apply BitVec.eq_of_getLsbD_eq
    intro i hi
    have hm : ∀ j < 16, (~~~ (0x00FF : BitVec 16)).getLsbD j = decide (8 ≤ j) := by decide
    have hv := congrArg (fun v => v.getLsbD i) h
    simp only [BitVec.getLsbD_and, hm i hi] at hv
    by_cases h8 : i < 8
    · simp [h8, hi]
    · rw [decide_eq_true (Nat.le_of_not_lt h8), Bool.and_true] at hv
      rw [hv]
      simp [h8]
  obtain ⟨op, s, n, l, rsv, a, imm⟩ := f
  simp only at hop hr
  subst hop hr
  simp only [Opcode.unusedFieldsZero, Bool.and_eq_true, Bool.or_eq_true, beq_iff_eq] at hu
  obtain ⟨⟨⟨⟨hs, hn⟩, hl'⟩, ha⟩, hi⟩ := hu
  cases o <;> simp only [Opcode.usesS, Opcode.usesN, Opcode.usesL, Opcode.usesA, Opcode.immMask, hall,
    Bool.false_eq_true, false_or] at hs hn hl' ha hi <;>
    simp_all [Opcode.build, Instr.fields, Instr.opcode, Opcode.bareFields]

end Sys2Proof
end

