-- ==== Sys2Proof/Laws/Exec.lean ====
section
/-! SUPPORT. Everything a command can do: `exec_next` says, for each command, under what conditions it answers a next
state and which state that is. Claims about every command cite it and unfold nothing. -/

namespace Sys2Proof.Machine

/-! ### The half-period (R120) -/

theorem halfPeriodOf_bounds (k : Word) (r : HpRounding) {b : Nat} (hb : 0 < b) :
    1 ≤ halfPeriodOf k.toNat r b ∧ halfPeriodOf k.toNat r b ≤ max 1 k.toNat ∧
      halfPeriodOf k.toNat r b < 2 ^ 32 := by
  have hk := k.isLt
  have h : halfPeriodOf k.toNat r b ≤ max 1 k.toNat := by
    unfold halfPeriodOf
    cases r with
    | floor =>
      have := Nat.div_le_self k.toNat b
      simp only
      omega
    | nearest =>
      have : (2 * k.toNat + b) / (2 * b) < max 1 k.toNat + 1 := by
        apply Nat.div_lt_of_lt_mul
        have : k.toNat ≤ max 1 k.toNat := by omega
        nlinarith
      simp only
      omega
  refine ⟨?_, h, by omega⟩
  unfold halfPeriodOf
  omega

/-- CFG_HALF_PERIOD holds hp(ARG_BAUD) whole: it fits 32 bits (R29, R132). -/
theorem toNat_halfPeriod (p : Params) {baud : Word} (hb : 0 < baud.toInt) :
    (halfPeriod p baud).toNat = halfPeriodOf p.kScale.toNat p.hpRounding baud.toInt.toNat := by
  obtain ⟨-, -, h⟩ := halfPeriodOf_bounds p.kScale p.hpRounding (b := baud.toInt.toNat) (by omega)
  simp only [halfPeriod, BitVec.toNat_ofNat]
  exact Nat.mod_eq_of_lt h

/-! ### The effect of each bus command -/

/-- What a WRITE of these bytes does to the lines and the buffer. -/
def writeEffect (s : State) (sent : List Byte) (sendStop : Bool) (p : Phase) (w : Work) : Effect where
  events := byteTraceEvents s.cfg.halfPeriod (.start :: (sentTrace s 0 sent ++
    if acked s 0 sent.length && !sendStop then [] else [.stop]))
  draws := (sentTrace s 0 sent).length
  scl := if acked s 0 sent.length && !sendStop then .low else .released
  sda := .released
  busOpen := acked s 0 sent.length && !sendStop
  phase := p
  work := w
  dbuf := s.dbuf

/-- What a READ that uses the bus does to the lines and the buffer. -/
def readEffect (s : State) (a : Addr) (p : Phase) (w : Work) : Effect where
  events := byteTraceEvents s.cfg.halfPeriod (.start :: .wrote (addrByte a rwRead) (ackAt s 0) ::
    ((if ackAt s 0 then gotTrace s 1 s.len.toNat else []) ++ [.stop]))
  draws := 1 + if ackAt s 0 then 8 * s.len.toNat else 0
  scl := .released
  sda := .released
  busOpen := false
  phase := p
  work := w
  dbuf := if ackAt s 0 then storeGot s 1 0 s.len.toNat s.dbuf else s.dbuf

/-- What a READ_MEM that uses the bus does, n bytes being sent before the repeated start. -/
def readMemEffect (s : State) (a : Addr) (sub : SubAddr) (n : Nat) (p : Phase) (w : Work) : Effect where
  events := byteTraceEvents s.cfg.halfPeriod
    (.start :: (sentTrace s 0 (addrByte a rwWrite :: subBytes sub) ++
      (if acked s 0 n then .start :: .wrote (addrByte a rwRead) (ackAt s n) ::
        (if acked s 0 (n + 1) then gotTrace s (n + 1) s.len.toNat else []) else []) ++ [.stop]))
  draws := (sentTrace s 0 (addrByte a rwWrite :: subBytes sub)).length +
    if acked s 0 n then 1 + (if acked s 0 (n + 1) then 8 * s.len.toNat else 0) else 0
  scl := .released
  sda := .released
  busOpen := false
  phase := p
  work := w
  dbuf := if acked s 0 (n + 1) then storeGot s (n + 1) 0 s.len.toNat s.dbuf else s.dbuf

/-- What a PING does. -/
def pingEffect (s : State) (a : Addr) : Effect where
  events := byteTraceEvents s.cfg.halfPeriod [.start, .wrote (addrByte a rwWrite) (ackAt s 0), .stop]
  draws := 1
  scl := .released
  sda := .released
  busOpen := false
  phase := .idle
  work := s.work
  dbuf := s.dbuf

/-- What a SCAN of n addresses does. -/
def scanEffect (s : State) (n : Nat) : Effect where
  events := byteTraceEvents s.cfg.halfPeriod (probeTrace s scanFirst 0 n)
  draws := n
  scl := .released
  sda := .released
  busOpen := false
  phase := .idle
  work := s.work
  dbuf := s.dbuf

/-- What a sequence that is a command of its own does: one symbol of the byte-level trace. -/
def symbolEffect (s : State) (b : ByteEvent) (d : Nat) (scl sda : Drive) (busOpen : Bool) (p : Phase) (w : Work) :
    Effect where
  events := byteTraceEvents s.cfg.halfPeriod [b]
  draws := d
  scl := scl
  sda := sda
  busOpen := busOpen
  phase := p
  work := w
  dbuf := s.dbuf

/-! ### Every command -/

/-- When a command answers a next state, and which one. -/
def Ends (s t : State) : Instr → Prop
  | .init => selectsHardware s = false ∧
      ((busIdValid s.par s.arg.bus = false ∧ t = finish .resourceUnavailable s) ∨
        (busIdValid s.par s.arg.bus = true ∧
          (baudPositive s.arg.baud = false ∨ pinValid s.par s.arg.scl s.arg.sda = false) ∧
          t = finish .invalidArgument s) ∨
        (busIdValid s.par s.arg.bus = true ∧ baudPositive s.arg.baud = true ∧
          pinValid s.par s.arg.scl s.arg.sda = true ∧ t = finish .ok (configure s)))
  | .deinit => t = finish .ok (deconfigure s)
  | .scan => admitted s = true ∧ t = finish .ok (forgetScanTail
      (effect (scanEffect s (scanEndOf s.par - scanFirst))
        (listAll (foundAddrs s scanFirst 0 (scanEndOf s.par - scanFirst)) (clearScan s))))
  | .write sendStop a => admitted s = true ∧ lenFits s = true ∧
      ∃ bytes p w, payload s = some bytes ∧
      t = concludeWrite (acked s 0 (bytes.length + 1),
        effect (writeEffect s (addrByte a rwWrite :: bytes) sendStop p w) s)
  | .read a => admitted s = true ∧ lenFits s = true ∧
      ((s.len = 0 ∧ s.par.read0Mode = .nobus ∧ t = emptyRead s) ∨
        (¬ (s.len = 0 ∧ s.par.read0Mode = .nobus) ∧
          ∃ p w, t = concludeRead (ackAt s 0, effect (readEffect s a p w) s)))
  | .writeMem a sub => admitted s = true ∧ lenFits s = true ∧
      ∃ bytes p w, payload s = some bytes ∧
      t = concludeWrite (acked s 0 (addrByte a rwWrite :: (subBytes sub ++ bytes)).length,
        effect (writeEffect s (addrByte a rwWrite :: (subBytes sub ++ bytes)) true p w) s)
  | .readMem a sub => admitted s = true ∧ lenFits s = true ∧
      ((s.len = 0 ∧ t = emptyRead s) ∨
        (s.len ≠ 0 ∧ ∃ p w, t = concludeRead (acked s 0 ((subBytes sub).length + 2),
          effect (readMemEffect s a sub ((subBytes sub).length + 1) p w) s)))
  | .ping a => admitted s = true ∧ t = finish .ok (setAck (ackAt s 0) (effect (pingEffect s a) s))
  | .start => admitted s = true ∧
      t = finish .ok (effect (symbolEffect s .start 0 .released .low true .start s.work) s)
  | .stop => admitted s = true ∧
      t = finish .ok (effect (symbolEffect s .stop 0 .released .released false .idle s.work) s)
  | .writeByte v => admitted s = true ∧ t = finish .ok (setAck (ackAt s 0)
      (effect (symbolEffect s (.wrote v (ackAt s 0)) 1 .low .released s.busOpen s.phase s.work) s))
  | .readByte nack => admitted s = true ∧ t = finish .ok (setByte (heardByte s)
      (effect (symbolEffect s (.got (heardByte s) (!nack)) (heardDraws s 8) .low .released s.busOpen s.phase
        { s.work with shift := heardByte s, bitcnt := 8 }) s))
  | .driveLow l => admitted s = true ∧ t = finish .ok (driveLow l s)
  | .release l => admitted s = true ∧ t = finish .ok (release l s)
  | .readLine l => admitted s = true ∧ t = finish .ok (setLevel (sample l s).1 (sample l s).2)
  | .delay => admitted s = true ∧ t = finish .ok (wait s)

theorem ifAdmitted_next {s t : State} {k : State → Host.Outcome State Fault Refusal} (h : ifAdmitted s k = .next t) :
    admitted s = true ∧ k s = .next t := by
  unfold ifAdmitted at h
  split at h
  · exact ⟨‹_›, h⟩
  · cases h

theorem withLen_next {s t : State} {k : State → Host.Outcome State Fault Refusal} (h : withLen s k = .next t) :
    lenFits s = true ∧ k s = .next t := by
  unfold withLen at h
  split at h
  · exact ⟨‹_›, h⟩
  · cases h

theorem withPayload_next {s t : State} {k : List Byte → State → Host.Outcome State Fault Refusal}
    (h : withPayload s k = .next t) : ∃ bytes, payload s = some bytes := by
  unfold withPayload at h
  split at h
  · exact ⟨_, ‹_›⟩
  · cases h

/-- The inversion of `exec`. -/
theorem exec_next {i : Instr} {s t : State} (h : exec i s = .next t) : Ends s t i := by
  cases i with
  | init =>
    simp only [exec, execInit] at h
    split at h
    · cases h
    · next hs =>
      refine ⟨by simpa using hs, ?_⟩
      cases h
      split
      · exact .inl ⟨‹_›, rfl⟩
      · next hb =>
        split
        · exact .inr (.inl ⟨by simpa using hb, ‹_›, rfl⟩)
        · next hp =>
          simp only [not_or, Bool.not_eq_false] at hb hp
          exact .inr (.inr ⟨hb, hp.1, hp.2, rfl⟩)
  | deinit => exact (Host.Outcome.next.inj h).symm
  | scan =>
    have h0 := h
    simp only [exec, execScan] at h0
    have ha := (ifAdmitted_next h0).1
    rw [execScan_eq ha] at h
    exact ⟨ha, (Host.Outcome.next.inj h).symm⟩
  | write b a =>
    have h0 := h
    simp only [exec, execWrite] at h0
    obtain ⟨ha, h1⟩ := ifAdmitted_next h0
    obtain ⟨hl, h2⟩ := withLen_next h1
    obtain ⟨bytes, hp⟩ := withPayload_next h2
    obtain ⟨p, w, he⟩ := execWrite_eq a b ha hl hp
    rw [he] at h
    exact ⟨ha, hl, bytes, p, w, hp, (Host.Outcome.next.inj h).symm⟩
  | read a =>
    have h0 := h
    simp only [exec, execRead] at h0
    obtain ⟨ha, h1⟩ := ifAdmitted_next h0
    obtain ⟨hl, -⟩ := withLen_next h1
    refine ⟨ha, hl, ?_⟩
    by_cases hz : s.len = 0 ∧ s.par.read0Mode = .nobus
    · rw [execRead_empty a ha hl hz] at h
      exact .inl ⟨hz.1, hz.2, (Host.Outcome.next.inj h).symm⟩
    · obtain ⟨p, w, he⟩ := execRead_eq a ha hl hz
      rw [he] at h
      exact .inr ⟨hz, p, w, (Host.Outcome.next.inj h).symm⟩
  | writeMem a sub =>
    have h0 := h
    simp only [exec, execWriteMem] at h0
    obtain ⟨ha, h1⟩ := ifAdmitted_next h0
    obtain ⟨hl, h2⟩ := withLen_next h1
    obtain ⟨bytes, hp⟩ := withPayload_next h2
    obtain ⟨p, w, he⟩ := execWriteMem_eq a sub ha hl hp
    rw [he] at h
    refine ⟨ha, hl, bytes, p, w, hp, (Host.Outcome.next.inj h).symm.trans ?_⟩
    simp only [writeEffect, Bool.not_true, Bool.and_false, Bool.false_eq_true, if_false]
  | readMem a sub =>
    have h0 := h
    simp only [exec, execReadMem] at h0
    obtain ⟨ha, h1⟩ := ifAdmitted_next h0
    obtain ⟨hl, -⟩ := withLen_next h1
    refine ⟨ha, hl, ?_⟩
    by_cases hz : s.len = 0
    · rw [execReadMem_empty a sub ha hl hz] at h
      exact .inl ⟨hz, (Host.Outcome.next.inj h).symm⟩
    · obtain ⟨p, w, he⟩ := execReadMem_eq a sub ha hl hz (n := (subBytes sub).length + 1) rfl
      rw [he] at h
      exact .inr ⟨hz, p, w, (Host.Outcome.next.inj h).symm⟩
  | ping a =>
    have h0 := h
    simp only [exec, execPing] at h0
    obtain ⟨ha, h1⟩ := ifAdmitted_next h0
    refine ⟨ha, (Host.Outcome.next.inj h1).symm.trans ?_⟩
    rw [probe_eq]; rfl
  | start =>
    have h0 := h
    simp only [exec, execStart] at h0
    obtain ⟨ha, h1⟩ := ifAdmitted_next h0
    refine ⟨ha, (Host.Outcome.next.inj h1).symm.trans ?_⟩
    rw [startSeq_eq]; rfl
  | stop =>
    have h0 := h
    simp only [exec, execStop] at h0
    obtain ⟨ha, h1⟩ := ifAdmitted_next h0
    refine ⟨ha, (Host.Outcome.next.inj h1).symm.trans ?_⟩
    rw [stopSeq_eq]; rfl
  | writeByte v =>
    have h0 := h
    simp only [exec, execWriteByte] at h0
    obtain ⟨ha, h1⟩ := ifAdmitted_next h0
    refine ⟨ha, (Host.Outcome.next.inj h1).symm.trans ?_⟩
    rw [writeByteSeq_eq]; simp [symbolEffect, byteTraceEvents]
  | readByte nack =>
    have h0 := h
    simp only [exec, execReadByte] at h0
    obtain ⟨ha, h1⟩ := ifAdmitted_next h0
    refine ⟨ha, (Host.Outcome.next.inj h1).symm.trans ?_⟩
    rw [readByteSeq_eq]; simp [symbolEffect, byteTraceEvents]
  | driveLow l =>
    have h0 := h
    simp only [exec, execDriveLow] at h0
    obtain ⟨ha, h1⟩ := ifAdmitted_next h0
    exact ⟨ha, (Host.Outcome.next.inj h1).symm⟩
  | release l =>
    have h0 := h
    simp only [exec, execRelease] at h0
    obtain ⟨ha, h1⟩ := ifAdmitted_next h0
    exact ⟨ha, (Host.Outcome.next.inj h1).symm⟩
  | readLine l =>
    have h0 := h
    simp only [exec, execReadLine] at h0
    obtain ⟨ha, h1⟩ := ifAdmitted_next h0
    exact ⟨ha, (Host.Outcome.next.inj h1).symm⟩
  | delay =>
    have h0 := h
    simp only [exec, execDelay] at h0
    obtain ⟨ha, h1⟩ := ifAdmitted_next h0
    exact ⟨ha, (Host.Outcome.next.inj h1).symm⟩

end Sys2Proof.Machine
end

