-- ==== Sys2Proof/Laws/PerInstr.lean ====
section
/-! SUPPORT. What holds of every command as syntax, one lemma for each: its word is in its own row of R75, with
bit 23 and every field it does not use 0 (R76, R77). -/

namespace Sys2Proof.Laws.WordFields

/-- The word of an instruction is in its operation's row of the opcode table (R75), and its reserved and unused
fields are 0 (R76, R77). -/
def Statement (i : Instr) : Prop :=
  encode i &&& i.opcode.maskWord = i.opcode.matchWord ∧ i.fields.rsv = 0 ∧
    i.opcode.unusedFieldsZero i.fields = true

/-- The three parts are lemmas of Laws/Decode.lean. -/
theorem of_fields (i : Instr) : Statement i := ⟨encode_mask i, i.fields_rsv, i.fields_unused⟩

theorem init : Statement (.init) := of_fields _

theorem deinit : Statement (.deinit) := of_fields _

theorem scan : Statement (.scan) := of_fields _

theorem write (s : Bool) (a : Addr) : Statement (.write s a) := of_fields _

theorem read (a : Addr) : Statement (.read a) := of_fields _

theorem writeMem (a : Addr) (sub : SubAddr) : Statement (.writeMem a sub) := of_fields _

theorem readMem (a : Addr) (sub : SubAddr) : Statement (.readMem a sub) := of_fields _

theorem ping (a : Addr) : Statement (.ping a) := of_fields _

theorem start : Statement (.start) := of_fields _

theorem stop : Statement (.stop) := of_fields _

theorem writeByte (v : Byte) : Statement (.writeByte v) := of_fields _

theorem readByte (n : Bool) : Statement (.readByte n) := of_fields _

theorem driveLow (l : Line) : Statement (.driveLow l) := of_fields _

theorem release (l : Line) : Statement (.release l) := of_fields _

theorem readLine (l : Line) : Statement (.readLine l) := of_fields _

theorem delay : Statement (.delay) := of_fields _

end Sys2Proof.Laws.WordFields
end

