-- ==== Sys2Proof/Laws/Registers.lean ====
section
/-! SUPPORT. What a command makes of the registers that the host writes: `exec_hostRegs` says that other numbers in the
ARG registers and LEN, and other marks of R43, change nothing of a command that does not read them. -/

namespace Sys2Proof.Machine

/-- Other marks of R43 and other numbers in the ARG registers and LEN. -/
def hostRegs (h : Held) (a : InitArgs) (l : Word) (s : State) : State := { s with held := h, arg := a, len := l }

section
variable (h : Held) (a : InitArgs) (l : Word) (s : State)

@[simp] theorem hostRegs_cfg : (hostRegs h a l s).cfg = s.cfg := rfl
@[simp] theorem hostRegs_par : (hostRegs h a l s).par = s.par := rfl
@[simp] theorem hostRegs_dbuf : (hostRegs h a l s).dbuf = s.dbuf := rfl
@[simp] theorem hostRegs_work : (hostRegs h a l s).work = s.work := rfl
@[simp] theorem hostRegs_phase : (hostRegs h a l s).phase = s.phase := rfl
@[simp] theorem hostRegs_busOpen : (hostRegs h a l s).busOpen = s.busOpen := rfl
@[simp] theorem hostRegs_held : (hostRegs h a l s).held = h := rfl
@[simp] theorem hostRegs_arg : (hostRegs h a l s).arg = a := rfl
@[simp] theorem hostRegs_len : (hostRegs h a l s).len = l := rfl

theorem admitted_hostRegs : admitted (hostRegs h a l s) = admitted s := rfl
theorem effect_hostRegs (e : Effect) : effect e (hostRegs h a l s) = hostRegs h a l (effect e s) := rfl
theorem ackAt_hostRegs (k : Nat) : ackAt (hostRegs h a l s) k = ackAt s k := rfl
theorem acked_hostRegs (k n : Nat) : acked (hostRegs h a l s) k n = acked s k n := rfl
theorem byteAt_hostRegs (k : Nat) : byteAt (hostRegs h a l s) k = byteAt s k := rfl
theorem heardByte_hostRegs : heardByte (hostRegs h a l s) = heardByte s := rfl
theorem heardDraws_hostRegs (n : Nat) : heardDraws (hostRegs h a l s) n = heardDraws s n := rfl

theorem sentTrace_hostRegs (k : Nat) (vs : List Byte) : sentTrace (hostRegs h a l s) k vs = sentTrace s k vs := by
  induction vs generalizing k <;> simp_all [sentTrace, ackAt_hostRegs]

theorem gotTrace_hostRegs (k n : Nat) : gotTrace (hostRegs h a l s) k n = gotTrace s k n := by
  induction n generalizing k <;> simp_all [gotTrace, byteAt_hostRegs]

theorem storeGot_hostRegs (k i n : Nat) (m : Memory) :
    storeGot (hostRegs h a l s) k i n m = storeGot s k i n m := by
  induction n generalizing k i m <;> simp_all [storeGot, byteAt_hostRegs]

theorem foundAddrs_hostRegs (f k n : Nat) : foundAddrs (hostRegs h a l s) f k n = foundAddrs s f k n := by
  induction n generalizing f k <;> simp_all [foundAddrs, ackAt_hostRegs]

theorem probeTrace_hostRegs (f k n : Nat) : probeTrace (hostRegs h a l s) f k n = probeTrace s f k n := by
  induction n generalizing f k <;> simp_all [probeTrace, ackAt_hostRegs]

theorem listAll_hostRegs (xs : List Addr) : listAll xs (hostRegs h a l s) = hostRegs h a l (listAll xs s) := by
  induction xs generalizing s with
  | nil => rfl
  | cons x xs ih => rw [listAll, listAll, ← ih]; rfl

theorem abortCleanup_hostRegs (n i : Nat) :
    abortCleanup n i (hostRegs h a l s) = hostRegs h a l (abortCleanup n i s) := by
  induction n generalizing i s with
  | zero => rfl
  | succ n ih => rw [abortCleanup, abortCleanup, ← ih]; rfl

theorem sample_hostRegs (ln : Line) :
    sample ln (hostRegs h a l s) = ((sample ln s).1, hostRegs h a l (sample ln s).2) := by
  have hb : sampleBit ln (hostRegs h a l s) = ((sampleBit ln s).1, hostRegs h a l (sampleBit ln s).2) := by
    have hd : driveOf ln (hostRegs h a l s) = driveOf ln s := by cases ln <;> rfl
    simp only [sampleBit, hd, envDraw_eq]
    split <;> rfl
  simp only [sample, hb]
  rfl

end

theorem sample_held (ln : Line) (s : State) : (sample ln s).2.held = s.held := by
  simp only [sample, sampleBit, envDraw_eq]
  split <;> rfl

theorem abortCleanup_len_held (n i : Nat) (s : State) :
    (abortCleanup n i s).len = s.len ∧ (abortCleanup n i s).held = s.held := by
  induction n generalizing i s with
  | zero => exact ⟨rfl, rfl⟩
  | succ n ih => rw [abortCleanup]; exact ih _ _

/-- PHASE and the working registers have no part in the free bytes of a failed read. -/
theorem abortCleanup_phase_work (n i : Nat) {s t : State} (h : t = { s with phase := t.phase, work := t.work }) :
    let u := abortCleanup n i s
    let v := abortCleanup n i t
    v = { u with phase := v.phase, work := v.work } := by
  induction n generalizing i s t with
  | zero => exact h
  | succ n ih => simp only [abortCleanup]; apply ih; rw [h]; rfl

/-- A command from `hostRegs h a l s` ends as one from s: with the same refusal, or in the same state but for a and l
in place of the ARG registers and LEN, and for the marks where h is not s's own. -/
def SameBut (h : Held) (a : InitArgs) (l : Word) (s : State) :
    Host.Outcome State Fault Refusal → Host.Outcome State Fault Refusal → Prop
  | .next u, .next t => u = hostRegs u.held a l t ∧ (h = s.held → u.held = t.held)
  | .refused q, .refused r => q = r
  | _, _ => False

theorem concludeWrite_sameBut {h : Held} {a : InitArgs} {l : Word} {s t u : State} (b : Bool)
    (hu : u = { t with phase := u.phase, work := u.work }) (hh : t.held = s.held) (hl : l = t.len) :
    SameBut h a l s (.next (concludeWrite (b, hostRegs h a l u))) (.next (concludeWrite (b, t))) := by
  rw [hu]
  subst hl
  constructor
  · cases b <;> rfl
  · rintro rfl
    rw [← hh]
    cases b <;> rfl

theorem concludeRead_sameBut {h : Held} {a : InitArgs} {l : Word} {s t u : State} (b : Bool)
    (hu : u = { t with phase := u.phase, work := u.work }) (hh : t.held = s.held) (hl : l = t.len) :
    SameBut h a l s (.next (concludeRead (b, hostRegs h a l u))) (.next (concludeRead (b, t))) := by
  rw [concludeRead_eq, concludeRead_eq]
  cases b
  · simp only [Bool.false_eq_true, if_false, abortCleanup_hostRegs, hostRegs_len]
    rw [← hl]
    refine concludeWrite_sameBut _ (abortCleanup_phase_work _ _ hu) ?_ ?_
    · rw [(abortCleanup_len_held _ _ _).2, hh]
    · rw [(abortCleanup_len_held _ _ _).1, hl]
  · exact concludeWrite_sameBut _ hu hh hl

/-- The commands that read LEN (R30). -/
def readsLen : Instr → Bool
  | .write _ _ | .read _ | .writeMem _ _ | .readMem _ _ => true
  | .init | .deinit | .scan | .ping _ | .start | .stop | .writeByte _ | .readByte _ | .driveLow _ | .release _
  | .readLine _ | .delay => false

/-- No command reads the marks of R43, none but INIT an ARG register, and none but the four data commands LEN; INIT
reads the others only when ARG_BUS is valid. -/
theorem exec_hostRegs (i : Instr) (h : Held) (a : InitArgs) (l : Word) (s : State)
    (hl : readsLen i = true → l = s.len)
    (hi : i = .init → a.bus = s.arg.bus ∧ (busIdValid s.par s.arg.bus = true → a = s.arg)) :
    SameBut h a l s (exec i (hostRegs h a l s)) (exec i s) := by
  have ad := admitted_hostRegs h a l s
  cases i
  case init =>
    obtain ⟨h1, h2⟩ := hi rfl
    clear hi hl ad
    have k1 : (hostRegs h a l s).arg.bus = s.arg.bus := h1
    cases hb : busIdValid s.par s.arg.bus
    · have hs : selectsHardware (hostRegs h a l s) = false := by simp [selectsHardware, h1, hb]
      have hs' : selectsHardware s = false := by simp [selectsHardware, hb]
      simp only [exec, execInit, hs, hs', hostRegs_par, k1, hb, Bool.false_eq_true, if_false, if_true]
      exact ⟨rfl, by rintro rfl; rfl⟩
    · have := h2 hb
      subst this
      have hs : selectsHardware (hostRegs h s.arg l s) = selectsHardware s := rfl
      simp only [exec, execInit, hs, hostRegs_par, hostRegs_arg]
      cases selectsHardware s
      · simp only [Bool.false_eq_true, if_false, hb, Bool.true_eq_false]
        by_cases hq : baudPositive s.arg.baud = false ∨ pinValid s.par s.arg.scl s.arg.sda = false
        · simp only [hq, if_true]; exact ⟨rfl, by rintro rfl; rfl⟩
        · simp only [hq, if_false]; exact ⟨rfl, by rintro rfl; rfl⟩
      · rfl
  case deinit => exact ⟨rfl, by rintro rfl; rfl⟩
  case write b x =>
    have hl := hl rfl
    have lf : lenFits (hostRegs h a l s) = lenFits s := by subst hl; rfl
    have pl : payload (hostRegs h a l s) = payload s := by subst hl; rfl
    cases ha : admitted s
    · simp [exec, execWrite, ifAdmitted, ad, ha, SameBut]
    · cases hf : lenFits s
      · simp [exec, execWrite, ifAdmitted, withLen, ad, ha, lf, hf, SameBut]
      · cases hp : payload s with
        | none => simp [exec, execWrite, ifAdmitted, withLen, withPayload, ad, ha, lf, hf, pl, hp, SameBut]
        | some bs =>
          obtain ⟨p, w, e⟩ := execWrite_eq x b ha hf hp
          obtain ⟨p', w', e'⟩ := execWrite_eq x b (ad.trans ha) (lf.trans hf) (pl.trans hp)
          rw [e, e']
          simp only [effect_hostRegs, acked_hostRegs, sentTrace_hostRegs, hostRegs_cfg, hostRegs_dbuf]
          exact concludeWrite_sameBut _ rfl rfl hl
  case writeMem x u =>
    have hl := hl rfl
    have lf : lenFits (hostRegs h a l s) = lenFits s := by subst hl; rfl
    have pl : payload (hostRegs h a l s) = payload s := by subst hl; rfl
    cases ha : admitted s
    · simp [exec, execWriteMem, ifAdmitted, ad, ha, SameBut]
    · cases hf : lenFits s
      · simp [exec, execWriteMem, ifAdmitted, withLen, ad, ha, lf, hf, SameBut]
      · cases hp : payload s with
        | none => simp [exec, execWriteMem, ifAdmitted, withLen, withPayload, ad, ha, lf, hf, pl, hp, SameBut]
        | some bs =>
          obtain ⟨p, w, e⟩ := execWriteMem_eq x u ha hf hp
          obtain ⟨p', w', e'⟩ := execWriteMem_eq x u (ad.trans ha) (lf.trans hf) (pl.trans hp)
          rw [e, e']
          simp only [effect_hostRegs, acked_hostRegs, sentTrace_hostRegs, hostRegs_cfg, hostRegs_dbuf]
          exact concludeWrite_sameBut _ rfl rfl hl
  case read x =>
    have hl := hl rfl
    have lf : lenFits (hostRegs h a l s) = lenFits s := by subst hl; rfl
    cases ha : admitted s
    · simp [exec, execRead, ifAdmitted, ad, ha, SameBut]
    · cases hf : lenFits s
      · simp [exec, execRead, ifAdmitted, withLen, ad, ha, lf, hf, SameBut]
      · by_cases h0 : s.len = 0 ∧ s.par.read0Mode = .nobus
        · rw [execRead_empty x ha hf h0, execRead_empty x (ad.trans ha) (lf.trans hf) (by subst hl; exact h0)]
          subst hl
          exact ⟨rfl, by rintro rfl; rfl⟩
        · obtain ⟨p, w, e⟩ := execRead_eq x ha hf h0
          obtain ⟨p', w', e'⟩ := execRead_eq x (ad.trans ha) (lf.trans hf) (by subst hl; exact h0)
          rw [e, e']
          simp only [effect_hostRegs, ackAt_hostRegs, gotTrace_hostRegs, storeGot_hostRegs, hostRegs_cfg,
            hostRegs_dbuf, hostRegs_len]
          rw [hl]
          exact concludeRead_sameBut _ rfl rfl rfl
  case readMem x u =>
    have hl := hl rfl
    have lf : lenFits (hostRegs h a l s) = lenFits s := by subst hl; rfl
    cases ha : admitted s
    · simp [exec, execReadMem, ifAdmitted, ad, ha, SameBut]
    · cases hf : lenFits s
      · simp [exec, execReadMem, ifAdmitted, withLen, ad, ha, lf, hf, SameBut]
      · by_cases h0 : s.len = 0
        · rw [execReadMem_empty x u ha hf h0,
            execReadMem_empty x u (ad.trans ha) (lf.trans hf) (by subst hl; exact h0)]
          subst hl
          exact ⟨rfl, by rintro rfl; rfl⟩
        · obtain ⟨p, w, e⟩ := execReadMem_eq x u ha hf h0 rfl
          obtain ⟨p', w', e'⟩ := execReadMem_eq x u (ad.trans ha) (lf.trans hf) (by subst hl; exact h0) rfl
          rw [e, e']
          simp only [effect_hostRegs, ackAt_hostRegs, acked_hostRegs, sentTrace_hostRegs, gotTrace_hostRegs,
            storeGot_hostRegs, hostRegs_cfg, hostRegs_dbuf, hostRegs_len]
          rw [hl]
          exact concludeRead_sameBut _ rfl rfl rfl
  all_goals clear hl hi
  case scan =>
    cases ha : admitted s
    · simp [exec, execScan, ifAdmitted, ad, ha, SameBut]
    · rw [execScan_eq ha, execScan_eq (ad.trans ha)]
      simp only [hostRegs_cfg, hostRegs_par, foundAddrs_hostRegs, probeTrace_hostRegs, hostRegs_dbuf, hostRegs_work]
      have hc : clearScan (hostRegs h a l s) = hostRegs { h with scan := true } a l (clearScan s) := rfl
      have hc' : clearScan s = hostRegs { s.held with scan := true } s.arg s.len (clearScan s) := rfl
      rw [hc, hc']
      generalize clearScan s = z
      have e : ∀ h a l, hostRegs h a l (hostRegs { s.held with scan := true } s.arg s.len z) = hostRegs h a l z :=
        fun _ _ _ => rfl
      rw [e, listAll_hostRegs, listAll_hostRegs, effect_hostRegs, effect_hostRegs]
      exact ⟨rfl, by rintro rfl; rfl⟩
  case readLine ln =>
    cases ha : admitted s
    · simp [exec, execReadLine, ifAdmitted, ad, ha, SameBut]
    · simp only [exec, execReadLine, ifAdmitted, ad, ha, if_true, sample_hostRegs]
      exact ⟨rfl, by rintro rfl; simp [sample_held]⟩
  case driveLow ln =>
    cases ha : admitted s
    · simp [exec, execDriveLow, ifAdmitted, ad, ha, SameBut]
    · simp only [exec, execDriveLow, ifAdmitted, ad, ha, if_true]
      cases ln <;> exact ⟨rfl, by rintro rfl; rfl⟩
  case release ln =>
    cases ha : admitted s
    · simp [exec, execRelease, ifAdmitted, ad, ha, SameBut]
    · simp only [exec, execRelease, ifAdmitted, ad, ha, if_true]
      cases ln <;> exact ⟨rfl, by rintro rfl; rfl⟩
  all_goals
    cases ha : admitted s
    · simp [exec, execPing, execStart, execStop, execWriteByte, execReadByte, execDelay, ifAdmitted, ad, ha, SameBut]
    · simp only [exec, execPing, execStart, execStop, execWriteByte, execReadByte, execDelay, ifAdmitted, ad, ha,
        if_true, probe_eq, startSeq_eq, stopSeq_eq, writeByteSeq_eq, readByteSeq_eq, effect_hostRegs,
        ackAt_hostRegs, heardByte_hostRegs, heardDraws_hostRegs, hostRegs_cfg, hostRegs_dbuf, hostRegs_work,
        hostRegs_phase, hostRegs_busOpen]
      exact ⟨rfl, by rintro rfl; rfl⟩

end Sys2Proof.Machine
end

