-- ==== Sys2Proof/Laws/Step.lean ====
section
/-! SUPPORT. Everything one step can do: the block idle, an access of the host, or a command it issues. -/

namespace Sys2Proof.Machine

/-- What one step can do. -/
theorem step_next {s t : State} (h : step s = .next t) :
    (s.hostQ = [] ∧ t = s) ∨
    (∃ a rest, s.hostQ = .access a :: rest ∧ s.busy = false ∧ hostAccess a { s with hostQ := rest } = .next t) ∨
    ∃ w rest i, s.hostQ = .issue w :: rest ∧ s.busy = false ∧ decode w = .ok i ∧
      exec i (issue w i { s with hostQ := rest }) = .next t := by
  unfold step fetch at h
  cases hq : s.hostQ with
  | nil => simp only [hq] at h; exact .inl ⟨rfl, (Host.Outcome.next.inj h).symm⟩
  | cons m rest =>
    simp only [hq] at h
    cases hb : s.busy
    · cases m with
      | access a => simp only [hb] at h; exact .inr (.inl ⟨a, rest, rfl, rfl, h⟩)
      | issue w =>
        cases hd : decode w with
        | ok i => simp only [hb, hd] at h; exact .inr (.inr ⟨w, rest, i, rfl, rfl, hd, h⟩)
        | error e => simp [hb, hd] at h
    · simp [hb] at h

/-- What an access of the host can do: it writes ARG registers, LEN and DBUF, and records what it read (R44). -/
theorem hostAccess_next {a : HostAccess} {s t : State} (h : hostAccess a s = .next t) :
    indexExists s a = true ∧
    t = { s with arg := t.arg, len := t.len, dbuf := t.dbuf, held := t.held, hostSaw := t.hostSaw } ∧
    t.held.handle = s.held.handle ∧
    t.dbuf = match a with
      | .writeDbuf j v => Memory.write j v s.dbuf
      | _ => s.dbuf := by
  unfold hostAccess at h
  split at h
  · refine ⟨‹_›, ?_⟩
    cases a with
    | read r =>
      simp only [hostEffect, hostReads] at h
      split at h
      · cases h; exact ⟨rfl, rfl, rfl⟩
      · cases h
    | _ => cases h; exact ⟨rfl, rfl, rfl⟩
  · cases h
theorem step_idle {s : State} (h : s.hostQ = []) : step s = .next s := by simp [step, fetch, h]

theorem step_access {s : State} {a : HostAccess} {rest : List HostMove} (h : s.hostQ = .access a :: rest)
    (hb : s.busy = false) : step s = hostAccess a { s with hostQ := rest } := by simp [step, fetch, h, hb]

theorem step_issue {s : State} {w : Word} {i : Instr} {rest : List HostMove} (h : s.hostQ = .issue w :: rest)
    (hb : s.busy = false) (hd : decode w = .ok i) : step s = exec i (issue w i { s with hostQ := rest }) := by
  simp [step, fetch, h, hb, hd]

theorem eventsOf_issue (w : Word) (i : Instr) (s : State) : eventsOf (issue w i s) = eventsOf s ++ [.issue w] := by
  simp [eventsOf, issue]

/-- A successful INIT ends IDLE, its two drives recorded (R180, R182). -/
theorem contract_configure (s : State) : lineState (finish .ok (configure s)) = some .idle ∧
    eventsOf (finish .ok (configure s)) =
      eventsOf s ++ [.drive .scl .released, .drive .sda .released, .complete .ok] := by
  simp [lineState, configure, release, drive, setDrive, eventsOf, micro, loadHandle]

/-- DEINIT ends IDLE, its two drives recorded (R184). -/
theorem contract_deconfigure (s : State) : lineState (finish .ok (deconfigure s)) = some .idle ∧
    eventsOf (finish .ok (deconfigure s)) =
      eventsOf s ++ [.drive .scl .released, .drive .sda .released, .complete .ok] := by
  simp [lineState, deconfigure, release, drive, setDrive, eventsOf, micro, clearHandle]

end Sys2Proof.Machine
end

