-- ==== Sys2Proof/Tests/Slice0.lean ====
section
/-! SUPPORT. The tests: ill-formed source, words written out from R75, single steps checked against 95_test_vectors.md,
and for each statement with hypotheses a state and operands that meet them. Expected values come from the rows of
95_test_vectors.md (V, E and P numbers) or from the rules named. -/

namespace Sys2Proof.Tests

open Sys2Proof.Machine

-- One check after another: each check that runs beside another one reserves a stack of its own.
set_option Elab.async false

/-! ### Helpers -/

/-- Parameters of R7 with BUF_MAX = 2, one bit-bang bus (7), one hardware bus (8) and every pair of pins valid. -/
def testParams : Params where
  bufLast := 1
  kScale := 500000
  hpRounding := .floor
  scanEnd := .x78
  read0Mode := .bus
  pinRule := .all
  validBuses := [7, 8]
  bitbangBuses := [7]

/-- The block after INIT at 100000 baud, with LEN = 0, bus IDLE, the environment answering env. -/
def ready (env : List Bool) : State :=
  { State.resetWith testParams with
    cfg := { state := .configured, busId := 7, sclPin := .first, sdaPin := .first, baud := 100000, halfPeriod := 5 }
    held := { (State.resetWith testParams).held with
      handle := true, argBus := true, argScl := true, argSda := true, argBaud := true, len := true, status := true }
    draws := { env := env, envCtr := 0, freeCtr := 0 } }

/-- As `ready`, with the payload in DBUF and LEN. -/
def loaded (env : List Bool) (payload : List Byte) : State :=
  { ready env with
    len := BitVec.ofNat 32 payload.length
    dbuf := payload.mapIdx fun j v => (j, v) }

/-- As `ready`, with the bus HELD (R125). -/
def heldBus (env : List Bool) : State := { ready env with drvScl := .low, busOpen := true }

/-- As `ready`, with the bus STARTED (R125). -/
def started (env : List Bool) : State := { ready env with drvSda := .low, busOpen := true }

/-- The block after reset, with the arguments of INIT written. -/
def withArgs (bus : Word) (scl sda : PinId) (baud : Word) : State :=
  { State.resetWith testParams with
    arg := { bus := bus, scl := scl, sda := sda, baud := baud }
    held := { (State.resetWith testParams).held with argBus := true, argScl := true, argSda := true, argBaud := true } }

/-- The host about to make one move. -/
def moving (m : HostMove) (s : State) : State := { s with hostQ := [m] }

/-- A property of the state a command leaves; false when there is none. -/
def after (o : Host.Outcome State Fault Refusal) (f : State → Bool) : Bool :=
  match o with
  | .next t => f t
  | .fault _ => false
  | .refused _ => false

/-- The bits of a byte as answers of the environment, bit 7 first. -/
def bits (v : Byte) : List Bool := bitsMsbFirst v

/-! ### Source lines that do not assemble (R81) -/

theorem test_addr_out_of_range :
    (Asm.write 128).wellFormed = false ∧ (Asm.writeNostop 128).wellFormed = false ∧
    (Asm.read 128).wellFormed = false ∧ (Asm.writeMem 128 0).wellFormed = false ∧
    (Asm.readMem 128 0).wellFormed = false ∧ (Asm.ping 128).wellFormed = false ∧
    (Asm.writeNs 128).wellFormed = false ∧ (Asm.probe 128).wellFormed = false ∧
    (Asm.writeReg 128 0 0).wellFormed = false ∧ (Asm.ping 127).wellFormed = true := by decide

theorem test_sub_out_of_range :
    (Asm.writeMem 0 0x10000).wellFormed = false ∧ (Asm.readMem 0 0x10000).wellFormed = false ∧
    (Asm.writeReg 0 0x10000 0).wellFormed = false ∧ (Asm.readMem 0 0xFFFF).wellFormed = true := by decide

theorem test_byte_out_of_range :
    (Asm.writeByte 0x100).wellFormed = false ∧ (Asm.writeReg 0 0 0x100).wellFormed = false ∧
    (Asm.data [0, 0x100]).wellFormed = false ∧ (Asm.data [0, 0xFF]).wellFormed = true := by decide

theorem test_word_out_of_range :
    (Asm.len 0x100000000).wellFormed = false ∧ (Asm.arg 0x100000000 .first .first 1).wellFormed = false ∧
    (Asm.len 0xFFFFFFFF).wellFormed = true := by decide

theorem test_baud_out_of_range :
    (Asm.arg 0 .first .first 2147483648).wellFormed = false ∧
    (Asm.arg 0 .first .first (-2147483649)).wellFormed = false ∧
    (Asm.arg 0 .first .first (-2147483648)).wellFormed = true := by decide

/-- The ends of each range, inside and outside, in the clauses of the assembler's statement. -/
theorem test_assemble_at_the_bounds :
    assemble (.write 127) = some [.issue 0x247F0000] ∧ assemble (.write 128) = none ∧
    assemble (.writeNs 127) = some [.issue 0x207F0000] ∧ assemble (.writeNs 128) = none ∧
    assemble (.readMem 127 0xFFFF) = some [.issue 0x387FFFFF] ∧ assemble (.readMem 127 0x10000) = none ∧
    assemble (.writeByte 0xFF) = some [.issue 0x900000FF] ∧ assemble (.writeByte 0x100) = none ∧
    assemble (.writeReg 127 0xFFFF 0xFF) = some [.access (.writeLen 1), .access (.writeDbuf 0 0xFF),
      .issue 0x307FFFFF] ∧ assemble (.writeReg 127 0xFFFF 0x100) = none ∧
    assemble (.data [0x12, 0xFF]) = some [.access (.writeDbuf 0 0x12), .access (.writeDbuf 1 0xFF)] ∧
    assemble (.arg 0xFFFFFFFF .first .first (-1)) = some [.access (.writeArgBus 0xFFFFFFFF),
      .access (.writeArgScl .first), .access (.writeArgSda .first), .access (.writeArgBaud 0xFFFFFFFF)] ∧
    assemble (.len 0x100000000) = none := by decide

/-! ### Words written out bit by bit from the pattern column of R75 -/

theorem test_decode_init : decode 0b00001_0_0_0_0_0000000_0000000000000000 = .ok .init := by decide
theorem test_decode_deinit : decode 0b00010_0_0_0_0_0000000_0000000000000000 = .ok .deinit := by decide
theorem test_decode_scan : decode 0b00011_0_0_0_0_0000000_0000000000000000 = .ok .scan := by decide
/-- A = 0x50 = 1010000, with S = 1 and with S = 0. -/
theorem test_decode_write :
    decode 0b00100_1_0_0_0_1010000_0000000000000000 = .ok (.write true 0x50) ∧
    decode 0b00100_0_0_0_0_1010000_0000000000000000 = .ok (.write false 0x50) := by decide
theorem test_decode_read : decode 0b00101_0_0_0_0_0000001_0000000000000000 = .ok (.read 0x01) := by decide
/-- SUB = 0x1234 = 0001001000110100. -/
theorem test_decode_writeMem :
    decode 0b00110_0_0_0_0_1000000_0001001000110100 = .ok (.writeMem 0x40 0x1234) := by decide
theorem test_decode_readMem :
    decode 0b00111_0_0_0_0_1111111_1111111111111111 = .ok (.readMem 0x7F 0xFFFF) := by decide
theorem test_decode_ping : decode 0b01000_0_0_0_0_0010000_0000000000000000 = .ok (.ping 0x10) := by decide
theorem test_decode_start : decode 0b10000_0_0_0_0_0000000_0000000000000000 = .ok .start := by decide
theorem test_decode_stop : decode 0b10001_0_0_0_0_0000000_0000000000000000 = .ok .stop := by decide
/-- BYTE = 0xA1 = 10100001. -/
theorem test_decode_writeByte :
    decode 0b10010_0_0_0_0_0000000_0000000010100001 = .ok (.writeByte 0xA1) := by decide
theorem test_decode_readByte :
    decode 0b10011_0_0_0_0_0000000_0000000000000000 = .ok (.readByte false) ∧
    decode 0b10011_0_1_0_0_0000000_0000000000000000 = .ok (.readByte true) := by decide
theorem test_decode_driveLow :
    decode 0b11000_0_0_0_0_0000000_0000000000000000 = .ok (.driveLow .scl) ∧
    decode 0b11000_0_0_1_0_0000000_0000000000000000 = .ok (.driveLow .sda) := by decide
theorem test_decode_release :
    decode 0b11001_0_0_0_0_0000000_0000000000000000 = .ok (.release .scl) ∧
    decode 0b11001_0_0_1_0_0000000_0000000000000000 = .ok (.release .sda) := by decide
theorem test_decode_readLine :
    decode 0b11010_0_0_0_0_0000000_0000000000000000 = .ok (.readLine .scl) ∧
    decode 0b11010_0_0_1_0_0000000_0000000000000000 = .ok (.readLine .sda) := by decide
theorem test_decode_delay : decode 0b11011_0_0_0_0_0000000_0000000000000000 = .ok .delay := by decide

/-- V21, V40 to V44: an OP value that is not assigned. -/
theorem test_decode_unassigned :
    [(0x00000000 : Word), 0x48000000, 0x7F000000, 0xA0000000, 0xE0000000, 0xFFFFFFFF].map decode =
      List.replicate 6 (.error .unassignedOpcode) := by decide

/-- V27, V29, V34: bit 23 set. -/
theorem test_decode_reserved :
    [(0x24D00000 : Word), 0x38FFFFFF, 0x90800000].map decode = List.replicate 3 (.error .reservedBit) := by decide

/-- V23, V26, V31, V33, V36, V38, V39: a field that the command does not use is not 0. -/
theorem test_decode_unused :
    [(0x08000001 : Word), 0x2C500000, 0x40100001, 0x900001AB, 0x9B000000, 0xC3000000, 0xD8000001].map decode =
      List.replicate 7 (.error .unusedField) := by decide

/-- The numbering of the opcode table: 32 bits, first word first. -/
theorem test_decodeTableWord : decodeTableWord 32 0x38501234 = some (.readMem 0x50 0x1234) ∧
    decodeTableWord 32 0x48000000 = none := by decide

/-! ### Operands -/

/-- V1, V3, V5, V6, V12, V15 to V17 (R120). -/
theorem test_half_period :
    [(1 : Nat), 3, 100000, 200000, 500001, 1000000, 1000001, 2147483647].map (halfPeriodOf 500000 .floor) =
      [500000, 166666, 5, 2, 1, 1, 1, 1] ∧
    [(1 : Nat), 3, 100000, 200000, 500001, 1000000, 1000001, 2147483647].map (halfPeriodOf 500000 .nearest) =
      [500000, 166667, 5, 3, 1, 1, 1, 1] := by decide

/-- V45 to V52 (R140, R141). -/
theorem test_bytes :
    addrByte 0x50 rwWrite = 0xA0 ∧ addrByte 0x50 rwRead = 0xA1 ∧ addrByte 0x7F rwRead = 0xFF ∧
    addrByte 0x10 rwWrite = 0x20 ∧ subBytes 0x0000 = [0x00] ∧ subBytes 0x00FF = [0xFF] ∧
    subBytes 0x0100 = [0x01, 0x00] := by decide

/-! ### Line commands (R110 to R113) -/

/-- The example of R110, and R103: driving a line that is low already is recorded all the same. -/
theorem test_driveLow : after (exec (.driveLow .sda) (started [])) (fun t =>
    t.drvSda = .low ∧ t.drvScl = .released ∧ eventsOf t = [.drive .sda .low, .complete .ok]) = true :=
    by decide +kernel

/-- The example of R111. -/
theorem test_release : after (exec (.release .scl) (heldBus [])) (fun t =>
    t.drvScl = .released ∧ t.drvSda = .released ∧ t.busOpen = true) = true := by decide +kernel

/-- The example of R112. -/
theorem test_readLine_released : after (exec (.readLine .sda) (ready [true])) (fun t =>
    t.res.level = true ∧ t.draws.env = []) = true := by decide +kernel

/-- A line that the master drives low reads 0 and takes no answer (R104). -/
theorem test_readLine_low : after (exec (.readLine .scl) (heldBus [true])) (fun t =>
    t.res.level = false ∧ t.draws.env = [true]) = true := by decide +kernel

/-- The example of R113. -/
theorem test_delay : after (exec .delay (ready [])) (fun t => eventsOf t = [.wait 5, .complete .ok]) = true := by
  decide

/-! ### Engine commands (R127 to R130) -/

/-- The example of R127. -/
theorem test_start : after (exec .start (ready [])) (fun t =>
    eventsOf t = [.csBegin, .drive .sda .released, .wait 5, .drive .scl .released, .wait 5, .drive .sda .low, .wait 5,
      .csEnd, .complete .ok] ∧ lineState t = some .started) = true := by decide +kernel

/-- V74: a START from STARTED makes a STOP edge first. -/
theorem test_start_edges : after (exec .start (started [])) (fun t =>
    clockHighEdges .released .low (eventsOf t) = [.stop, .start]) = true := by decide +kernel

/-- V73: a STOP from IDLE makes a START edge first. -/
theorem test_stop : after (exec .stop (ready [])) (fun t =>
    clockHighEdges .released .released (eventsOf t) = [.start, .stop] ∧ waitCount (eventsOf t) = 4 ∧
      lineState t = some .idle) = true := by decide +kernel

/-- The example of R129, from a held bus: the drives of SDA are the bits of 0xA0, bit 7 first, and then the release. -/
theorem test_writeByte_ack : after (exec (.writeByte 0xA0) (heldBus [false])) (fun t =>
    t.res.ack = true ∧ (eventsOf t).filterMap (fun e => match e with | .drive .sda d => some d | _ => none) =
      [.released, .low, .released, .low, .low, .low, .low, .low, .released]) = true := by decide +kernel

/-- V75: a NACK is a result, not an error. -/
theorem test_writeByte_nack : after (exec (.writeByte 0x10) (heldBus [true])) (fun t =>
    t.res.ack = false ∧ t.res.status = .ok ∧ lineState t = some .held) = true := by decide +kernel

/-- V70, the example of R130: 1,1,0,0,1,0,1,0 is 0xCA, and the master does not drive SDA low. -/
theorem test_readByte : after (exec (.readByte true)
    (heldBus [true, true, false, false, true, false, true, false])) (fun t =>
    t.res.byte = 0xCA ∧ (eventsOf t).contains (.drive .sda .low) = false) = true := by decide +kernel

/-- V72: from STARTED every sample is 0 and no answer is taken. -/
theorem test_readByte_started : after (exec (.readByte false) (started [true])) (fun t =>
    t.res.byte = 0 ∧ t.draws.env = [true]) = true := by decide +kernel

/-! ### Transactions (R143 to R147) -/

/-- V78: with S = 0 the bus stays held. -/
theorem test_write_nostop : after (exec (.write false 0x50) (loaded [false] [])) (fun t =>
    t.res.count = 0 ∧ lineState t = some .held ∧
      eventsOf t = byteTraceEvents 5 [.start, .wrote 0xA0 true] ++ [.complete .ok]) = true := by decide +kernel

/-- V80: a NACK of the last byte is a BusError, and DBUF does not change. -/
theorem test_write_nack : after (exec (.write true 0x50) (loaded [false, false, true] [0x11, 0x22])) (fun t =>
    t.res.status = .busError ∧ lineState t = some .idle ∧ t.dbuf = [(0, 0x11), (1, 0x22)] ∧
      waitCount (eventsOf t) = 64 ∧ bracketCount (eventsOf t) = 29) = true := by decide +kernel

/-- E4: two bytes read, the last one NACKed. -/
theorem test_read : after (exec (.read 0x50) { loaded ([false] ++ bits 0x12 ++ bits 0x34) [0, 0] with dbuf := [] })
    (fun t => t.dbuf = [(0, 0x12), (1, 0x34)] ∧ t.res.count = 2 ∧
      eventsOf t = byteTraceEvents 5 [.start, .wrote 0xA1 true, .got 0x12 true, .got 0x34 false, .stop] ++
        [.complete .ok]) = true := by decide +kernel

/-- V84: no bus activity under NOBUS. -/
theorem test_read_nobus : after (exec (.read 0x50) { ready [false] with par.read0Mode := .nobus })
    (fun t => eventsOf t = [.complete .ok] ∧ t.res.count = 0 ∧ t.draws.env = [false]) = true := by decide +kernel

/-- E5: sub-address 0x0100 is two bytes, high byte first. -/
theorem test_writeMem : after (exec (.writeMem 0x50 0x0100) (loaded [false, false, false, false] [0x5A])) (fun t =>
    t.res.count = 1 ∧ eventsOf t = byteTraceEvents 5 [.start, .wrote 0xA0 true, .wrote 0x01 true, .wrote 0x00 true,
      .wrote 0x5A true, .stop] ++ [.complete .ok]) = true := by decide +kernel

/-- V86: a NACK of the high sub-address byte. -/
theorem test_writeMem_nack : after (exec (.writeMem 0x50 0x0100) (loaded [false, true] [0x5A])) (fun t =>
    t.res.status = .busError ∧ eventsOf t = byteTraceEvents 5 [.start, .wrote 0xA0 true, .wrote 0x01 false, .stop] ++
      [.complete .busError]) = true := by decide +kernel

/-- P2: the repeated start, with no STOP before it. -/
theorem test_readMem : after (exec (.readMem 0x50 0x0100)
    { ready ([false, false, false, false] ++ bits 0x12 ++ bits 0x34) with len := 2 }) (fun t =>
    t.dbuf = [(0, 0x12), (1, 0x34)] ∧ eventsOf t = byteTraceEvents 5 [.start, .wrote 0xA0 true, .wrote 0x01 true,
      .wrote 0x00 true, .start, .wrote 0xA1 true, .got 0x12 true, .got 0x34 false, .stop] ++ [.complete .ok]) =
      true := by decide +kernel

/-- V88: a NACK of the read-phase address. -/
theorem test_readMem_nack : after (exec (.readMem 0x50 0x10) { ready [false, false, true] with len := 1 })
    (fun t => t.res.status = .busError ∧ waitCount (eventsOf t) = 67 ∧ bracketCount (eventsOf t) = 30 ∧
      lineState t = some .idle) = true := by decide +kernel

/-- The events of one data bit with SDA driven to d, as V90 writes them. -/
def bitBracket (d : Drive) : List Event :=
  [.csBegin, .drive .scl .low, .drive .sda d, .wait 5, .drive .scl .released, .wait 5, .csEnd]

/-- The micro-operations of V90, written out as that row's text gives them. -/
def pingEvents : List Event :=
  ([.csBegin, .drive .sda .released, .wait 5, .drive .scl .released, .wait 5, .drive .sda .low, .wait 5, .csEnd]) ++
  ([.low, .low, .released, .low, .low, .low, .low, .low] : List Drive).flatMap bitBracket ++
  ([.csBegin, .drive .scl .low, .drive .sda .released, .wait 5, .drive .scl .released, .wait 5, .sample .sda false,
    .wait 5, .drive .scl .low, .csEnd] : List Event) ++
  ([.csBegin, .wait 5, .drive .sda .low, .wait 5, .drive .scl .released, .wait 5, .drive .sda .released, .wait 5,
    .csEnd, .complete .ok] : List Event)

/-- V90. -/
theorem test_ping : after (exec (.ping 0x10) (ready [false])) (fun t =>
    t.res.ack = true ∧ eventsOf t = pingEvents) = true := by decide +kernel

/-- V91: a NACK is no error. -/
theorem test_ping_nack : after (exec (.ping 0x10) (ready [true])) (fun t =>
    t.res.ack = false ∧ t.res.status = .ok) = true := by decide +kernel

/-! ### SCAN (R170) -/

/-- P4: answers 9 and 73 are ACKs, so 0x10 and 0x50 are listed. -/
theorem test_scan : after (exec .scan (ready (List.replicate 8 true ++ [false] ++ List.replicate 63 true ++ [false] ++
    List.replicate 39 true))) (fun t =>
    t.scan.count = 2 ∧ t.scan.list[0] = 0x10 ∧ t.scan.list[1] = 0x50 ∧ t.draws.env = []) = true := by
  decide +kernel

/-- V100: with the alternative SCAN_END, 0x78 is probed last. -/
theorem test_scan_alternative : after (exec .scan { ready (List.replicate 112 true ++ [false]) with
    par.scanEnd := .x79 }) (fun t => t.scan.count = 1 ∧ t.scan.list[0] = 0x78 ∧ t.draws.env = []) = true := by
  decide +kernel

/-! ### Configuration (R180, R184) -/

/-- V101. -/
theorem test_init : after (exec .init (withArgs 7 .first .first 100000)) (fun t =>
    t.cfg = {
      state := .configured, busId := 7, sclPin := .first, sdaPin := .first, baud := 100000, halfPeriod := 5 } ∧
      eventsOf t = [.drive .scl .released, .drive .sda .released, .complete .ok]) = true := by decide +kernel

/-- Each pin register gets its own argument (R26, R180). -/
theorem test_init_pins (p q : PinId) : ∃ t, exec .init (withArgs 7 p q 100000) = .next t ∧
    t.cfg.sclPin = p ∧ t.cfg.sdaPin = q := ⟨_, rfl, rfl, rfl⟩

/-- An INIT of argument registers that the host has not written reads what they contain (log 4): the zeros of reset, and
here a bus and a baud rate that pass (V101, R181). -/
theorem test_init_unwritten :
    after (exec .init (State.resetWith testParams)) (fun t => t.res.status = .resourceUnavailable) = true ∧
    after (exec .init { withArgs 7 .first .first 100000 with held := (State.resetWith testParams).held })
      (fun t => t.res.status = .ok ∧ t.cfg.state = .configured) = true := by decide +kernel

/-- V103: a failed INIT leaves the earlier configuration in force. -/
theorem test_init_bad_baud : after (exec .init { ready [] with
    arg := { bus := 7, scl := .first, sda := .first, baud := BitVec.ofInt 32 (-5) } }) (fun t =>
    t.res.status = .invalidArgument ∧ t.cfg = (ready []).cfg ∧ eventsOf t = [.complete .invalidArgument]) =
    true := by decide +kernel

/-- V108: DEINIT while the bus is held sends no STOP condition. -/
theorem test_deinit : after (exec .deinit (heldBus [])) (fun t =>
    eventsOf t = [.drive .scl .released, .drive .sda .released, .complete .ok] ∧ lineState t = some .idle ∧
      t.cfg.state = .unconfigured ∧ t.cfg.baud = 0 ∧ t.cfg.busId = 7) = true := by decide +kernel

/-- V110: after DEINIT, PING is refused. -/
theorem test_refused_after_deinit : ∃ t, exec .deinit (ready []) = .next t ∧
    exec (.ping 0x10) t = .refused .notAdmitted := ⟨_, rfl, rfl⟩

/-! ### Steps -/

/-- Right after reset, whatever the OPEN parameters are: INIT (log 4) and DEINIT run, and every other command is refused
because nothing has configured the block (R42). -/
theorem test_first_step :
    (∃ t, step (State.reset.withFetchWord 32 0x08000000) = .next t) ∧
    (∃ t, step (State.reset.withFetchWord 32 0x10000000) = .next t) ∧
    step (State.reset.withFetchWord 32 0x40100000) = .refused .notAdmitted :=
  ⟨⟨_, rfl⟩, ⟨_, rfl⟩, rfl⟩

/-- A whole step: the issue and the completion are in the trace, tagged with the word. -/
theorem test_step : after (step ((ready []).withFetchWord 32 0xD8000000)) (fun t =>
    t.trace = [{ cmd := 0xD8000000, event := .complete .ok }, { cmd := 0xD8000000, event := .wait 5 },
      { cmd := 0xD8000000, event := .issue 0xD8000000 }]) = true := by decide +kernel

/-- A host read gives the number in a register and changes nothing else (R44), also where nothing has written it (log 4,
log 14); one of a byte of DBUF that nothing has written is refused (R43). -/
theorem test_host_read :
    step (moving (.access (.read .cfgHalfPeriod)) (ready [])) =
      .next { ready [] with hostSaw := [{ reg := .cfgHalfPeriod, value := 5 }] } ∧
    (∃ t, step (moving (.access (.read .cfgHalfPeriod)) State.reset) = .next t) ∧
    step (moving (.access (.read .resCount)) (ready [])) =
      .next { ready [] with hostSaw := [{ reg := .resCount, value := 0 }] } ∧
    step (moving (.access (.read (.dbuf 1))) (ready [])) = .refused .noValue ∧
    after (exec (.ping 0x10) (ready [true])) (fun t => hostRead .resAck t = some 0) = true := by
  refine ⟨rfl, ⟨_, rfl⟩, rfl, rfl, by decide +kernel⟩

/-! ### States and operands that meet the hypotheses of the statements -/

/-- DecodeOf and EncodeOf statements: a word that decodes, one in a row of R75 and one in none. -/
theorem test_hyps_decode : decode 0x24500000 = .ok (.write true 0x50) ∧
    (0x24500000 : Word) &&& Opcode.write.maskWord = Opcode.write.matchWord ∧
    (∀ o ∈ Opcode.all, (0x00000000 : Word) &&& o.maskWord ≠ o.matchWord) ∧ (∀ o : Opcode, o ∈ Opcode.all) := by
  refine ⟨by decide, by decide, by decide, fun o => ?_⟩
  cases o <;> decide

/-- ReservedBitMakesAWordIllegal. -/
theorem test_hyps_reserved : (0x24D00000 : Word).getLsbD 23 = true := by decide

/-- IllegalWordIsRefused: an unassigned OP value, and a host that issues an illegal word. -/
theorem test_hyps_illegal : ((0xFFFFFFFF : Word) >>> 27).toNat = 0x1F ∧
    (moving (.issue 0x48000000) (ready [])).hostQ = [.issue 0x48000000] ∧
    (moving (.issue 0x48000000) (ready [])).busy = false ∧ decode 0x48000000 = .error .unassignedOpcode := by decide

/-- StepRunsTheDecodedCommand. -/
theorem test_hyps_step : (moving (.issue 0x40100000) (ready [false])).hostQ = [.issue 0x40100000] ∧
    (moving (.issue 0x40100000) (ready [false])).busy = false ∧ decode 0x40100000 = .ok (.ping 0x10) := by decide

/-- HostAccessStoresOnlyItsValue: each access, a byte and a read at the last index of DBUF, and no move at all. -/
theorem test_hyps_access : (ready []).busy = false ∧ (ready []).hostQ = [] ∧
    (moving (.access (.writeArgBus 7)) (ready [])).hostQ = [.access (.writeArgBus 7)] ∧
    (moving (.access (.writeArgScl .first)) (ready [])).hostQ = [.access (.writeArgScl .first)] ∧
    (moving (.access (.writeArgSda .first)) (ready [])).hostQ = [.access (.writeArgSda .first)] ∧
    (moving (.access (.writeArgBaud 100000)) (ready [])).hostQ = [.access (.writeArgBaud 100000)] ∧
    (moving (.access (.writeLen 2)) (ready [])).hostQ = [.access (.writeLen 2)] ∧
    (moving (.access (.writeDbuf 1 0xFF)) (ready [])).hostQ = [.access (.writeDbuf 1 0xFF)] ∧
    1 < bufMax (ready []).par ∧ hostRead (.dbuf 1) (loaded [] [1, 2]) = some 2 ∧
    (moving (.access (.read (.dbuf 1))) (loaded [] [1, 2])).hostQ = [.access (.read (.dbuf 1))] ∧
    (∀ j, HostReg.dbuf 1 = .dbuf j → j < bufMax (loaded [] [1, 2]).par) := by
  refine ⟨by decide, by decide, by decide, by decide, by decide, by decide, by decide, by decide, by decide,
    by decide, by decide, ?_⟩
  intro j h
  cases h
  decide

/-- DbufAccessPastTheEndFaults, at the first index that does not exist. -/
theorem test_hyps_past_the_end : bufMax (ready []).par ≤ 2 ∧
    step (moving (.access (.writeDbuf 2 0)) (ready [])) = .fault .dbufIndex ∧
    step (moving (.access (.read (.dbuf 2))) (ready [])) = .fault .dbufIndex := ⟨by decide, rfl, rfl⟩

/-- HostHasNoMoveWhileBusy. -/
theorem test_hyps_busy :
    step { moving (.issue 0x40100000) (ready []) with busy := true } = .refused .busy := rfl

/-- DeinitReturnsToTheResetState and CompletedCommandLeavesTheBlockQuiet. -/
theorem test_hyps_deinit : (heldBus []).csActive = false ∧ ∃ t, exec .deinit (heldBus []) = .next t :=
  ⟨by decide, _, rfl⟩

/-- InitConfiguresTheBus. -/
theorem test_hyps_init : argsHeld (withArgs 7 .first .first 100000) = true ∧ busIdValid testParams 7 = true ∧
    0 < (100000 : Word).toInt ∧ pinValid testParams .first .first = true ∧ busIsBitbang testParams 7 = true ∧
    (withArgs 7 .first .first 100000).par = testParams := by decide

/-- InitErrorChangesOnlyStatus: V104, V102 and V106, one for each way to fail. -/
theorem test_hyps_init_error : busIdValid testParams 9 = false ∧ busIdValid testParams 7 = true ∧
    (0 : Word).toInt ≤ 0 ∧
    pinValid { testParams with pinRule := .distinct } .first .first = false := by decide

/-- InitRefusesTheHardwarePath, V105, in both directions. -/
theorem test_hyps_hardware : busIdValid testParams 8 = true ∧ busIsBitbang testParams 8 = false ∧
    exec .init (withArgs 8 .first .first 100000) = .refused .hardwarePath := ⟨by decide, by decide, rfl⟩

/-- HalfPeriodIsClampedQuotient: both roundings, and a rate above K. -/
theorem test_hyps_half_period : 0 < (500001 : Word).toInt ∧ testParams.hpRounding = .floor ∧
    { testParams with hpRounding := .nearest }.hpRounding = .nearest ∧
    testParams.kScale.toNat < (500001 : Word).toInt.toNat := by decide

/-- OnlyConfiguredBlockAdmitsCommands: a command on each side. -/
theorem test_hyps_admission : Instr.ping 0x10 ≠ .init ∧ Instr.ping 0x10 ≠ .deinit ∧ admitted (ready []) = true ∧
    exec (.ping 0x10) (State.resetWith testParams) = .refused .notAdmitted :=
  ⟨by decide, by decide, by decide, rfl⟩

/-- DataCommandNeedsItsBuffer: LEN one above BUF_MAX (V93), and LEN = BUF_MAX with the last byte missing. -/
theorem test_hyps_buffer : bufMax testParams < { ready [] with len := 3 }.len.toNat ∧
    { ready [] with len := 2, dbuf := [(0, 1)] }.len.toNat ≤ bufMax testParams ∧
    dbufRead 1 { ready [] with len := 2, dbuf := [(0, 1)] } = none ∧ admitted (ready []) = true := by decide

/-- CommandsRunUnlessRefused, with other numbers in the registers a command does not read; EnvironmentCannotStopACommand,
and the statements about every command that answers a next state. -/
theorem test_hyps_runs : (∃ t, exec (.ping 0x10) (ready [false]) = .next t) ∧
    (∃ t, exec .init (withArgs 7 .first .first 100000) = .next t) ∧
    readsHeld .init (State.resetWith testParams) = false ∧
    readsHeld .init { withArgs 7 .first .first 100000 with held.len := false, len := 9 } = true ∧
    readsHeld .init { withArgs 9 .first .first 1 with held.argBaud := false, arg.baud := 5 } = true ∧
    readsHeld (.read 0x50) { ready [] with held.argBus := false, arg.bus := 5 } = true ∧
    exec (.ping 0x10) (State.resetWith testParams) = .refused .notAdmitted :=
  ⟨⟨_, rfl⟩, ⟨_, rfl⟩, rfl, rfl, rfl, rfl, rfl⟩

/-- The line commands, and SampleTakesAnAnswerOnlyFromAReleasedLine on a line of each kind. -/
theorem test_hyps_lines : admitted (heldBus []) = true ∧ driveOf .scl (heldBus []) = .low ∧
    driveOf .sda (heldBus []) = .released := by decide

/-- The engine commands from each clean line state (R125); ReadByteAssemblesEightSamples has both kinds of SDA. -/
theorem test_hyps_line_states : lineState (ready []) = some .idle ∧ lineState (heldBus []) = some .held ∧
    lineState (started []) = some .started ∧ admitted (ready []) = true ∧ (ready []).drvSda = .released ∧
    (started []).drvSda = .low := by decide

/-- SubAddressBytesFollowItsMagnitude, at the boundary. -/
theorem test_hyps_sub : (0x00FF : SubAddr).toNat ≤ 0xFF ∧ 0xFF < (0x0100 : SubAddr).toNat := by decide

/-- The writing transactions with LEN = BUF_MAX, acknowledged throughout and not. -/
theorem test_hyps_write : admitted (loaded [] [0x11, 0x22]) = true ∧
    (loaded [] [0x11, 0x22]).held.len = true ∧
    (loaded [] [0x11, 0x22]).len.toNat = bufMax (loaded [] [0x11, 0x22]).par ∧
    [(0x11 : Byte), 0x22].length = (loaded [] [0x11, 0x22]).len.toNat ∧
    (∀ j < 2, dbufRead j (loaded [] [0x11, 0x22]) = [(0x11 : Byte), 0x22][j]?) ∧
    acked (loaded [false, false, false] [0x11, 0x22]) 0 3 = true ∧
    acked (loaded [false, true] [0x11, 0x22]) 0 3 = false := by decide

/-- The reading transactions: no bytes with and without the bus, and LEN = BUF_MAX, acknowledged and not. -/
theorem test_hyps_read : { ready [] with par.read0Mode := .nobus }.par.read0Mode = .nobus ∧ (ready []).len = 0 ∧
    (ready []).par.read0Mode = .bus ∧ { ready [] with len := 2 }.len.toNat = bufMax testParams ∧
    admitted { ready [] with len := 2 } = true ∧ admitted { ready [] with par.read0Mode := .nobus } = true ∧
    ackAt (ready [false]) 0 = true ∧ ackAt (ready [true]) 0 = false ∧ (ready []).held.len = true := by decide

/-- FailedReadLeavesFreeBytes and BusErrorLeavesTheBusClosed. -/
theorem test_hyps_failed_read :
    after (exec (.read 0x50) { ready [true] with len := 2 }) (fun t => t.res.status = .busError) = true ∧
    after (exec (.readMem 0x50 0x10) { ready [true] with len := 2 }) (fun t => t.res.status = .busError) = true := by
  decide

/-- ErrorCodesHaveTheirRaisers: each error is raised somewhere. -/
theorem test_hyps_errors :
    after (exec (.write true 0x50) (loaded [true] [])) (fun t => t.res.status = .busError) = true ∧
    after (exec .init (withArgs 7 .first .first 0)) (fun t => t.res.status = .invalidArgument) = true ∧
    after (exec .init (withArgs 9 .first .first 0)) (fun t => t.res.status = .resourceUnavailable) = true := by
  decide +kernel

/-- EveryStepKeepsTheInvariant: a configured state has it, and a step runs from there. -/
theorem test_hyps_inv : (moving (.issue 0x40100000) (ready [false])).Inv ∧
    ∃ t, step (moving (.issue 0x40100000) (ready [false])) = .next t :=
  ⟨⟨⟨rfl, rfl, rfl, rfl⟩, by decide, by decide, by decide, by decide, by decide, by decide, by decide⟩, _, rfl⟩

/-- EveryStepKeepsThePhysicalContract: a step whose command is no hazard, and an INIT. -/
theorem test_hyps_step_contract : lineState (moving (.issue 0x40100000) (ready [false])) = some .idle ∧
    decode 0x40100000 = .ok (.ping 0x10) ∧
    protocolHazard (.ping 0x10) (moving (.issue 0x40100000) (ready [false])) = false ∧
    after (step (moving (.issue 0x40100000) (ready [false]))) (fun _ => true) = true ∧
    after (step (moving (.issue 0x08000000) { started [] with arg := (withArgs 7 .first .first 1).arg }))
      (fun t => lineState t = some .idle) = true := by decide +kernel

/-- HostReadsRightAfterReset: the last byte that exists, and a register that is no byte. -/
theorem test_hyps_unwritten : 1 < bufMax testParams ∧ ∀ j, HostReg.resCount ≠ .dbuf j :=
  ⟨by decide, nofun⟩

/-- TransactionsKeepThePhysicalContract: from each clean line state; a transaction that leaves the bus held. -/
theorem test_hyps_contract : lineState (started [false]) = some .started ∧
    after (exec .scan (started (List.replicate 112 true))) (fun t => !t.busOpen) = true ∧
    lineState (loaded [false] []) = some .idle ∧ lineState (heldBus [false]) = some .held ∧
    after (exec (.write false 0x50) (loaded [false] [])) (fun t => t.busOpen) = true ∧
    after (exec (.ping 0x10) (heldBus [false])) (fun t => !t.busOpen) = true := by decide +kernel

/-- CommandsWaitAsCounted: commands that complete with OK. -/
theorem test_hyps_counts :
    after (exec (.ping 0x10) (ready [false])) (fun t => t.res.status = .ok) = true ∧
    after (exec (.write true 0x50) (loaded [false] [])) (fun t => t.res.status = .ok) = true := by decide +kernel

/-- InstancesShareNoState: two instances, one of which runs. -/
theorem test_hyps_instances :
    (∃ t, step (#v[moving (.issue 0xD8000000) (ready []), ready []] : System 2)[(0 : Fin 2)] = .next t) ∧
    ∃ z, System.stepAt (0 : Fin 2) (#v[moving (.issue 0xD8000000) (ready []), ready []] : System 2) = .next z :=
  ⟨⟨_, rfl⟩, ⟨_, rfl⟩⟩

end Sys2Proof.Tests
end

/-! PROOFS. Which commands are admitted (R42), and which command writes which result register (R45). -/

namespace Sys2Proof.Machine

/-! ### Admission (R42) -/

theorem admitted_iff (s : State) :
    admitted s = true ↔ s.cfg.state = .configured ∧ busIsBitbang s.par s.cfg.busId = true := by
  simp [admitted]

theorem withLen_ne_notAdmitted {s : State} {k : State → Host.Outcome State Fault Refusal}
    (h : k s ≠ .refused .notAdmitted) : withLen s k ≠ .refused .notAdmitted := by
  unfold withLen
  split
  · exact h
  · nofun

theorem withPayload_ne_notAdmitted {s : State} {k : List Byte → State → Host.Outcome State Fault Refusal}
    (h : ∀ bytes, k bytes s ≠ .refused .notAdmitted) : withPayload s k ≠ .refused .notAdmitted := by
  unfold withPayload
  split
  · exact h _
  · nofun

theorem ifAdmitted_eq_notAdmitted_iff {s : State} {k : State → Host.Outcome State Fault Refusal}
    (h : k s ≠ .refused .notAdmitted) : ifAdmitted s k = .refused .notAdmitted ↔ ¬ admitted s = true := by
  unfold ifAdmitted
  split <;> simp [*]

theorem execInit_ne_notAdmitted (s : State) : execInit s ≠ .refused .notAdmitted := by
  unfold execInit
  split <;> nofun

/-- Every command but INIT and DEINIT asks for admission first, and refuses it nowhere else (R42). -/
theorem exec_eq_notAdmitted_iff {i : Instr} (hi : i ≠ .init) (hd : i ≠ .deinit) (s : State) :
    exec i s = .refused .notAdmitted ↔ ¬ admitted s = true := by
  cases i with
  | init | deinit => contradiction
  | write | writeMem =>
    simp only [exec, execWrite, execWriteMem]
    exact ifAdmitted_eq_notAdmitted_iff (withLen_ne_notAdmitted (withPayload_ne_notAdmitted fun _ => nofun))
  | read | readMem =>
    simp only [exec, execRead, execReadMem]
    refine ifAdmitted_eq_notAdmitted_iff (withLen_ne_notAdmitted ?_)
    split <;> nofun
  | scan | ping | start | stop | writeByte | readByte | driveLow | release | readLine | delay =>
    simp only [exec, execScan, execPing, execStart, execStop, execWriteByte, execReadByte, execDriveLow,
      execRelease, execReadLine, execDelay]
    exact ifAdmitted_eq_notAdmitted_iff nofun

/-- Settles O24: INIT and DEINIT ask for no admission, and `admitted` is what R42 has every other command ask for. -/
theorem onlyConfiguredBlockAdmitsCommands : Obligations.OnlyConfiguredBlockAdmitsCommands := by
  unfold Obligations.OnlyConfiguredBlockAdmitsCommands
  refine fun i s => ⟨execInit_ne_notAdmitted s, nofun, fun hi hd => ?_⟩
  rw [exec_eq_notAdmitted_iff hi hd, admitted_iff]

/-! ### The result registers (R45)

What the parts of a command's end state leave in the RES and SCAN registers. -/

@[simp] theorem sample_res (l : Line) (s : State) : (sample l s).2.res = s.res := by
  simp only [sample, sampleBit, envDraw_eq]
  split <;> rfl

@[simp] theorem sample_scan (l : Line) (s : State) : (sample l s).2.scan = s.scan := by
  simp only [sample, sampleBit, envDraw_eq]
  split <;> rfl

@[simp] theorem drive_res (l : Line) (d : Drive) (s : State) : (drive l d s).res = s.res := by cases l <;> rfl
@[simp] theorem drive_scan (l : Line) (d : Drive) (s : State) : (drive l d s).scan = s.scan := by cases l <;> rfl
@[simp] theorem driveLow_res (l : Line) (s : State) : (driveLow l s).res = s.res := drive_res l .low s
@[simp] theorem driveLow_scan (l : Line) (s : State) : (driveLow l s).scan = s.scan := drive_scan l .low s
@[simp] theorem release_res (l : Line) (s : State) : (release l s).res = s.res := drive_res l .released s
@[simp] theorem release_scan (l : Line) (s : State) : (release l s).scan = s.scan := drive_scan l .released s
@[simp] theorem wait_res (s : State) : (wait s).res = s.res := rfl
@[simp] theorem wait_scan (s : State) : (wait s).scan = s.scan := rfl
@[simp] theorem configure_res (s : State) : (configure s).res = s.res := rfl
@[simp] theorem configure_scan (s : State) : (configure s).scan = s.scan := rfl
@[simp] theorem deconfigure_res (s : State) : (deconfigure s).res = s.res := rfl
@[simp] theorem deconfigure_scan (s : State) : (deconfigure s).scan = s.scan := rfl
@[simp] theorem emptyRead_res (s : State) : (emptyRead s).res = { s.res with count := 0, status := .ok } := rfl
@[simp] theorem emptyRead_scan (s : State) : (emptyRead s).scan = s.scan := rfl

@[simp] theorem listAll_res (as : List Addr) (s : State) : (listAll as s).res = s.res := by rw [listAll_eq]

/-- Settles O55: `exec_next` names every state a command can end in, and the RES and SCAN registers of each are read
off the field lemmas of the operations that built it (R45). -/
theorem resultRegistersHaveTheirWriters : Obligations.ResultRegistersHaveTheirWriters := by
  unfold Obligations.ResultRegistersHaveTheirWriters
  intro i s t h
  have ends := exec_next h
  cases i with
  | init =>
    obtain ⟨-, ⟨-, rfl⟩ | ⟨-, -, rfl⟩ | ⟨-, -, -, rfl⟩⟩ := ends <;> simp
  | deinit =>
    obtain rfl := ends
    simp
  | write | writeMem =>
    obtain ⟨-, -, bytes, p, w, -, rfl⟩ := ends
    simp
  | read =>
    obtain ⟨-, -, ⟨-, -, rfl⟩ | ⟨-, p, w, rfl⟩⟩ := ends <;> simp
  | readMem =>
    obtain ⟨-, -, ⟨-, rfl⟩ | ⟨-, p, w, rfl⟩⟩ := ends <;> simp
  | scan | ping | start | stop | writeByte | readByte | driveLow | release | readLine | delay =>
    obtain ⟨-, rfl⟩ := ends
    simp

end Sys2Proof.Machine

/-! PROOFS. Which row of R75 a word is in, and the words that are in none (R76 to R79). -/

namespace Sys2Proof

/-- Two operations have two OP values (R71, R75). -/
theorem Opcode.bits_injective : Function.Injective Opcode.bits := fun o p h =>
  Option.some.inj (by rw [← o.ofBits_bits, h, p.ofBits_bits])

/-- The rows of R75 are disjoint: a row fixes the word's OP. -/
theorem Opcode.eq_of_mask_match {o p : Opcode} {w : Word} (ho : w &&& o.maskWord = o.matchWord)
    (hp : w &&& p.maskWord = p.matchWord) : o = p := by
  obtain ⟨hopO, -, -⟩ := (o.mask_match_iff w).mp ho
  obtain ⟨hopP, -, -⟩ := (p.mask_match_iff w).mp hp
  exact Opcode.bits_injective (hopO.symm.trans hopP)

/-- A word in no row of R75 is illegal. -/
theorem decode_error_of_no_row {w : Word} (h : ∀ o : Opcode, w &&& o.maskWord ≠ o.matchWord) :
    ∃ e, decode w = .error e := by
  cases hd : decode w with
  | error e => exact ⟨e, rfl⟩
  | ok i =>
    obtain ⟨o, ho, -⟩ := mask_match_of_decode hd
    exact absurd ho (h o)

/-- RSV is bit 23 (R70). -/
theorem CommandFields.ofWord_rsv_getLsbD (w : Word) : (CommandFields.ofWord w).rsv.getLsbD 0 = w.getLsbD 23 := by
  simp only [CommandFields.ofWord, BitVec.getLsbD_extractLsb', Nat.zero_lt_one, decide_true, Bool.true_and]

/-- In every row of R75 bit 23 is 0 (R77). -/
theorem Opcode.reserved_bit_of_mask_match {o : Opcode} {w : Word} (h : w &&& o.maskWord = o.matchWord) :
    w.getLsbD 23 = false := by
  obtain ⟨-, hr, -⟩ := (o.mask_match_iff w).mp h
  rw [← CommandFields.ofWord_rsv_getLsbD, hr]
  rfl

/-- Settles O3: a row says what a legal word's fields are, and `Opcode.build` keeps such fields. -/
theorem decodeSelectsTheUniqueTableRow : Obligations.DecodeSelectsTheUniqueTableRow := by
  unfold Obligations.DecodeSelectsTheUniqueTableRow
  refine fun w => ⟨fun o ho => ?_, fun _ _ => Opcode.eq_of_mask_match, decode_error_of_no_row⟩
  obtain ⟨hop, hr, hu⟩ := (o.mask_match_iff w).mp ho
  obtain ⟨hfields, hopcode⟩ := Opcode.fields_build hop hr hu
  exact ⟨_, decode_of_mask_match ho, hopcode, hfields⟩

/-- Settles O5: a word with bit 23 set is in no row. -/
theorem reservedBitMakesAWordIllegal : Obligations.ReservedBitMakesAWordIllegal := by
  unfold Obligations.ReservedBitMakesAWordIllegal
  refine fun w h => decode_error_of_no_row fun o ho => ?_
  exact Bool.false_ne_true ((Opcode.reserved_bit_of_mask_match ho).symm.trans h)

end Sys2Proof

/-! PROOFS. SAMPLE and the line commands (R104, R110 to R113). -/

namespace Sys2Proof.Machine

/-! ### SAMPLE (R104) -/

theorem sample_fst (l : Line) (s : State) : (sample l s).1 = (driveOf l s = .released && upcoming s 0) := by
  cases h : driveOf l s
  · simp [sample_low h]
  · simp [sample_released h]

theorem eventsOf_sample (l : Line) (s : State) :
    eventsOf (sample l s).2 = eventsOf s ++ [.sample l (sample l s).1] := by
  obtain ⟨n, hn⟩ := sample_snd l s
  rw [hn, eventsOf_micro]
  rfl

/-- A SAMPLE writes no block state but MPC. -/
theorem sample_frame (l : Line) (s : State) :
    { (sample l s).2 with trace := s.trace, mpc := s.mpc, draws := s.draws } = s := by
  obtain ⟨n, hn⟩ := sample_snd l s
  rw [hn]
  rfl

@[simp] theorem sample_drvScl (l : Line) (s : State) : (sample l s).2.drvScl = s.drvScl :=
  (congrArg State.drvScl (sample_frame l s) :)
@[simp] theorem sample_drvSda (l : Line) (s : State) : (sample l s).2.drvSda = s.drvSda :=
  (congrArg State.drvSda (sample_frame l s) :)
@[simp] theorem sample_busOpen (l : Line) (s : State) : (sample l s).2.busOpen = s.busOpen :=
  (congrArg State.busOpen (sample_frame l s) :)
@[simp] theorem sample_csActive (l : Line) (s : State) : (sample l s).2.csActive = s.csActive :=
  (congrArg State.csActive (sample_frame l s) :)
@[simp] theorem sample_dbuf (l : Line) (s : State) : (sample l s).2.dbuf = s.dbuf :=
  (congrArg State.dbuf (sample_frame l s) :)

theorem AnswersTaken.takeDraws (n : Nat) (s : State) : AnswersTaken n s (Machine.takeDraws n s) :=
  ⟨rfl, fun k => upcoming_takeDraws n k s⟩

/-- A SAMPLE takes an answer only of a released line. -/
theorem AnswersTaken.sample (l : Line) (s : State) :
    AnswersTaken (if driveOf l s = .released then 1 else 0) s (Machine.sample l s).2 := by
  cases h : driveOf l s
  · rw [sample_low h]
    exact (AnswersTaken.refl s).congr rfl rfl
  · rw [sample_released h]
    exact (AnswersTaken.takeDraws 1 s).congr rfl rfl

theorem AnswersTaken.setLevel {n : Nat} {s t : State} (h : AnswersTaken n s t) (b : Bool) :
    AnswersTaken n s (Machine.setLevel b t) := h.congr rfl rfl

/-- Settles O32: by the two cases of the drive state, `sample_low` and `sample_released`; the event and the frame are
the same in both. -/
theorem sampleTakesAnAnswerOnlyFromAReleasedLine : Obligations.SampleTakesAnAnswerOnlyFromAReleasedLine := by
  unfold Obligations.SampleTakesAnAnswerOnlyFromAReleasedLine
  refine fun l s => ⟨fun h => ?low, fun h => ⟨?answer, fun k => ?later⟩, eventsOf_sample l s, sample_frame l s⟩
  case low => exact ⟨by rw [sample_low h], by rw [sample_low h]; rfl⟩
  case answer => rw [sample_released h]
  case later =>
    have taken := AnswersTaken.sample l s
    rw [if_pos h] at taken
    rw [taken.later, Nat.add_comm]

/-! ### Driving a line (R100, R101) -/

theorem eventsOf_drive (l : Line) (d : Drive) (s : State) : eventsOf (drive l d s) = eventsOf s ++ [.drive l d] := by
  rw [drive, eventsOf_micro]
  cases l <;> rfl

@[simp] theorem driveOf_finish (l : Line) (st : Status) (s : State) : driveOf l (finish st s) = driveOf l s := by
  cases l <;> rfl

@[simp] theorem driveOf_drive_self (l : Line) (d : Drive) (s : State) : driveOf l (drive l d s) = d := by
  cases l <;> rfl

theorem driveOf_drive_of_ne {l m : Line} (h : m ≠ l) (d : Drive) (s : State) :
    driveOf m (drive l d s) = driveOf m s := by
  cases l <;> cases m
  case scl.sda | sda.scl => rfl
  all_goals contradiction

@[simp] theorem drive_busOpen (l : Line) (d : Drive) (s : State) : (drive l d s).busOpen = s.busOpen := by
  cases l <;> rfl
@[simp] theorem drive_csActive (l : Line) (d : Drive) (s : State) : (drive l d s).csActive = s.csActive := by
  cases l <;> rfl
@[simp] theorem drive_dbuf (l : Line) (d : Drive) (s : State) : (drive l d s).dbuf = s.dbuf := by cases l <;> rfl
@[simp] theorem drive_draws (l : Line) (d : Drive) (s : State) : (drive l d s).draws = s.draws := by cases l <;> rfl

theorem AnswersTaken.drive (l : Line) (d : Drive) (s : State) : AnswersTaken 0 s (Machine.drive l d s) :=
  (AnswersTaken.refl s).congr (by rw [drive_draws]) (by rw [drive_draws])

/-! ### What the line commands leave alone -/

theorem dbufRead_congr {s t : State} (h : t.dbuf = s.dbuf) (j : Nat) : dbufRead j t = dbufRead j s := by
  rw [dbufRead, dbufRead, h]

theorem Untouched.finish {s t : State} (h : Untouched s t) (st : Status) : Untouched s (Machine.finish st t) :=
  ⟨h.par, h.cfg, h.arg, h.len, h.cmd, h.hostQ, h.hostSaw⟩

theorem Untouched.setLevel {s t : State} (h : Untouched s t) (b : Bool) : Untouched s (Machine.setLevel b t) :=
  ⟨h.par, h.cfg, h.arg, h.len, h.cmd, h.hostQ, h.hostSaw⟩

theorem Untouched.drive (l : Line) (d : Drive) (s : State) : Untouched s (Machine.drive l d s) := by
  cases l <;> exact ⟨rfl, rfl, rfl, rfl, rfl, rfl, rfl⟩

theorem Untouched.wait (s : State) : Untouched s (Machine.wait s) := ⟨rfl, rfl, rfl, rfl, rfl, rfl, rfl⟩

theorem Untouched.sample (l : Line) (s : State) : Untouched s (Machine.sample l s).2 := by
  obtain ⟨n, hn⟩ := sample_snd l s
  rw [hn]
  exact ⟨rfl, rfl, rfl, rfl, rfl, rfl, rfl⟩

/-! ### The line commands (R110 to R113) -/

theorem ifAdmitted_of_admitted {s : State} (h : admitted s = true)
    (k : State → Host.Outcome State Fault Refusal) : ifAdmitted s k = k s := if_pos h

theorem exec_refused_of_not_admitted (i : Instr) (hi : i ≠ .init) (hd : i ≠ .deinit) {s : State}
    (h : admitted s = false) : exec i s = .refused .notAdmitted :=
  (exec_eq_notAdmitted_iff hi hd s).mpr (by rw [h]; exact Bool.false_ne_true)

theorem exec_driveLow {s : State} (h : admitted s = true) (l : Line) :
    exec (.driveLow l) s = .next (finish .ok (drive l .low s)) := by
  simp only [exec, execDriveLow, ifAdmitted_of_admitted h, driveLow]

theorem exec_release {s : State} (h : admitted s = true) (l : Line) :
    exec (.release l) s = .next (finish .ok (drive l .released s)) := by
  simp only [exec, execRelease, ifAdmitted_of_admitted h, release]

theorem exec_readLine {s : State} (h : admitted s = true) (l : Line) :
    exec (.readLine l) s = .next (finish .ok (setLevel (sample l s).1 (sample l s).2)) := by
  simp only [exec, execReadLine, ifAdmitted_of_admitted h]

theorem exec_delay {s : State} (h : admitted s = true) :
    exec .delay s = .next (finish .ok (wait s)) := by
  simp only [exec, execDelay, ifAdmitted_of_admitted h]

/-- A command that is one drive of a line: DRIVE_LOW and RELEASE (R110, R111). -/
theorem finish_drive_spec (l : Line) (d : Drive) (s : State) : let t := finish .ok (drive l d s)
    eventsOf t = eventsOf s ++ [.drive l d, .complete .ok] ∧
      driveOf l t = d ∧ (∀ m, m ≠ l → driveOf m t = driveOf m s) ∧ t.busOpen = s.busOpen ∧
      t.res = { s.res with status := .ok } ∧ t.scan = s.scan ∧ t.csActive = s.csActive ∧ t.busy = false ∧
      t.phase = .idle ∧ t.mpc = none ∧ AnswersTaken 0 s t ∧ Untouched s t ∧ ∀ j, dbufRead j t = dbufRead j s := by
  refine ⟨?events, by simp, fun m hm => ?others, by simp, by simp, by simp, by simp, rfl, rfl, rfl,
    (AnswersTaken.drive l d s).finish .ok, (Untouched.drive l d s).finish .ok, dbufRead_congr (by simp)⟩
  case others => rw [driveOf_finish, driveOf_drive_of_ne hm]
  case events => rw [eventsOf_finish, eventsOf_drive, List.append_assoc]; rfl

/-- Settles O28: DRIVE_LOW is one drive of its line. -/
theorem driveLowPullsItsLineLow : Obligations.DriveLowPullsItsLineLow := by
  unfold Obligations.DriveLowPullsItsLineLow
  exact fun l s => ⟨encode_mask (.driveLow l), exec_refused_of_not_admitted (.driveLow l) nofun nofun,
    fun ha => ⟨_, exec_driveLow ha l, finish_drive_spec l .low s⟩⟩

/-- Settles O29: RELEASE is one drive of its line. -/
theorem releaseStopsDrivingItsLine : Obligations.ReleaseStopsDrivingItsLine := by
  unfold Obligations.ReleaseStopsDrivingItsLine
  exact fun l s => ⟨encode_mask (.release l), exec_refused_of_not_admitted (.release l) nofun nofun,
    fun ha => ⟨_, exec_release ha l, finish_drive_spec l .released s⟩⟩

/-- Settles O30: READ_LINE is one SAMPLE, whose bit it stores in RES_LEVEL. -/
theorem readLineSamplesTheWiredAnd : Obligations.ReadLineSamplesTheWiredAnd := by
  unfold Obligations.ReadLineSamplesTheWiredAnd
  refine fun l s => ⟨encode_mask (.readLine l), exec_refused_of_not_admitted (.readLine l) nofun nofun, fun ha =>
    ⟨_, exec_readLine ha l, ?res, ((AnswersTaken.sample l s).setLevel _).finish .ok, ?events, by simp, by simp,
      by simp, by simp, by simp, rfl, rfl, rfl, ((Untouched.sample l s).setLevel _).finish .ok,
      dbufRead_congr (by simp)⟩⟩
  case res => rw [finish_res, setLevel_res, sample_res, sample_fst]
  case events => rw [eventsOf_finish, eventsOf_setLevel, eventsOf_sample, List.append_assoc]; rfl

/-- Settles O31: DELAY is one WAIT. -/
theorem delayWaitsOneHalfPeriod : Obligations.DelayWaitsOneHalfPeriod := by
  unfold Obligations.DelayWaitsOneHalfPeriod
  refine ⟨by decide, fun s => ⟨exec_refused_of_not_admitted .delay nofun nofun, fun ha =>
    ⟨_, exec_delay ha, ?events, rfl, rfl, rfl, rfl, rfl, rfl, rfl, rfl, rfl,
      (AnswersTaken.refl s).congr rfl rfl, (Untouched.wait s).finish .ok, dbufRead_congr rfl⟩⟩⟩
  case events => rw [eventsOf_finish, wait, eventsOf_micro, List.append_assoc]; rfl

end Sys2Proof.Machine

/-! PROOFS. The half-period (R120) and the engine commands (R127 to R130). -/

namespace Sys2Proof.Machine

/-! ### The half-period (R120) -/

/-- With floor, a rate above K has the half-period 1. -/
theorem halfPeriodOf_floor_of_lt {k b : Nat} (h : k < b) : halfPeriodOf k .floor b = 1 := by
  rw [halfPeriodOf, Nat.div_eq_of_lt h, max_eq_left zero_le_one]

/-- Settles O23: CFG_HALF_PERIOD holds `halfPeriodOf` whole, and `halfPeriodOf_bounds` bounds that. -/
theorem halfPeriodIsClampedQuotient : Obligations.HalfPeriodIsClampedQuotient := by
  unfold Obligations.HalfPeriodIsClampedQuotient
  refine ⟨rfl, rfl, fun p baud hb => ?_⟩
  obtain ⟨least, most, -⟩ :=
    halfPeriodOf_bounds p.kScale p.hpRounding (b := baud.toInt.toNat) (Int.pos_iff_toNat_pos.mp hb)
  rw [toNat_halfPeriod p hb]
  refine ⟨fun floor => ?_, fun nearest => ?_, least, most, fun above floor => ?_⟩
  · rw [floor, halfPeriodOf]
  · rw [nearest, halfPeriodOf]
  · rw [floor, halfPeriodOf_floor_of_lt above]

/-! ### What an effect and the end of a command leave -/

theorem State.Quiet.finish {s : State} (h : s.csActive = false) (st : Status) : (Machine.finish st s).Quiet :=
  ⟨rfl, h, rfl, rfl⟩

theorem Untouched.effect (e : Effect) (s : State) : Untouched s (Machine.effect e s) :=
  ⟨rfl, rfl, rfl, rfl, rfl, rfl, rfl⟩

theorem Untouched.setAck {s t : State} (h : Untouched s t) (b : Bool) : Untouched s (Machine.setAck b t) :=
  ⟨h.par, h.cfg, h.arg, h.len, h.cmd, h.hostQ, h.hostSaw⟩

theorem Untouched.setByte {s t : State} (h : Untouched s t) (v : Byte) : Untouched s (Machine.setByte v t) :=
  ⟨h.par, h.cfg, h.arg, h.len, h.cmd, h.hostQ, h.hostSaw⟩

theorem AnswersTaken.setAck {n : Nat} {s t : State} (h : AnswersTaken n s t) (b : Bool) :
    AnswersTaken n s (Machine.setAck b t) := h.congr rfl rfl

theorem AnswersTaken.setByte {n : Nat} {s t : State} (h : AnswersTaken n s t) (v : Byte) :
    AnswersTaken n s (Machine.setByte v t) := h.congr rfl rfl

theorem AnswersTaken.symbolEffect (s : State) (b : ByteEvent) (d : Nat) (scl sda : Drive) (busOpen : Bool) (p : Phase)
    (w : Work) : AnswersTaken d s (Machine.effect (Machine.symbolEffect s b d scl sda busOpen p w) s) :=
  ⟨rfl, upcoming_effect _ s⟩

theorem byteTraceEvents_singleton (h : Word) (b : ByteEvent) : byteTraceEvents h [b] = b.events h :=
  List.append_nil _

/-! ### The engine commands, each as one effect -/

theorem exec_start {s : State} (h : admitted s = true) : exec .start s =
    .next (finish .ok (effect (symbolEffect s .start 0 .released .low true .start s.work) s)) := by
  simp only [exec, execStart, ifAdmitted_of_admitted h, startSeq_eq, symbolEffect, byteTraceEvents_singleton,
    ByteEvent.events]

theorem exec_stop {s : State} (h : admitted s = true) : exec .stop s =
    .next (finish .ok (effect (symbolEffect s .stop 0 .released .released false .idle s.work) s)) := by
  simp only [exec, execStop, ifAdmitted_of_admitted h, stopSeq_eq, symbolEffect, byteTraceEvents_singleton,
    ByteEvent.events]

theorem exec_writeByte {s : State} (h : admitted s = true) (v : Byte) : exec (.writeByte v) s =
    .next (finish .ok (setAck (ackAt s 0)
      (effect (symbolEffect s (.wrote v (ackAt s 0)) 1 .low .released s.busOpen s.phase s.work) s))) := by
  simp only [exec, execWriteByte, ifAdmitted_of_admitted h, writeByteSeq_eq, symbolEffect, byteTraceEvents_singleton]

theorem exec_readByte {s : State} (h : admitted s = true) (nack : Bool) : exec (.readByte nack) s =
    .next (finish .ok (setByte (heardByte s)
      (effect (symbolEffect s (.got (heardByte s) (!nack)) (heardDraws s 8) .low .released s.busOpen s.phase
        { s.work with shift := heardByte s, bitcnt := 8 }) s))) := by
  simp only [exec, execReadByte, ifAdmitted_of_admitted h, readByteSeq_eq, symbolEffect, byteTraceEvents_singleton]

/-! ### What READ_BYTE hears (R104, R124) -/

/-- A byte assembled from answers has the k-th of them in bit 7 - k (R52). -/
theorem getLsbD_byteAt (s : State) (i : Nat) {k : Nat} (h : k < 8) :
    (byteAt s i).getLsbD (7 - k) = upcoming s (i + k) := by
  have bits : (List.range 8).map (fun j => (byteAt s i).getLsbD (7 - j)) =
      (List.range 8).map fun j => upcoming s (i + j) := bitsMsbFirst_shiftIn _
  exact List.map_inj_left.mp bits k (List.mem_range.mpr h)

theorem heardDraws_released {s : State} (h : s.drvSda = .released) (n : Nat) : heardDraws s n = n := by
  simp [heardDraws, h]

theorem heardDraws_low {s : State} (h : s.drvSda = .low) (n : Nat) : heardDraws s n = 0 := if_pos h

/-! ### The engine commands (R127 to R130) -/

/-- Settles O36: READ_BYTE is one effect, and what it hears is eight answers where SDA was released and nothing where
the master held it low. -/
theorem readByteAssemblesEightSamples : Obligations.ReadByteAssemblesEightSamples := by
  unfold Obligations.ReadByteAssemblesEightSamples
  refine fun nack s => ⟨encode_mask (.readByte nack), exec_refused_of_not_admitted (.readByte nack) nofun nofun,
    fun ha => ⟨_, heardByte s, exec_readByte ha nack, rfl, fun hr => ⟨fun k hk => ?bits, ?eight⟩,
      fun hl => ⟨heardByte_low hl, ?none⟩, ?events, rfl, rfl, rfl, rfl, .finish rfl .ok,
      ((Untouched.effect _ s).setByte _).finish .ok, fun _ => rfl⟩⟩
  case bits => rw [heardByte_released hr, getLsbD_byteAt s 0 hk, Nat.zero_add]
  case eight => exact ((AnswersTaken.effect (heardDraws_released hr 8) s).setByte _).finish .ok
  case none => exact ((AnswersTaken.effect (heardDraws_low hl 8) s).setByte _).finish .ok
  case events => rw [eventsOf_finish, eventsOf_setByte, eventsOf_effect]; rfl

/-- Settles O33: START is one effect, and `edges_start` names its edges. -/
theorem startOpensTheBus : Obligations.StartOpensTheBus := by
  unfold Obligations.StartOpensTheBus
  refine ⟨by decide, fun s => ⟨exec_refused_of_not_admitted .start nofun nofun, fun ha =>
    ⟨_, exec_start ha, ?events, ?edges, rfl, rfl, rfl, rfl, rfl, .finish rfl .ok,
      (AnswersTaken.symbolEffect ..).finish .ok, (Untouched.effect _ s).finish .ok, fun _ => rfl⟩⟩⟩
  case events => rw [eventsOf_finish, eventsOf_effect]; rfl
  case edges => rw [byteTraceEvents_singleton, ByteEvent.events, (edges_start _ _ _).1]

/-- Settles O34: STOP is one effect, and `edges_stop` names its edges. -/
theorem stopClosesTheBus : Obligations.StopClosesTheBus := by
  unfold Obligations.StopClosesTheBus
  refine ⟨by decide, fun s => ⟨exec_refused_of_not_admitted .stop nofun nofun, fun ha =>
    ⟨_, exec_stop ha, ?events, ?edges, rfl, rfl, rfl, rfl, rfl, .finish rfl .ok,
      (AnswersTaken.symbolEffect ..).finish .ok, (Untouched.effect _ s).finish .ok, fun _ => rfl⟩⟩⟩
  case events => rw [eventsOf_finish, eventsOf_effect]; rfl
  case edges => rw [byteTraceEvents_singleton, ByteEvent.events, (edges_stop _ _ _).1]

/-- Settles O35: WRITE_BYTE is one effect that takes one answer, whose negation is the acknowledgment (R123). -/
theorem writeByteReportsTheAcknowledgment : Obligations.WriteByteReportsTheAcknowledgment := by
  unfold Obligations.WriteByteReportsTheAcknowledgment
  refine fun v s => ⟨encode_mask (.writeByte v), exec_refused_of_not_admitted (.writeByte v) nofun nofun,
    fun ha => ⟨_, exec_writeByte ha v, rfl, ?events, rfl, rfl, rfl, rfl, .finish rfl .ok,
      ((AnswersTaken.symbolEffect ..).setAck _).finish .ok, ((Untouched.effect _ s).setAck _).finish .ok,
      fun _ => rfl⟩⟩
  case events => rw [eventsOf_finish, eventsOf_setAck, eventsOf_effect]; rfl

end Sys2Proof.Machine

/-! PROOFS. The transactions (R141, R143 to R147, R150). -/

namespace Sys2Proof.Machine

/-! ### The sub-address bytes (R141) -/

theorem map_toNat_subBytes_of_le {sub : SubAddr} (h : sub.toNat ≤ 0xFF) :
    (subBytes sub).map (·.toNat) = [sub.toNat] := by
  have small : sub ≤ 0xFF := h
  rw [subBytes, if_pos small, List.map_singleton, BitVec.extractLsb'_toNat, Nat.shiftRight_zero,
    Nat.mod_eq_of_lt (by omega)]

theorem map_toNat_subBytes_of_lt {sub : SubAddr} (h : 0xFF < sub.toNat) :
    (subBytes sub).map (·.toNat) = [sub.toNat / 256, sub.toNat % 256] := by
  have large : ¬ sub ≤ 0xFF := Nat.not_le.mpr h
  have high : (sub.extractLsb' 8 8).toNat = sub.toNat / 256 := by
    rw [BitVec.extractLsb'_toNat, Nat.shiftRight_eq_div_pow]
    omega
  have low : (sub.extractLsb' 0 8).toNat = sub.toNat % 256 := by
    rw [BitVec.extractLsb'_toNat, Nat.shiftRight_zero]
  rw [subBytes, if_neg large, List.map_cons, List.map_singleton, high, low]

/-- Settles O40: the two branches of `subBytes`, read as numbers. -/
theorem subAddressBytesFollowItsMagnitude : Obligations.SubAddressBytesFollowItsMagnitude := by
  unfold Obligations.SubAddressBytesFollowItsMagnitude
  exact ⟨fun _ => ⟨map_toNat_subBytes_of_le, map_toNat_subBytes_of_lt⟩, by decide, by decide, by decide⟩

/-! ### The end of a transaction (R143 to R146, R202) -/

theorem lenFits_of_le {s : State} (h : s.len.toNat ≤ bufMax s.par) : lenFits s = true := decide_eq_true h

theorem statusOf_eq_busError_iff {ok : Bool} : statusOf ok = .busError ↔ ok = false := by cases ok <;> decide

/-- What every transaction that did e from s leaves at its end t, but for DBUF: ok says that it was acknowledged
throughout. -/
structure Concluded (ok : Bool) (e : Effect) (s t : State) : Prop where
  events    : eventsOf t = eventsOf s ++ e.events ++ [.complete (statusOf ok)]
  status    : t.res.status = statusOf ok
  count     : ok = true → t.res.count = s.len
  busOpen   : t.busOpen = e.busOpen
  scl       : t.drvScl = e.scl
  sda       : t.drvSda = e.sda
  quiet     : t.Quiet
  ack       : t.res.ack = s.res.ack
  byte      : t.res.byte = s.res.byte
  level     : t.res.level = s.res.level
  scan      : t.scan = s.scan
  answers   : AnswersTaken e.draws s t
  untouched : Untouched s t

/-- The end of a transaction, whatever its cleanup has left in DBUF and drawn of the free values. -/
theorem concluded_cleanup (ok : Bool) (e : Effect) (s : State) (m : Memory) (c : Nat) :
    Concluded ok e s (concludeWrite (ok, { effect e s with dbuf := m, draws.freeCtr := c })) where
  events := by rw [eventsOf_concludeWrite, ← eventsOf_effect]; rfl
  status := by simp
  count := by rintro rfl; simp
  busOpen := by simp
  scl := by simp
  sda := by simp
  quiet := ⟨by simp, by simp, by simp, by simp⟩
  ack := by simp
  byte := by simp
  level := by simp
  scan := by simp
  answers := (AnswersTaken.effect (e := e) rfl s).congr (by simp) (by simp)
  untouched := ⟨by simp, by simp, by simp, by simp, by simp, by simp, by simp⟩

theorem concluded_concludeWrite (ok : Bool) (e : Effect) (s : State) :
    Concluded ok e s (concludeWrite (ok, effect e s)) :=
  concluded_cleanup ok e s e.dbuf s.draws.freeCtr

theorem concluded_concludeRead (ok : Bool) (e : Effect) (s : State) :
    Concluded ok e s (concludeRead (ok, effect e s)) := by
  rw [concludeRead_eq]
  cases ok
  case true => exact concluded_concludeWrite true e s
  case false =>
    simp only [Bool.false_eq_true, if_false, abortCleanup_eq]
    exact concluded_cleanup false e s _ _

/-- A command that ends as a writing transaction does leaves in DBUF what its effect left there. -/
theorem concluded_of_exec_write {i : Instr} {ok : Bool} {e : Effect} {s : State}
    (h : exec i s = .next (concludeWrite (ok, effect e s))) :
    ∃ t, exec i s = .next t ∧ Concluded ok e s t ∧ t.dbuf = e.dbuf :=
  ⟨_, h, concluded_concludeWrite ok e s, concludeWrite_dbuf _⟩

/-! ### WRITE, WRITE_MEM and PING (R143, R145, R147) -/

/-- Settles O41: WRITE is one effect, `execWrite_eq`, and the end of a writing transaction. -/
theorem writeSendsAddressAndPayload : Obligations.WriteSendsAddressAndPayload := by
  unfold Obligations.WriteSendsAddressAndPayload
  refine fun sendStop a s bytes => ⟨encode_mask (.write sendStop a), fun ha _ hfit hlen hread => ?_⟩
  obtain ⟨p, w, hexec⟩ := execWrite_eq a sendStop ha (lenFits_of_le hfit) (payload_eq_some.mpr ⟨hlen, hread⟩)
  obtain ⟨t, hexec, c, hdbuf⟩ := concluded_of_exec_write hexec
  exact ⟨t, hexec, c.events, c.status, c.count, c.busOpen, c.scl, c.sda, c.quiet, c.ack, c.byte, c.level, c.scan,
    c.answers, c.untouched, dbufRead_congr hdbuf⟩

/-- Settles O42: WRITE_MEM is one effect, `execWriteMem_eq`, and the end of a writing transaction. -/
theorem writeMemSendsSubAddressFirst : Obligations.WriteMemSendsSubAddressFirst := by
  unfold Obligations.WriteMemSendsSubAddressFirst
  refine fun a sub s bytes => ⟨encode_mask (.writeMem a sub), fun ha _ hfit hlen hread => ?_⟩
  obtain ⟨p, w, hexec⟩ := execWriteMem_eq a sub ha (lenFits_of_le hfit) (payload_eq_some.mpr ⟨hlen, hread⟩)
  obtain ⟨t, hexec, c, hdbuf⟩ := concluded_of_exec_write hexec
  exact ⟨t, hexec, c.events, c.status, c.count, c.busOpen, c.scl, c.sda, c.quiet, c.ack, c.byte, c.level, c.scan,
    c.answers, c.untouched, dbufRead_congr hdbuf⟩

theorem exec_ping {s : State} (h : admitted s = true) (a : Addr) : exec (.ping a) s =
    .next (finish .ok (setAck (ackAt s 0) (effect (pingEffect s a) s))) := by
  simp only [exec, execPing, ifAdmitted_of_admitted h, probe_eq, pingEffect]

/-- Settles O46: PING is one effect that takes one answer, whose negation is the acknowledgment (R123). -/
theorem pingReportsTheAcknowledgment : Obligations.PingReportsTheAcknowledgment := by
  unfold Obligations.PingReportsTheAcknowledgment
  refine fun a s => ⟨encode_mask (.ping a), fun ha => ⟨_, exec_ping ha a, rfl, ?events, rfl, rfl, rfl, rfl,
    .finish rfl .ok, ((AnswersTaken.effect (e := pingEffect s a) rfl s).setAck _).finish .ok,
    ((Untouched.effect _ s).setAck _).finish .ok, fun _ => rfl⟩⟩
  case events => rw [eventsOf_finish, eventsOf_setAck, eventsOf_effect]; rfl

/-! ### The data buffer after a read (R144, R146, R150) -/

/-- What a read from s leaves in DBUF at its end t: the bytes received, the first one from answer k on, or free values
if it failed. -/
structure BufferRead (ok : Bool) (k : Nat) (s t : State) : Prop where
  received : ok = true → ∀ j < s.len.toNat, dbufRead j t = some (byteAt s (k + 8 * j))
  freed    : ok = false → ∀ j < s.len.toNat, dbufRead j t = some (Config.freeBits 8 (s.draws.freeCtr + j))
  above    : ∀ j, s.len.toNat ≤ j → dbufRead j t = dbufRead j s

theorem dbuf_concludeRead_failed (e : Effect) (s : State) : (concludeRead (false, effect e s)).dbuf =
    freeStore s.draws.freeCtr s.len.toNat 0 e.dbuf := by
  simp [takeDraws]

/-- The free values of a failed read have been drawn: LEN of them for the buffer, one for RES_COUNT and three for the
working registers. -/
theorem freeCtr_concludeRead_failed (e : Effect) (s : State) :
    (concludeRead (false, effect e s)).draws.freeCtr = s.draws.freeCtr + s.len.toNat + 1 + 3 := by
  rw [concludeRead_eq]
  simp only [Bool.false_eq_true, if_false, abortCleanup_eq]
  rfl

section
variable {ok : Bool} {k : Nat} {e : Effect} {s : State}
  (buffer : e.dbuf = if ok then storeGot s k 0 s.len.toNat s.dbuf else s.dbuf)
include buffer

theorem bufferRead_concludeRead : BufferRead ok k s (concludeRead (ok, effect e s)) := by
  cases ok
  case true =>
    have read (j : Nat) : dbufRead j (concludeRead (true, effect e s)) =
        if j < s.len.toNat then some (byteAt s (k + 8 * j)) else dbufRead j s := by
      simp [dbufRead, buffer, read_storeGot]
    exact ⟨fun _ j hj => (read j).trans (if_pos hj), nofun, fun j hj => (read j).trans (if_neg (by omega))⟩
  case false =>
    have read (j : Nat) : dbufRead j (concludeRead (false, effect e s)) =
        if j < s.len.toNat then some (Config.freeBits 8 (s.draws.freeCtr + j)) else dbufRead j s := by
      rw [dbufRead, dbuf_concludeRead_failed, read_freeStore]
      simp [dbufRead, buffer]
    exact ⟨nofun, fun _ j hj => (read j).trans (if_pos hj), fun j hj => (read j).trans (if_neg (by omega))⟩

theorem concluded_of_exec_read {i : Instr} (h : exec i s = .next (concludeRead (ok, effect e s))) :
    ∃ t, exec i s = .next t ∧ Concluded ok e s t ∧ BufferRead ok k s t :=
  ⟨_, h, concluded_concludeRead ok e s, bufferRead_concludeRead buffer⟩

/-- A reading transaction that ends with BusError has freed its buffer, one draw for each byte. -/
theorem failed_concludeRead (h : (concludeRead (ok, effect e s)).res.status = .busError) :
    let t := concludeRead (ok, effect e s)
    (∀ j < s.len.toNat, dbufRead j t = some (Config.freeBits 8 (s.draws.freeCtr + j))) ∧
      (∀ j, s.len.toNat ≤ j → dbufRead j t = dbufRead j s) ∧
      s.draws.freeCtr + s.len.toNat ≤ t.draws.freeCtr := by
  obtain rfl := statusOf_eq_busError_iff.mp ((concluded_concludeRead ok e s).status.symm.trans h)
  have read := bufferRead_concludeRead buffer
  exact ⟨read.freed rfl, read.above, by rw [freeCtr_concludeRead_failed]; omega⟩

end

/-! ### READ and READ_MEM (R144, R146) -/

/-- A read that does not use the bus. -/
theorem emptyRead_spec (s : State) : let t := emptyRead s
    eventsOf t = eventsOf s ++ [.complete .ok] ∧ t.res = { s.res with status := .ok, count := 0 } ∧
      t.drvScl = s.drvScl ∧ t.drvSda = s.drvSda ∧ t.busOpen = s.busOpen ∧ t.scan = s.scan ∧
      t.csActive = s.csActive ∧ t.busy = false ∧ t.phase = .idle ∧ t.mpc = none ∧ AnswersTaken 0 s t ∧
      Untouched s t ∧ ∀ j, dbufRead j t = dbufRead j s :=
  ⟨eventsOf_finish .ok (setCount 0 s), rfl, rfl, rfl, rfl, rfl, rfl, rfl, rfl, rfl, (AnswersTaken.refl s).congr rfl rfl,
    ⟨rfl, rfl, rfl, rfl, rfl, rfl, rfl⟩, fun _ => rfl⟩

/-- Settles O43: a READ that uses the bus is one effect, `execRead_eq`, and the end of a reading transaction. -/
theorem readFillsTheBuffer : Obligations.ReadFillsTheBuffer := by
  unfold Obligations.ReadFillsTheBuffer
  refine fun a s => ⟨encode_mask (.read a), fun ha _ hfit => ⟨fun hlen hmode => ?empty, fun hbus => ?bus⟩⟩
  case empty => exact ⟨_, execRead_empty a ha (lenFits_of_le hfit) ⟨hlen, hmode⟩, emptyRead_spec s⟩
  case bus =>
    obtain ⟨p, w, hexec⟩ := execRead_eq a ha (lenFits_of_le hfit) hbus
    obtain ⟨t, hexec, c, read⟩ := concluded_of_exec_read rfl hexec
    exact ⟨t, hexec, c.events, c.status, c.count, read.received, read.freed, read.above, c.busOpen, c.scl, c.sda,
      c.quiet, c.ack, c.byte, c.level, c.scan, c.answers, c.untouched⟩

/-- Settles O44: a READ_MEM that uses the bus is one effect, `execReadMem_eq`, and the end of a reading transaction. -/
theorem readMemRepeatsTheStart : Obligations.ReadMemRepeatsTheStart := by
  unfold Obligations.ReadMemRepeatsTheStart
  refine fun a sub s => ⟨encode_mask (.readMem a sub), fun ha _ hfit => ⟨fun hlen => ?empty, fun hlen => ?bus⟩⟩
  case empty => exact ⟨_, execReadMem_empty a sub ha (lenFits_of_le hfit) hlen, emptyRead_spec s⟩
  case bus =>
    obtain ⟨p, w, hexec⟩ := execReadMem_eq a sub ha (lenFits_of_le hfit) hlen rfl
    obtain ⟨t, hexec, c, read⟩ := concluded_of_exec_read rfl hexec
    exact ⟨t, hexec, c.events, c.status, c.count, read.received, read.freed, read.above, c.busOpen, c.scl, c.sda,
      c.quiet, c.ack, c.byte, c.level, c.scan, c.answers, c.untouched⟩

/-! ### Failed transactions (R150) -/

theorem emptyRead_ne_busError (s : State) : (emptyRead s).res.status ≠ .busError := nofun

/-- Settles O45: `exec_next` names the states these commands can end in; an empty read ends OK, and a read on the bus
that fails has freed its buffer. -/
theorem failedReadLeavesFreeBytes : Obligations.FailedReadLeavesFreeBytes := by
  unfold Obligations.FailedReadLeavesFreeBytes
  intro i a sub stop s t hexec hbus
  have ends := exec_next hexec
  refine ⟨?read, ?write⟩
  case read =>
    rintro (rfl | rfl)
    · obtain ⟨-, -, ⟨-, -, rfl⟩ | ⟨-, p, w, rfl⟩⟩ := ends
      · exact absurd hbus (emptyRead_ne_busError s)
      · exact failed_concludeRead (k := 1) rfl hbus
    · obtain ⟨-, -, ⟨-, rfl⟩ | ⟨-, p, w, rfl⟩⟩ := ends
      · exact absurd hbus (emptyRead_ne_busError s)
      · exact failed_concludeRead (k := (subBytes sub).length + 1 + 1) rfl hbus
  case write =>
    rintro (rfl | rfl)
    all_goals
      obtain ⟨-, -, bytes, p, w, -, rfl⟩ := ends
      exact dbufRead_congr (concludeWrite_dbuf _)

end Sys2Proof.Machine

/-! PROOFS. The scanner (R170, R171), and the bus edges of the transactions (R125). -/

namespace Sys2Proof.Machine

/-! ### What SCAN finds (R170, R171) -/

theorem foundAddrs_zero (s : State) (b n : Nat) : foundAddrs s b 0 n =
    ((List.range n).filter (ackAt s)).map fun j => BitVec.ofNat 7 (b + j) := by
  simp only [foundAddrs, Nat.zero_add]

theorem probeTrace_zero (s : State) (b n : Nat) : probeTrace s b 0 n = (List.range n).flatMap fun j =>
    [.start, .wrote (addrByte (BitVec.ofNat 7 (b + j)) rwWrite) (ackAt s j), .stop] := by
  simp only [probeTrace, Nat.zero_add]

/-- The addresses a SCAN from s lists. -/
def scanFound (s : State) : List Addr := foundAddrs s scanFirst 0 (scanEndOf s.par - scanFirst)

theorem length_scanFound_le (s : State) : (scanFound s).length ≤ 120 :=
  calc (scanFound s).length ≤ scanEndOf s.par - scanFirst := length_foundAddrs_le ..
    _ ≤ 113 := scanCount_le s.par
    _ ≤ 120 := by decide

/-! ### What SCAN leaves (R37, R170) -/

/-- SCAN from s up to its completion. -/
def scanned (s : State) : State :=
  forgetScanTail (effect (scanEffect s (scanEndOf s.par - scanFirst)) (listAll (scanFound s) (clearScan s)))

theorem exec_scan {s : State} (h : admitted s = true) : exec .scan s = .next (finish .ok (scanned s)) :=
  execScan_eq h

/-- A SCAN writes what its effect does, the registers of the scanner, and the counter of the free values. -/
theorem scanned_eq (s : State) : scanned s =
    { effect (scanEffect s (scanEndOf s.par - scanFirst)) s with
      scan := (scanned s).scan, held.scan := true, draws.freeCtr := (scanned s).draws.freeCtr } := by
  rw [scanned, listAll_eq, forgetScanTail, skipFree]
  rfl

@[simp] theorem scanned_drvScl (s : State) : (scanned s).drvScl = .released := by simp [scanned, scanEffect]
@[simp] theorem scanned_drvSda (s : State) : (scanned s).drvSda = .released := by simp [scanned, scanEffect]
@[simp] theorem scanned_busOpen (s : State) : (scanned s).busOpen = false := by simp [scanned, scanEffect]
@[simp] theorem scanned_csActive (s : State) : (scanned s).csActive = false := by simp [scanned]
@[simp] theorem scanned_res (s : State) : (scanned s).res = s.res := by simp [scanned]
@[simp] theorem scanned_dbuf (s : State) : (scanned s).dbuf = s.dbuf := by simp [scanned, scanEffect]

theorem eventsOf_scanned (s : State) : eventsOf (scanned s) = eventsOf s ++
    byteTraceEvents s.cfg.halfPeriod (probeTrace s scanFirst 0 (scanEndOf s.par - scanFirst)) :=
  eventsOf_scan ..

theorem AnswersTaken.scanned (s : State) :
    AnswersTaken (scanEndOf s.par - scanFirst) s (Machine.scanned s) := by
  rw [scanned_eq]
  exact (AnswersTaken.effect (e := scanEffect s _) rfl s).congr rfl rfl

theorem Untouched.scanned (s : State) : Untouched s (Machine.scanned s) := by
  rw [scanned_eq]
  exact ⟨rfl, rfl, rfl, rfl, rfl, rfl, rfl⟩

/-- SCAN_COUNT and SCAN_LIST name the addresses found: they are listed in a cleared list, and only what is above them
becomes free. -/
theorem scan_scanned (s : State) : (scanned s).scan.count.toNat = (scanFound s).length ∧
    ∀ (k : Nat) (hk : k < 120), k < (scanFound s).length → some (scanned s).scan.list[k] = (scanFound s)[k]? := by
  have cleared : (clearScan s).scan.count.toNat = 0 := rfl
  obtain ⟨count, list⟩ := scan_listAll (scanFound s) (clearScan s)
    (by rw [cleared, Nat.zero_add]; exact length_scanFound_le s)
  rw [cleared, Nat.zero_add] at count
  refine ⟨by rw [scanned, forgetScanTail_scan, effect_scan, count], fun k hk hlt => ?_⟩
  have below : k < (listAll (scanFound s) (clearScan s)).scan.count.toNat := by rwa [count]
  have listed : (listAll (scanFound s) (clearScan s)).scan.list[k] = (scanFound s)[k] := by
    rw [list k hk, cleared, if_neg (Nat.not_lt_zero k), Nat.sub_zero, List.getElem?_eq_getElem hlt, Option.getD_some]
  simp only [scanned, forgetScanTail_scan, effect_scan, Vector.getElem_ofFn, if_pos below, Fin.getElem_fin, listed,
    List.getElem?_eq_getElem hlt]

/-- Settles O47: SCAN is one effect, `exec_scan`, and the registers of the scanner name the addresses found. -/
theorem scanListsWhatAcknowledges : Obligations.ScanListsWhatAcknowledges := by
  unfold Obligations.ScanListsWhatAcknowledges
  refine ⟨by decide, rfl, fun s ha => ?_⟩
  simp only [← foundAddrs_zero, ← probeTrace_zero]
  obtain ⟨count, list⟩ := scan_scanned s
  refine ⟨_, exec_scan ha, count, list, ?events, by simp, by simp, by simp, by simp, .finish (scanned_csActive s) .ok,
    (AnswersTaken.scanned s).finish .ok, (Untouched.scanned s).finish .ok, dbufRead_congr (by simp)⟩
  case events => rw [eventsOf_finish, eventsOf_scanned]

/-! ### Line states (R125) -/

theorem lineState_congr {s t : State} (hscl : t.drvScl = s.drvScl) (hsda : t.drvSda = s.drvSda)
    (hopen : t.busOpen = s.busOpen) : lineState t = lineState s := by
  rw [lineState, lineState, hscl, hsda, hopen]

/-- With SDA released and SCL low just when the bus is open, the block is HELD or IDLE. -/
theorem lineState_of_released {t : State} (hscl : t.drvScl = if t.busOpen then .low else .released)
    (hsda : t.drvSda = .released) : lineState t = some (if t.busOpen then .held else .idle) := by
  rw [lineState, hscl, hsda]
  cases t.busOpen <;> rfl

/-- STARTED is the clean line state in which a START makes a STOP edge first. -/
theorem started_iff_of_lineState {s : State} {l : LineState} (h : lineState s = some l) :
    (s.drvScl = .released ∧ s.drvSda = .low) ↔ l = .started := by
  obtain ⟨rfl, hscl, hsda, -⟩ | ⟨rfl, hscl, hsda, -⟩ | ⟨rfl, hscl, hsda, -⟩ := lineState_eq_some h <;>
    simp [hscl, hsda]

/-! ### From symbols to edges (R125, R142, R148)

After its first START, and after a repeated one, a transaction sends and receives bytes; then it stops unless it leaves
the bus held. -/

/-- The STOP that ends a transaction, unless the bus is left held (R143). -/
def closing (hold : Bool) : List ByteEvent := if hold then [] else [.stop]

theorem contractKept_bytes_closing {bs : List ByteEvent} (hb : bs.all ByteEvent.isByte = true) (hold : Bool) :
    contractKept (.released, .low) (bs ++ closing hold) = true := by
  rw [contractKept_bytes hb]
  cases hold
  case true => rfl
  case false => split <;> rfl

theorem conditionsOf_bytes_closing {bs : List ByteEvent} (hb : bs.all ByteEvent.isByte = true) (hold : Bool) :
    conditionsOf (bs ++ closing hold) = if hold then [] else [.stop] := by
  rw [conditionsOf_append, conditionsOf_bytes hb]
  cases hold <;> rfl

/-- From s to t a command has made the events es before its completion and has left the bus held just when it is open;
from a clean line state their edges are those listed, after a STOP if the state was STARTED. -/
structure RanOnBus (es : List Event) (edges : List Edge) (s t : State) : Prop where
  events : eventsOf t = eventsOf s ++ es ++ [.complete t.res.status]
  line   : lineState t = some (if t.busOpen then .held else .idle)
  edges  : ∀ l, lineState s = some l →
    clockHighEdges s.drvScl s.drvSda es = (if l = .started then [.stop] else []) ++ edges

/-- A command that has put a START and the symbols bs on the bus, each START and STOP in bs making its own edge. -/
theorem RanOnBus.of_contractKept {s t : State} {bs : List ByteEvent}
    (events : eventsOf t = eventsOf s ++ byteTraceEvents s.cfg.halfPeriod (.start :: bs) ++ [.complete t.res.status])
    (scl : t.drvScl = if t.busOpen then .low else .released) (sda : t.drvSda = .released)
    (kept : contractKept (.released, .low) bs = true) :
    RanOnBus (byteTraceEvents s.cfg.halfPeriod (.start :: bs)) (.start :: conditionsOf bs) s t where
  events := events
  line := lineState_of_released scl sda
  edges l hl := by simp only [edges_startContract _ kept, started_iff_of_lineState hl]

section
variable {ok : Bool} {e : Effect} {s t : State} {bs : List ByteEvent} (c : Concluded ok e s t)
  (events : e.events = byteTraceEvents s.cfg.halfPeriod (.start :: bs))
  (scl : e.scl = if e.busOpen then .low else .released) (sda : e.sda = .released)
include c events scl sda

theorem Concluded.ranOnBus_of_contractKept (kept : contractKept (.released, .low) bs = true) :
    RanOnBus (byteTraceEvents s.cfg.halfPeriod (.start :: bs)) (.start :: conditionsOf bs) s t :=
  .of_contractKept (by rw [c.events, events, c.status]) (by rw [c.scl, scl, c.busOpen]) (by rw [c.sda, sda]) kept

/-- A transaction with one START. -/
theorem Concluded.ranOnBus {bytes : List ByteEvent} (hb : bytes.all ByteEvent.isByte = true)
    (hbs : bs = bytes ++ closing e.busOpen) :
    ∃ es, RanOnBus es (.start :: if t.busOpen then [] else [.stop]) s t := by
  subst hbs
  have run := c.ranOnBus_of_contractKept events scl sda (contractKept_bytes_closing hb e.busOpen)
  rw [conditionsOf_bytes_closing hb, ← c.busOpen] at run
  exact ⟨_, run⟩

/-- A transaction with a repeated START (R146). -/
theorem Concluded.ranOnBus_twice {as bytes : List ByteEvent} (ha : as.all ByteEvent.isByte = true) (hne : as ≠ [])
    (hb : bytes.all ByteEvent.isByte = true) (hbs : bs = as ++ .start :: (bytes ++ closing e.busOpen)) :
    ∃ es, RanOnBus es (.start :: .start :: if t.busOpen then [] else [.stop]) s t := by
  subst hbs
  have kept : contractKept (.released, .low) (as ++ .start :: (bytes ++ closing e.busOpen)) = true := by
    rw [contractKept_bytes ha, if_neg hne, contractKept, contractKept_bytes_closing hb]
    rfl
  have run := c.ranOnBus_of_contractKept events scl sda kept
  rw [conditionsOf_append, conditionsOf_bytes ha, List.nil_append, conditionsOf_start,
    conditionsOf_bytes_closing hb, ← c.busOpen] at run
  exact ⟨_, run⟩

end

/-- The bytes of READ_BODY (R144). -/
theorem isByte_readBody (s : State) (v : Byte) (ack : Bool) (k n : Nat) :
    (ByteEvent.wrote v ack :: if ack then gotTrace s k n else []).all ByteEvent.isByte = true := by
  cases ack
  case true => exact isByte_gotTrace s k n
  case false => rfl

/-! ### What each transaction puts on the bus (R143 to R147, R170) -/

section
variable {s t : State}

theorem exec_write_ranOnBus {b : Bool} {a : Addr} (h : exec (.write b a) s = .next t) :
    (t.busOpen = true → b = false) ∧ ∃ es, RanOnBus es (.start :: if t.busOpen then [] else [.stop]) s t := by
  obtain ⟨-, -, bytes, p, w, -, rfl⟩ := exec_next h
  refine ⟨?hold, (concluded_concludeWrite _ _ s).ranOnBus rfl rfl rfl (isByte_sentTrace s 0 _) rfl⟩
  case hold => simp [writeEffect]

theorem exec_writeMem_ranOnBus {a : Addr} {u : SubAddr} (h : exec (.writeMem a u) s = .next t) :
    t.busOpen = false ∧ ∃ es, RanOnBus es (.start :: if t.busOpen then [] else [.stop]) s t := by
  obtain ⟨-, -, bytes, p, w, -, rfl⟩ := exec_next h
  refine ⟨?closed, (concluded_concludeWrite _ _ s).ranOnBus rfl rfl rfl (isByte_sentTrace s 0 _) rfl⟩
  case closed => simp [writeEffect]

theorem exec_ping_ranOnBus {a : Addr} (h : exec (.ping a) s = .next t) :
    t.busOpen = false ∧ ∃ es, RanOnBus es (.start :: if t.busOpen then [] else [.stop]) s t := by
  obtain ⟨-, rfl⟩ := exec_next h
  refine ⟨rfl, _, .of_contractKept (bs := [.wrote (addrByte a rwWrite) (ackAt s 0), .stop]) ?events rfl rfl rfl⟩
  case events =>
    rw [eventsOf_finish, eventsOf_setAck, eventsOf_effect]
    rfl

theorem exec_read_ranOnBus {a : Addr} (h : exec (.read a) s = .next t) : t = emptyRead s ∨
    (t.busOpen = false ∧ ∃ es, RanOnBus es (.start :: if t.busOpen then [] else [.stop]) s t) := by
  obtain ⟨-, -, ⟨-, -, rfl⟩ | ⟨-, p, w, rfl⟩⟩ := exec_next h
  case inl => exact .inl rfl
  case inr =>
    have c := concluded_concludeRead (ackAt s 0) (readEffect s a p w) s
    exact .inr ⟨c.busOpen, c.ranOnBus rfl rfl rfl (isByte_readBody s (addrByte a rwRead) _ _ _) rfl⟩

/-- READ_MEM makes its repeated START only when the address and sub-address bytes are acknowledged. -/
theorem exec_readMem_ranOnBus {a : Addr} {u : SubAddr} (h : exec (.readMem a u) s = .next t) : t = emptyRead s ∨
    (t.busOpen = false ∧ ∃ k es, 1 ≤ k ∧ k ≤ 2 ∧
      RanOnBus es (List.replicate k .start ++ if t.busOpen then [] else [.stop]) s t) := by
  obtain ⟨-, -, ⟨-, rfl⟩ | ⟨-, p, w, rfl⟩⟩ := exec_next h
  case inl => exact .inl rfl
  case inr =>
    have c := concluded_concludeRead (acked s 0 ((subBytes u).length + 2))
      (readMemEffect s a u ((subBytes u).length + 1) p w) s
    have sent := isByte_sentTrace s 0 (addrByte a rwWrite :: subBytes u)
    refine .inr ⟨c.busOpen, ?_⟩
    cases hack : acked s 0 ((subBytes u).length + 1)
    case false =>
      obtain ⟨es, run⟩ := c.ranOnBus (by simp [readMemEffect, hack, closing]) rfl rfl sent rfl
      exact ⟨1, es, le_rfl, one_le_two, run⟩
    case true =>
      obtain ⟨es, run⟩ := c.ranOnBus_twice (by simp [readMemEffect, hack, acked_succ, closing]) rfl rfl sent nofun
        (isByte_readBody s (addrByte a rwRead) (ackAt s ((subBytes u).length + 1)) ((subBytes u).length + 2)
          s.len.toNat) rfl
      exact ⟨2, es, one_le_two, le_rfl, run⟩

theorem scanEndOf_sub_scanFirst (p : Params) : ∃ n, scanEndOf p - scanFirst = n + 1 := by
  unfold scanEndOf
  cases p.scanEnd
  · exact ⟨111, rfl⟩
  · exact ⟨112, rfl⟩

theorem exec_scan_ranOnBus (h : exec .scan s = .next t) : t.busOpen = false ∧
    ∃ es, RanOnBus es (List.replicate (scanEndOf s.par - scanFirst) [.start, .stop]).flatten s t := by
  obtain ⟨n, hn⟩ := scanEndOf_sub_scanFirst s.par
  obtain rfl : finish .ok (scanned s) = t := Host.Outcome.next.inj ((exec_scan (exec_next h).1).symm.trans h)
  have events := eventsOf_finish .ok (scanned s)
  rw [eventsOf_scanned, hn, probeTrace_succ] at events
  have run := RanOnBus.of_contractKept events (by simp) (by simp) (contractKept_probes (by decide) s _ _ n)
  rw [hn, ← conditionsOf_probes s scanFirst 0, probeTrace_succ]
  exact ⟨scanned_busOpen s, _, run⟩

end

theorem emptyRead_keepsLines (s : State) : eventsOf (emptyRead s) = eventsOf s ++ [] ++ [.complete .ok] ∧
    lineState (emptyRead s) = lineState s := by
  obtain ⟨events, -, scl, sda, busOpen, -⟩ := emptyRead_spec s
  exact ⟨by rw [events, List.append_nil], lineState_congr scl sda busOpen⟩

/-- Settles O57: each of the six commands ran on the bus, as its lemma above says, or was an empty read; only WRITE
with S = 0 leaves the bus open. -/
theorem transactionsKeepThePhysicalContract : Obligations.TransactionsKeepThePhysicalContract := by
  unfold Obligations.TransactionsKeepThePhysicalContract
  intro i s t l hi hl hexec
  have never {P : Prop} (closed : t.busOpen = false) : t.busOpen = true → P :=
    fun isOpen => absurd (closed.symm.trans isOpen) Bool.false_ne_true
  obtain ⟨b, a, rfl⟩ | ⟨a, rfl⟩ | ⟨a, u, rfl⟩ | ⟨a, u, rfl⟩ | ⟨a, rfl⟩ | rfl := hi
  · obtain ⟨hold, es, run⟩ := exec_write_ranOnBus hexec
    exact ⟨es, run.events, .inr ⟨run.line, fun isOpen => ⟨a, by rw [hold isOpen]⟩, 1, le_rfl, one_le_two,
      fun _ => rfl, run.edges l hl⟩⟩
  · obtain rfl | ⟨closed, es, run⟩ := exec_read_ranOnBus hexec
    · obtain ⟨events, line⟩ := emptyRead_keepsLines s
      exact ⟨[], events, .inl ⟨rfl, line⟩⟩
    · exact ⟨es, run.events, .inr ⟨run.line, never closed, 1, le_rfl, one_le_two, fun _ => rfl,
        run.edges l hl⟩⟩
  · obtain ⟨closed, es, run⟩ := exec_writeMem_ranOnBus hexec
    exact ⟨es, run.events, .inr ⟨run.line, never closed, 1, le_rfl, one_le_two, fun _ => rfl, run.edges l hl⟩⟩
  · obtain rfl | ⟨closed, k, es, least, most, run⟩ := exec_readMem_ranOnBus hexec
    · obtain ⟨events, line⟩ := emptyRead_keepsLines s
      exact ⟨[], events, .inl ⟨rfl, line⟩⟩
    · exact ⟨es, run.events, .inr ⟨run.line, never closed, k, least, most, fun other => absurd rfl (other a u),
        run.edges l hl⟩⟩
  · obtain ⟨closed, es, run⟩ := exec_ping_ranOnBus hexec
    exact ⟨es, run.events, .inr ⟨run.line, never closed, 1, le_rfl, one_le_two, fun _ => rfl, run.edges l hl⟩⟩
  · obtain ⟨closed, es, run⟩ := exec_scan_ranOnBus hexec
    exact ⟨es, run.events, .inr ⟨run.line, never closed, 1, le_rfl, one_le_two, fun _ => rfl, run.edges l hl⟩⟩

end Sys2Proof.Machine

/-! PROOFS. INIT and DEINIT (R180 to R185): the state each of them leaves, field by field, and which outcome an INIT
has. -/

namespace Sys2Proof.Machine

/-! ### What a successful INIT and a DEINIT write (R182, R184) -/

theorem configure_eq (s : State) : configure s = { s with
    drvScl := .released, drvSda := .released, busOpen := false, phase := .idle, held.handle := true
    cfg := {
      state := .configured, busId := s.arg.bus, sclPin := s.arg.scl, sdaPin := s.arg.sda, baud := s.arg.baud
      halfPeriod := halfPeriod s.par s.arg.baud }
    trace := ⟨s.cmd, .drive .sda .released⟩ :: ⟨s.cmd, .drive .scl .released⟩ :: s.trace
    mpc := (s.mpc.map fun p => { p with k := p.k + 1 }).map fun p => { p with k := p.k + 1 } } := by
  simp only [configure, loadHandle, release, drive, setDrive, micro, record, setBusOpen, setPhase, setCfgState]

theorem deconfigure_eq (s : State) : deconfigure s = { s with
    drvScl := .released, drvSda := .released, busOpen := false, phase := .idle
    cfg := { s.cfg with state := .unconfigured, baud := 0, halfPeriod := freeValue 32 s }
    trace := ⟨s.cmd, .drive .sda .released⟩ :: ⟨s.cmd, .drive .scl .released⟩ :: s.trace
    mpc := (s.mpc.map fun p => { p with k := p.k + 1 }).map fun p => { p with k := p.k + 1 }
    draws.freeCtr := s.draws.freeCtr + 1 } := rfl

@[simp] theorem configure_par (s : State) : (configure s).par = s.par := by rw [configure_eq]
@[simp] theorem configure_drvScl (s : State) : (configure s).drvScl = .released := by rw [configure_eq]
@[simp] theorem configure_drvSda (s : State) : (configure s).drvSda = .released := by rw [configure_eq]
@[simp] theorem configure_cfg (s : State) : (configure s).cfg = {
    state := .configured, busId := s.arg.bus, sclPin := s.arg.scl, sdaPin := s.arg.sda, baud := s.arg.baud
    halfPeriod := halfPeriod s.par s.arg.baud } := by rw [configure_eq]
@[simp] theorem configure_arg (s : State) : (configure s).arg = s.arg := by rw [configure_eq]
@[simp] theorem configure_len (s : State) : (configure s).len = s.len := by rw [configure_eq]
@[simp] theorem configure_cmd (s : State) : (configure s).cmd = s.cmd := by rw [configure_eq]
@[simp] theorem configure_busOpen (s : State) : (configure s).busOpen = false := by rw [configure_eq]
@[simp] theorem configure_csActive (s : State) : (configure s).csActive = s.csActive := by rw [configure_eq]
@[simp] theorem configure_dbuf (s : State) : (configure s).dbuf = s.dbuf := by rw [configure_eq]
@[simp] theorem configure_held (s : State) : (configure s).held = { s.held with handle := true } := by rw [configure_eq]
@[simp] theorem configure_draws (s : State) : (configure s).draws = s.draws := by rw [configure_eq]
@[simp] theorem configure_hostQ (s : State) : (configure s).hostQ = s.hostQ := by rw [configure_eq]
@[simp] theorem configure_hostSaw (s : State) : (configure s).hostSaw = s.hostSaw := by rw [configure_eq]

@[simp] theorem deconfigure_par (s : State) : (deconfigure s).par = s.par := by rw [deconfigure_eq]
@[simp] theorem deconfigure_drvScl (s : State) : (deconfigure s).drvScl = .released := by rw [deconfigure_eq]
@[simp] theorem deconfigure_drvSda (s : State) : (deconfigure s).drvSda = .released := by rw [deconfigure_eq]
@[simp] theorem deconfigure_cfg (s : State) : (deconfigure s).cfg =
    { s.cfg with state := .unconfigured, baud := 0, halfPeriod := freeValue 32 s } := by rw [deconfigure_eq]
@[simp] theorem deconfigure_arg (s : State) : (deconfigure s).arg = s.arg := by rw [deconfigure_eq]
@[simp] theorem deconfigure_len (s : State) : (deconfigure s).len = s.len := by rw [deconfigure_eq]
@[simp] theorem deconfigure_cmd (s : State) : (deconfigure s).cmd = s.cmd := by rw [deconfigure_eq]
@[simp] theorem deconfigure_busOpen (s : State) : (deconfigure s).busOpen = false := by rw [deconfigure_eq]
@[simp] theorem deconfigure_csActive (s : State) : (deconfigure s).csActive = s.csActive := by rw [deconfigure_eq]
@[simp] theorem deconfigure_dbuf (s : State) : (deconfigure s).dbuf = s.dbuf := by rw [deconfigure_eq]
@[simp] theorem deconfigure_held (s : State) : (deconfigure s).held = s.held := by rw [deconfigure_eq]
@[simp] theorem deconfigure_env (s : State) : (deconfigure s).draws.env = s.draws.env := by rw [deconfigure_eq]
@[simp] theorem deconfigure_envCtr (s : State) : (deconfigure s).draws.envCtr = s.draws.envCtr := by rw [deconfigure_eq]
@[simp] theorem deconfigure_hostQ (s : State) : (deconfigure s).hostQ = s.hostQ := by rw [deconfigure_eq]
@[simp] theorem deconfigure_hostSaw (s : State) : (deconfigure s).hostSaw = s.hostSaw := by rw [deconfigure_eq]

/-! ### Which outcome an INIT has (R180, R181, R185) -/

theorem baudPositive_iff {baud : Word} : baudPositive baud = true ↔ 0 < baud.toInt := decide_eq_true_iff

theorem baudPositive_eq_false_iff {baud : Word} : baudPositive baud = false ↔ baud.toInt ≤ 0 := by
  rw [← Bool.not_eq_true, baudPositive_iff, not_lt]

theorem selectsHardware_iff (s : State) : selectsHardware s = true ↔
    busIdValid s.par s.arg.bus = true ∧ 0 < s.arg.baud.toInt ∧ pinValid s.par s.arg.scl s.arg.sda = true ∧
      busIsBitbang s.par s.arg.bus = false := by
  rw [← baudPositive_iff, selectsHardware]
  simp only [Bool.and_eq_true, Bool.not_eq_true', and_assoc]
  exact and_left_comm

/-- An INIT is refused for the hardware-controller path, and otherwise it runs. -/
theorem exec_init_eq (s : State) : exec .init s =
    if selectsHardware s then .refused .hardwarePath else .next (
      if busIdValid s.par s.arg.bus = false then finish .resourceUnavailable s
      else if baudPositive s.arg.baud = false ∨ pinValid s.par s.arg.scl s.arg.sda = false then
        finish .invalidArgument s
      else finish .ok (configure s)) := rfl

/-- Settles O22: `selectsHardware` is the condition, and an INIT is refused for nothing else. -/
theorem initRefusesTheHardwarePath : Obligations.InitRefusesTheHardwarePath := by
  unfold Obligations.InitRefusesTheHardwarePath
  intro s
  rw [← selectsHardware_iff, exec_init_eq]
  split <;> simp [*]

/-- The error of an INIT, if its arguments raise one: the bus identifier is checked first (R180, R181). -/
theorem exec_init_error {s : State} {code : Status}
    (h : (busIdValid s.par s.arg.bus = false ∧ code = .resourceUnavailable) ∨
      (busIdValid s.par s.arg.bus = true ∧
        (s.arg.baud.toInt ≤ 0 ∨ pinValid s.par s.arg.scl s.arg.sda = false) ∧ code = .invalidArgument)) :
    exec .init s = .next (finish code s) := by
  have soft : ¬ selectsHardware s = true := by
    rw [selectsHardware_iff]
    rintro ⟨bus, baud, pins, -⟩
    obtain ⟨noBus, -⟩ | ⟨-, noBaud | noPins, -⟩ := h
    · exact Bool.false_ne_true (noBus.symm.trans bus)
    · omega
    · exact Bool.false_ne_true (noPins.symm.trans pins)
  rw [exec_init_eq, if_neg soft]
  obtain ⟨bus, rfl⟩ | ⟨bus, bad, rfl⟩ := h
  · rw [if_pos bus]
  · rw [if_neg (by simp [bus]), if_pos (by rwa [baudPositive_eq_false_iff])]

/-- Settles O21: an INIT that raises an error is the end of a command and nothing else. -/
theorem initErrorChangesOnlyStatus : Obligations.InitErrorChangesOnlyStatus := by
  unfold Obligations.InitErrorChangesOnlyStatus
  exact fun s code h => ⟨finish code s, exec_init_error h, rfl, rfl, eventsOf_finish code s, rfl, rfl, rfl, rfl, rfl,
    rfl, rfl, rfl, rfl, (AnswersTaken.refl s).finish code, rfl, rfl, fun _ => rfl, rfl, rfl, rfl⟩

theorem exec_init_ok {s : State} (bus : busIdValid s.par s.arg.bus = true) (baud : 0 < s.arg.baud.toInt)
    (pins : pinValid s.par s.arg.scl s.arg.sda = true) (bitbang : busIsBitbang s.par s.arg.bus = true) :
    exec .init s = .next (finish .ok (configure s)) := by
  have soft : ¬ selectsHardware s = true := by simp [selectsHardware, bitbang]
  rw [exec_init_eq, if_neg soft, if_neg (by simp [bus]), if_neg (by simp [baudPositive_iff.mpr baud, pins])]

/-- Settles O20: `configure` writes the CFG registers and releases the lines, and the rest of the state is as before. -/
theorem initConfiguresTheBus : Obligations.InitConfiguresTheBus := by
  unfold Obligations.InitConfiguresTheBus
  refine ⟨by decide, fun s _ _ _ _ bus baud pins bitbang => ⟨_, exec_init_ok bus baud pins bitbang,
    (contract_configure s).2, ?edges, by simp, by simp, by simp, by simp, by simp, ?timing, by simp, by simp, by simp,
    rfl, by simp, rfl, rfl, by simp, by simp, by simp, by simp, by simp, by simp, ?answers, by simp, by simp,
    dbufRead_congr (by simp)⟩⟩
  case edges => cases s.drvScl <;> cases s.drvSda <;> rfl
  case timing => simpa using toNat_halfPeriod s.par baud
  case answers => exact ((AnswersTaken.refl s).congr (by simp) (by simp)).finish .ok

/-! ### DEINIT (R184, R231, R232) -/

theorem exec_deinit (s : State) : exec .deinit s = .next (finish .ok (deconfigure s)) := rfl

/-- Settles O19: `deconfigure` writes what R184 names, and the block that it leaves UNCONFIGURED admits no bus
command. -/
theorem deinitReleasesTheBus : Obligations.DeinitReleasesTheBus := by
  unfold Obligations.DeinitReleasesTheBus
  refine ⟨by decide, fun s => ⟨_, exec_deinit s, (contract_deconfigure s).2, by simp, by simp, by simp, by simp, rfl,
    by simp, by simp, rfl, rfl, by simp, by simp, by simp, by simp, by simp, by simp, by simp, by simp, by simp,
    ?answers, by simp, by simp, dbufRead_congr (by simp), fun i hi hd => ?refused⟩⟩
  case answers => exact ((AnswersTaken.refl s).congr (by simp) (by simp)).finish .ok
  case refused => exact exec_refused_of_not_admitted i hi hd (by simp [admitted])

/-- Settles O18: every register that R232 speaks of is among those of R184. -/
theorem deinitReturnsToTheResetState : Obligations.DeinitReturnsToTheResetState := by
  unfold Obligations.DeinitReturnsToTheResetState
  intro s unmasked
  obtain ⟨t, hexec, -, scl, sda, baud, busOpen, phase, cfgState, res, busy, mpc, busId, sclPin, sdaPin, -, arg, len, -,
    scan, csActive, -, -, -, dbuf, -⟩ := deinitReleasesTheBus.2 s
  exact ⟨t, hexec, scl, sda, cfgState, baud, busOpen, busy, csActive.trans unmasked, phase, mpc, busId, sclPin, sdaPin,
    res, scan, len, arg, dbuf⟩

/-- The code of an INIT issued right after reset: ARG_BUS and ARG_BAUD are 0 there (log 4). -/
theorem exec_init_reset (p : Params) : exec .init (State.resetWith p) = .next (finish
    (if busIdValid p 0 then .invalidArgument else .resourceUnavailable) (State.resetWith p)) := by
  apply exec_init_error
  cases bus : busIdValid p 0
  case false => exact .inl ⟨bus, rfl⟩
  case true => exact .inr ⟨bus, .inl (by decide : (0 : Word).toInt ≤ 0), rfl⟩

/-- Settles O17: the block is UNCONFIGURED after reset, and a DEINIT writes what is there already. -/
theorem deinitAfterResetChangesOnlyStatus : Obligations.DeinitAfterResetChangesOnlyStatus := by
  unfold Obligations.DeinitAfterResetChangesOnlyStatus
  intro p s
  exact ⟨fun i hi hd => exec_refused_of_not_admitted i hi hd rfl, ⟨_, exec_init_reset p, rfl, rfl⟩,
    _, exec_deinit s, by simp, by simp, by simp [s, State.resetWith], deconfigure_drvScl s, deconfigure_drvSda s,
    by simp, by simp, by simp, rfl, by simp, deconfigure_busOpen s, by simp, rfl, rfl, dbufRead_congr (by simp)⟩

end Sys2Proof.Machine

/-! PROOFS. What every command keeps of the host's registers and of the machine (R25 to R31, R44), and the invariant of
the machine over steps. -/

namespace Sys2Proof.Machine

/-! ### What no bus command writes (R26 to R31, R44, R186) -/

theorem Untouched.emptyRead (s : State) : Untouched s (Machine.emptyRead s) := ⟨rfl, rfl, rfl, rfl, rfl, rfl, rfl⟩

theorem init_or_deinit_or_bus (i : Instr) : i = .init ∨ i = .deinit ∨ (i ≠ .init ∧ i ≠ .deinit) := by tauto

/-- A command other than INIT and DEINIT leaves the configuration and what the host owns as they were. -/
theorem Untouched.exec {i : Instr} (hi : i ≠ .init) (hd : i ≠ .deinit) {s t : State} (h : exec i s = .next t) :
    Untouched s t := by
  have ends := exec_next h
  cases i with
  | init | deinit => contradiction
  | write | writeMem =>
    obtain ⟨-, -, bytes, p, w, -, rfl⟩ := ends
    exact (concluded_concludeWrite ..).untouched
  | read =>
    obtain ⟨-, -, ⟨-, -, rfl⟩ | ⟨-, p, w, rfl⟩⟩ := ends
    · exact .emptyRead s
    · exact (concluded_concludeRead ..).untouched
  | readMem =>
    obtain ⟨-, -, ⟨-, rfl⟩ | ⟨-, p, w, rfl⟩⟩ := ends
    · exact .emptyRead s
    · exact (concluded_concludeRead ..).untouched
  | scan =>
    obtain ⟨-, rfl⟩ := ends
    exact (Untouched.scanned s).finish .ok
  | ping | writeByte =>
    obtain ⟨-, rfl⟩ := ends
    exact ((Untouched.effect _ s).setAck _).finish .ok
  | readByte =>
    obtain ⟨-, rfl⟩ := ends
    exact ((Untouched.effect _ s).setByte _).finish .ok
  | start | stop =>
    obtain ⟨-, rfl⟩ := ends
    exact (Untouched.effect _ s).finish .ok
  | driveLow | release =>
    obtain ⟨-, rfl⟩ := ends
    exact (Untouched.drive _ _ s).finish .ok
  | readLine l =>
    obtain ⟨-, rfl⟩ := ends
    exact ((Untouched.sample l s).setLevel _).finish .ok
  | delay =>
    obtain ⟨-, rfl⟩ := ends
    exact (Untouched.wait s).finish .ok

/-- Settles O53: INIT and DEINIT write CFG registers and nothing of the host's; every other command leaves both. -/
theorem commandsKeepWhatTheHostOwns : Obligations.CommandsKeepWhatTheHostOwns := by
  unfold Obligations.CommandsKeepWhatTheHostOwns
  intro i s t h
  obtain rfl | rfl | ⟨hi, hd⟩ := init_or_deinit_or_bus i
  · obtain ⟨-, ⟨-, rfl⟩ | ⟨-, -, rfl⟩ | ⟨-, -, -, rfl⟩⟩ := exec_next h <;> simp
  · obtain rfl := exec_next h
    simp
  · have u := Untouched.exec hi hd h
    exact ⟨u.arg, u.len, u.cmd, u.par, u.hostQ, u.hostSaw, fun _ _ => u.cfg⟩

/-! ### What a bus command leaves of the rest of the invariant -/

theorem admitted_of_exec {i : Instr} (hi : i ≠ .init) (hd : i ≠ .deinit) {s t : State} (h : exec i s = .next t) :
    admitted s = true := by
  by_contra refused
  rw [(exec_eq_notAdmitted_iff hi hd s).mpr refused] at h
  cases h

@[simp] theorem drive_held (l : Line) (d : Drive) (s : State) : (drive l d s).held = s.held := by cases l <;> rfl
@[simp] theorem wait_held (s : State) : (wait s).held = s.held := rfl

/-- No command keeps BUSY, PHASE or MPC, and none that opens a bracket leaves it open (R21, R31, R39, R40). -/
theorem quiet_of_exec {i : Instr} {s t : State} (cs : s.csActive = false) (h : exec i s = .next t) : t.Quiet := by
  have ends := exec_next h
  cases i with
  | init =>
    obtain ⟨-, ⟨-, rfl⟩ | ⟨-, -, rfl⟩ | ⟨-, -, -, rfl⟩⟩ := ends
    · exact .finish cs _
    · exact .finish cs _
    · exact .finish ((configure_csActive s).trans cs) _
  | deinit =>
    obtain rfl := ends
    exact .finish ((deconfigure_csActive s).trans cs) .ok
  | write | writeMem =>
    obtain ⟨-, -, bytes, p, w, -, rfl⟩ := ends
    exact (concluded_concludeWrite ..).quiet
  | read =>
    obtain ⟨-, -, ⟨-, -, rfl⟩ | ⟨-, p, w, rfl⟩⟩ := ends
    · exact .finish (s := setCount 0 s) cs .ok
    · exact (concluded_concludeRead ..).quiet
  | readMem =>
    obtain ⟨-, -, ⟨-, rfl⟩ | ⟨-, p, w, rfl⟩⟩ := ends
    · exact .finish (s := setCount 0 s) cs .ok
    · exact (concluded_concludeRead ..).quiet
  | scan | ping | start | stop | writeByte | readByte | driveLow | release | readLine | delay =>
    obtain ⟨-, rfl⟩ := ends
    refine .finish ?_ .ok
    simp [cs, driveLow, release, wait, micro]

/-- The mark of the handle is written by INIT alone (R26, R43). -/
theorem heldHandle_of_exec {i : Instr} (hi : i ≠ .init) {s t : State} (h : exec i s = .next t) :
    t.held.handle = s.held.handle := by
  have ends := exec_next h
  cases i with
  | init => contradiction
  | deinit =>
    obtain rfl := ends
    simp
  | write | writeMem =>
    obtain ⟨-, -, bytes, p, w, -, rfl⟩ := ends
    simp
  | read => obtain ⟨-, -, ⟨-, -, rfl⟩ | ⟨-, p, w, rfl⟩⟩ := ends <;> simp [emptyRead]
  | readMem => obtain ⟨-, -, ⟨-, rfl⟩ | ⟨-, p, w, rfl⟩⟩ := ends <;> simp [emptyRead]
  | scan | ping | start | stop | writeByte | readByte | driveLow | release | readLine | delay =>
    obtain ⟨-, rfl⟩ := ends
    simp [driveLow, release, sample_held]

/-- The end of a read that fits the buffer writes below BUF_MAX, whether it received bytes or frees them (R50, R54). -/
theorem good_dbuf_concludeRead {ok : Bool} {k : Nat} {e : Effect} {s : State} (fits : lenFits s = true)
    (buffer : e.dbuf = if ok then storeGot s k 0 s.len.toNat s.dbuf else s.dbuf)
    (good : Memory.Good (bufMax s.par) s.dbuf) :
    Memory.Good (bufMax s.par) (concludeRead (ok, effect e s)).dbuf := by
  have inside : 0 + s.len.toNat ≤ bufMax s.par := by simpa [lenFits] using fits
  cases ok
  case true =>
    rw [concludeRead_dbuf, if_pos rfl, effect_dbuf, buffer, if_pos rfl]
    exact good_storeGot good inside
  case false =>
    rw [dbuf_concludeRead_failed, buffer]
    exact good_freeStore good inside

/-- DBUF keeps its canonical form and its bound (R50, R54). -/
theorem good_dbuf_of_exec {i : Instr} {s t : State} (h : exec i s = .next t)
    (good : Memory.Good (bufMax s.par) s.dbuf) : Memory.Good (bufMax s.par) t.dbuf := by
  have ends := exec_next h
  cases i with
  | read =>
    obtain ⟨-, fits, ⟨-, -, rfl⟩ | ⟨-, p, w, rfl⟩⟩ := ends
    · exact good
    · exact good_dbuf_concludeRead fits rfl good
  | readMem =>
    obtain ⟨-, fits, ⟨-, rfl⟩ | ⟨-, p, w, rfl⟩⟩ := ends
    · exact good
    · exact good_dbuf_concludeRead fits rfl good
  | init => obtain ⟨-, ⟨-, rfl⟩ | ⟨-, -, rfl⟩ | ⟨-, -, -, rfl⟩⟩ := ends <;> simpa using good
  | deinit =>
    obtain rfl := ends
    simpa using good
  | write | writeMem =>
    obtain ⟨-, -, bytes, p, w, -, rfl⟩ := ends
    rw [concludeWrite_dbuf]
    exact good
  | scan | ping | start | stop | writeByte | readByte | driveLow | release | readLine | delay =>
    obtain ⟨-, rfl⟩ := ends
    simpa [driveLow, release, wait, micro, scanEffect, pingEffect, symbolEffect] using good

/-- SCAN_COUNT is at most the number of addresses a SCAN probes, and no other command writes it (R37, R152). -/
theorem scanCount_le_of_exec {i : Instr} {s t : State} (h : exec i s = .next t) (bound : s.scan.count.toNat ≤ 113) :
    t.scan.count.toNat ≤ 113 := by
  by_cases hi : i = .scan
  case pos =>
    subst hi
    obtain rfl : finish .ok (scanned s) = t :=
      Host.Outcome.next.inj ((exec_scan (exec_next h).1).symm.trans h)
    rw [finish_scan, (scan_scanned s).1]
    exact (length_foundAddrs_le ..).trans (scanCount_le s.par)
  case neg =>
    obtain ⟨-, -, -, scan, -⟩ := resultRegistersHaveTheirWriters i s t h
    rwa [scan hi]

/-! ### The invariant over commands

A command runs in the state in which it has been issued, which has BUSY and MPC set (R21, R31): what it needs of the
invariant is said of that state with the two as they are between commands. -/

/-- The state without the marks of a running command. -/
def unissued (s : State) : State := { s with busy := false, mpc := none }

theorem State.Inv.good {s : State} (inv : s.Inv) : Memory.Good (bufMax s.par) s.dbuf :=
  ⟨inv.dbufCanonical, inv.dbufInside⟩

/-- What leaves the handle, the lines and the scanner alone keeps the invariant, if DBUF stays good and no command is
left running. -/
theorem State.Inv.of_frame {s t : State} (inv : s.Inv) (quiet : t.Quiet) (good : Memory.Good (bufMax s.par) t.dbuf)
    (par : t.par = s.par) (cfg : t.cfg = s.cfg) (handle : t.held.handle = s.held.handle) (scl : t.drvScl = s.drvScl)
    (sda : t.drvSda = s.drvSda) (busOpen : t.busOpen = s.busOpen) (scan : t.scan = s.scan) : t.Inv where
  quiet := quiet
  dbufCanonical := good.1
  dbufInside := by rw [par]; exact good.2
  validHandle := by rw [par, cfg]; exact inv.validHandle
  heldHandle := by rw [cfg, handle]; exact inv.heldHandle
  validTiming := by rw [par, cfg]; exact inv.validTiming
  releasedHandle := by rw [cfg, scl, sda, busOpen]; exact inv.releasedHandle
  scanBound := by rw [scan]; exact inv.scanBound

theorem State.Inv.unissued_issue {s : State} (inv : s.Inv) (w : Word) (i : Instr) (rest : List HostMove) :
    (unissued (issue w i { s with hostQ := rest })).Inv :=
  inv.of_frame ⟨rfl, inv.quiet.unmasked, inv.quiet.idle, rfl⟩ inv.good rfl rfl rfl rfl rfl rfl rfl

/-- The end of a command that has done nothing else: an INIT that raises an error (R183). -/
theorem State.Inv.finish {s : State} (inv : (unissued s).Inv) (st : Status) : (Machine.finish st s).Inv :=
  inv.of_frame ⟨rfl, inv.quiet.unmasked, rfl, rfl⟩ inv.good rfl rfl rfl rfl rfl rfl rfl

/-- An INIT that configures makes a valid handle: its checks are those that the invariant asks for (R180, R182). -/
theorem State.Inv.configure {s : State} (inv : (unissued s).Inv) (bitbang : busIsBitbang s.par s.arg.bus = true)
    (bus : busIdValid s.par s.arg.bus = true) (baud : 0 < s.arg.baud.toInt)
    (pins : pinValid s.par s.arg.scl s.arg.sda = true) : (Machine.finish .ok (Machine.configure s)).Inv := by
  have atLeastOne : 1 ≤ (halfPeriod s.par s.arg.baud).toNat := by
    rw [toNat_halfPeriod s.par baud]
    exact (halfPeriodOf_bounds _ _ (by omega)).1
  rw [configure_eq]
  exact ⟨⟨rfl, inv.quiet.unmasked, rfl, rfl⟩, inv.dbufCanonical, inv.dbufInside, fun _ => ⟨bus, bitbang, pins⟩,
    fun _ => rfl, fun _ => ⟨baud, rfl, atLeastOne⟩, nofun, inv.scanBound⟩

/-- A DEINIT leaves both lines released, the bus closed and CFG_BAUD 0 (R184). -/
theorem State.Inv.deconfigure {s : State} (inv : (unissued s).Inv) :
    (Machine.finish .ok (Machine.deconfigure s)).Inv := by
  rw [deconfigure_eq]
  exact ⟨⟨rfl, inv.quiet.unmasked, rfl, rfl⟩, inv.dbufCanonical, inv.dbufInside, nofun, nofun, nofun,
    fun _ => ⟨rfl, rfl, rfl, rfl⟩, inv.scanBound⟩

/-- A bus command runs only while CONFIGURED and leaves the handle alone. -/
theorem State.Inv.exec_bus {i : Instr} (hi : i ≠ .init) (hd : i ≠ .deinit) {s t : State} (inv : (unissued s).Inv)
    (h : exec i s = .next t) : t.Inv := by
  have u := Untouched.exec hi hd h
  have good := good_dbuf_of_exec h inv.good
  have configured : s.cfg.state = .configured := ((admitted_iff s).mp (admitted_of_exec hi hd h)).1
  have handle : t.held.handle = true := (heldHandle_of_exec hi h).trans (inv.heldHandle configured)
  refine ⟨quiet_of_exec (s := s) inv.quiet.unmasked h, good.1, ?_, ?_, fun _ => handle, ?_, ?_,
    scanCount_le_of_exec h inv.scanBound⟩
  · rw [u.par]
    exact good.2
  · rw [u.par, u.cfg]
    exact inv.validHandle
  · rw [u.par, u.cfg]
    exact inv.validTiming
  · rw [u.cfg, configured]
    exact nofun

theorem State.Inv.exec {i : Instr} {s t : State} (inv : (unissued s).Inv) (h : exec i s = .next t) : t.Inv := by
  obtain rfl | rfl | ⟨hi, hd⟩ := init_or_deinit_or_bus i
  · obtain ⟨soft, ⟨-, rfl⟩ | ⟨-, -, rfl⟩ | ⟨bus, baud, pins, rfl⟩⟩ := exec_next h
    · exact inv.finish .resourceUnavailable
    · exact inv.finish .invalidArgument
    · have bitbang : busIsBitbang s.par s.arg.bus = true := by simpa [selectsHardware, bus, baud, pins] using soft
      exact inv.configure bitbang bus (baudPositive_iff.mp baud) pins
  · obtain rfl := exec_next h
    exact inv.deconfigure
  · exact inv.exec_bus hi hd h

/-! ### The invariant over accesses of the host -/

/-- A host write to DBUF has an index below BUF_MAX; no other access writes what the invariant speaks of (R44, R50). -/
theorem State.Inv.hostAccess {a : HostAccess} {rest : List HostMove} {s t : State} (inv : s.Inv)
    (h : hostAccess a { s with hostQ := rest } = .next t) : t.Inv := by
  obtain ⟨inside, frame, handle, dbuf⟩ := hostAccess_next h
  have good : Memory.Good (bufMax s.par) t.dbuf := by
    rw [dbuf]
    cases a with
    | writeDbuf j v => exact inv.good.write (by simpa [indexExists, accessIndex] using inside)
    | _ => exact inv.good
  have quiet : t.Quiet := by
    rw [frame]
    exact ⟨inv.quiet.notBusy, inv.quiet.unmasked, inv.quiet.idle, inv.quiet.noMpc⟩
  exact inv.of_frame quiet good (by rw [frame]) (by rw [frame]) handle (by rw [frame]) (by rw [frame]) (by rw [frame])
    (by rw [frame])

/-- Settles O48: a step is idle, an access of the host or a command, and each keeps the invariant. -/
theorem everyStepKeepsTheInvariant : Obligations.EveryStepKeepsTheInvariant := by
  unfold Obligations.EveryStepKeepsTheInvariant
  intro s t inv hstep
  obtain ⟨-, rfl⟩ | ⟨a, rest, -, -, haccess⟩ | ⟨w, rest, i, -, -, -, hexec⟩ := step_next hstep
  · exact inv
  · exact inv.hostAccess haccess
  · exact (inv.unissued_issue w i rest).exec hexec

end Sys2Proof.Machine

/-! PROOFS. Which commands run, and on which registers that depends (R43, R204). -/

namespace Sys2Proof.Machine

/-! ### When a command runs (R30, R42, R43, R180) -/

theorem lenFits_iff (s : State) : lenFits s = true ↔ s.len.toNat ≤ bufMax s.par := decide_eq_true_iff

theorem exists_payload_iff (s : State) :
    (∃ bytes, payload s = some bytes) ↔ ∀ j < s.len.toNat, dbufRead j s ≠ none := by
  rw [← Option.isSome_iff_exists, ← Option.ne_none_iff_isSome, ne_eq, payload_eq_none]
  simp only [not_exists, not_and, ne_eq]

theorem runs_init_iff (s : State) : (∃ t, exec .init s = .next t) ↔
    (busIdValid s.par s.arg.bus = true → 0 < s.arg.baud.toInt → pinValid s.par s.arg.scl s.arg.sda = true →
      busIsBitbang s.par s.arg.bus = true) := by
  have soft : (∃ t, exec .init s = .next t) ↔ ¬ selectsHardware s = true := by
    rw [exec_init_eq]
    split <;> simp [*]
  rw [soft, selectsHardware_iff]
  simp only [not_and, Bool.not_eq_false]

/-- A command that is refused only when it is not admitted. -/
theorem runs_ifAdmitted_iff (s : State) (f : State → State) :
    (∃ t, ifAdmitted s (fun s => .next (f s)) = .next t) ↔ admitted s = true := by
  unfold ifAdmitted
  split <;> simp [*]

theorem runs_write_iff (b : Bool) (a : Addr) (s : State) : (∃ t, exec (.write b a) s = .next t) ↔
    admitted s = true ∧ lenFits s = true ∧ ∃ bytes, payload s = some bytes := by
  constructor
  · rintro ⟨t, h⟩
    obtain ⟨ha, hl, bytes, -, -, hp, -⟩ := exec_next h
    exact ⟨ha, hl, bytes, hp⟩
  · rintro ⟨ha, hl, bytes, hp⟩
    obtain ⟨p, w, h⟩ := execWrite_eq a b ha hl hp
    exact ⟨_, h⟩

theorem runs_writeMem_iff (a : Addr) (u : SubAddr) (s : State) : (∃ t, exec (.writeMem a u) s = .next t) ↔
    admitted s = true ∧ lenFits s = true ∧ ∃ bytes, payload s = some bytes := by
  constructor
  · rintro ⟨t, h⟩
    obtain ⟨ha, hl, bytes, -, -, hp, -⟩ := exec_next h
    exact ⟨ha, hl, bytes, hp⟩
  · rintro ⟨ha, hl, bytes, hp⟩
    obtain ⟨p, w, h⟩ := execWriteMem_eq a u ha hl hp
    exact ⟨_, h⟩

theorem runs_read_iff (a : Addr) (s : State) : (∃ t, exec (.read a) s = .next t) ↔
    admitted s = true ∧ lenFits s = true := by
  constructor
  · rintro ⟨t, h⟩
    obtain ⟨ha, hl, -⟩ := exec_next h
    exact ⟨ha, hl⟩
  · rintro ⟨ha, hl⟩
    by_cases h0 : s.len = 0 ∧ s.par.read0Mode = .nobus
    · exact ⟨_, execRead_empty a ha hl h0⟩
    · obtain ⟨p, w, h⟩ := execRead_eq a ha hl h0
      exact ⟨_, h⟩

theorem runs_readMem_iff (a : Addr) (u : SubAddr) (s : State) : (∃ t, exec (.readMem a u) s = .next t) ↔
    admitted s = true ∧ lenFits s = true := by
  constructor
  · rintro ⟨t, h⟩
    obtain ⟨ha, hl, -⟩ := exec_next h
    exact ⟨ha, hl⟩
  · rintro ⟨ha, hl⟩
    by_cases h0 : s.len = 0
    · exact ⟨_, execReadMem_empty a u ha hl h0⟩
    · obtain ⟨p, w, h⟩ := execReadMem_eq a u ha hl h0 rfl
      exact ⟨_, h⟩

/-! ### What decides nothing (log 4) -/

/-- Two outcomes that are the same but for the marks and the registers that the host writes agree once these are put
back; the command itself writes none of those registers. -/
theorem SameBut.agreeUnder {i : Instr} {h : Held} {a : InitArgs} {l : Word} {s : State} {f : State → State}
    {o : Host.Outcome State Fault Refusal} (same : SameBut h a l s o (exec i s))
    (put : ∀ u t : State, u = hostRegs u.held a l t → (h = s.held → u.held = t.held) → t.arg = s.arg → t.len = s.len →
      f u = f t) : Machine.agreeUnder f o (exec i s) := by
  cases hexec : exec i s with
  | next t =>
    rw [hexec] at same
    obtain ⟨arg, len, -⟩ := commandsKeepWhatTheHostOwns i s t hexec
    cases o with
    | next u => exact put u t same.1 same.2 arg len
    | fault | refused => exact same
  | fault =>
    rw [hexec] at same
    cases o <;> cases same
  | refused =>
    rw [hexec] at same
    cases o <;> exact same

/-- The marks decide nothing: the machine asks none of them. -/
theorem agreeUnder_held (i : Instr) (s : State) (h : Held) :
    agreeUnder (fun t => { t with held := s.held }) (exec i { s with held := h }) (exec i s) := by
  refine (exec_hostRegs i h s.arg s.len s (fun _ => rfl) (fun _ => ⟨rfl, fun _ => rfl⟩)).agreeUnder ?_
  intro u t same _ arg len
  rw [same, hostRegs, ← arg, ← len]

theorem held_len_of_readsHeld {i : Instr} {s : State} (reads : readsHeld i s = true) (hl : readsLen i = true) :
    s.held.len = true := by
  cases i
  case write | read | writeMem | readMem => exact reads
  all_goals cases hl

/-- Other numbers in registers that nothing has written decide nothing of a command that reads none of them. -/
theorem agreeUnder_unwritten (i : Instr) (s : State) (reads : readsHeld i s = true) (a : InitArgs) (l : Word)
    (bus : s.held.argBus = true → a.bus = s.arg.bus) (baud : s.held.argBaud = true → a.baud = s.arg.baud)
    (scl : s.held.argScl = true → a.scl = s.arg.scl) (sda : s.held.argSda = true → a.sda = s.arg.sda)
    (len : s.held.len = true → l = s.len) :
    agreeUnder (fun t => { t with arg := s.arg, len := s.len }) (exec i { s with arg := a, len := l }) (exec i s) := by
  have args (hi : i = .init) : a.bus = s.arg.bus ∧ (busIdValid s.par s.arg.bus = true → a = s.arg) := by
    subst hi
    simp only [readsHeld, argsHeld, Bool.and_eq_true, Bool.or_eq_true, Bool.not_eq_true'] at reads
    obtain ⟨heldBus, invalid | ⟨⟨heldBaud, heldScl⟩, heldSda⟩⟩ := reads
    · exact ⟨bus heldBus, fun valid => absurd (invalid.symm.trans valid) Bool.false_ne_true⟩
    · refine ⟨bus heldBus, fun _ => ?_⟩
      calc a = ⟨a.bus, a.scl, a.sda, a.baud⟩ := rfl
        _ = ⟨s.arg.bus, s.arg.scl, s.arg.sda, s.arg.baud⟩ := by
          rw [bus heldBus, scl heldScl, sda heldSda, baud heldBaud]
        _ = s.arg := rfl
  refine (exec_hostRegs i s.held a l s (fun hl => len (held_len_of_readsHeld reads hl)) args).agreeUnder ?_
  intro u t same marks _ _
  rw [same, hostRegs, marks rfl]

/-- Settles O26: the conditions are those of `exec_next`, and each is enough; `exec_hostRegs` says what decides
nothing. -/
theorem commandsRunUnlessRefused : Obligations.CommandsRunUnlessRefused := by
  unfold Obligations.CommandsRunUnlessRefused
  refine fun i s => ⟨?_, agreeUnder_held i s, agreeUnder_unwritten i s⟩
  simp only [← lenFits_iff, ← exists_payload_iff]
  cases i with
  | init => exact runs_init_iff s
  | deinit => exact iff_true_intro ⟨_, exec_deinit s⟩
  | write b a => exact runs_write_iff b a s
  | writeMem a u => exact runs_writeMem_iff a u s
  | read a => exact runs_read_iff a s
  | readMem a u => exact runs_readMem_iff a u s
  | scan | ping | start | stop | writeByte | readByte | driveLow | release | readLine | delay =>
    simp only [exec, execScan, execPing, execStart, execStop, execWriteByte, execReadByte, execDriveLow, execRelease,
      execReadLine, execDelay]
    exact runs_ifAdmitted_iff s _

end Sys2Proof.Machine

/-! PROOFS. The physical contract over steps (R125, R243, R245). -/

namespace Sys2Proof.Machine

/-! ### Keeping the contract

A command that keeps the contract puts the symbols of a byte-level trace on the bus and then events that drive no
line. -/

/-- From s to t the symbols bs have gone on the bus and then the events after: each START and STOP of bs makes its own
edge, each STOP ends an open transaction, and t is in a clean line state. -/
structure KeepsContract (bs : List ByteEvent) (after : List Event) (s t : State) : Prop where
  events : eventsOf t = eventsOf s ++ byteTraceEvents s.cfg.halfPeriod bs ++ after
  silent : ∀ e ∈ after, e.isDrive = false
  kept   : contractKept (s.drvScl, s.drvSda) bs = true
  opens  : openAfter s.busOpen (conditionsOf bs) = some t.busOpen
  clean  : lineState t ≠ none

/-- Events that drive no line make no edge beside those of a byte-level trace that keeps the contract. -/
theorem edges_around {scl sda : Drive} {before after : List Event} {bs : List ByteEvent} (h : Word)
    (silentBefore : ∀ e ∈ before, e.isDrive = false) (silentAfter : ∀ e ∈ after, e.isDrive = false)
    (kept : contractKept (scl, sda) bs = true) :
    clockHighEdges scl sda (before ++ byteTraceEvents h bs ++ after) = conditionsOf bs := by
  obtain ⟨noEdge, sameLines⟩ := edges_noDrive silentBefore (scl, sda)
  rw [List.append_assoc, clockHighEdges_append, noEdge, sameLines, clockHighEdges_append,
    edges_contractKept (p := (scl, sda)) h kept, (edges_noDrive silentAfter _).1, List.append_nil, List.nil_append]

theorem silent_complete (st : Status) : ∀ e ∈ [Event.complete st], e.isDrive = false := by
  simp [Event.isDrive]

/-- A step that puts no symbol on the bus and leaves the lines and BUS_OPEN alone. -/
theorem KeepsContract.of_silent {s t : State} {after : List Event} (events : eventsOf t = eventsOf s ++ after)
    (silent : ∀ e ∈ after, e.isDrive = false) (scl : t.drvScl = s.drvScl) (sda : t.drvSda = s.drvSda)
    (busOpen : t.busOpen = s.busOpen) (clean : lineState s ≠ none) : KeepsContract [] after s t where
  events := by rw [events, byteTraceEvents_nil, List.append_nil]
  silent := silent
  kept := rfl
  opens := congrArg some busOpen.symm
  clean := by rwa [lineState_congr scl sda busOpen]

/-! ### Transactions and SCAN (R143 to R147, R170) -/

/-- IDLE or HELD, where a transaction is no hazard (R243, log 35). -/
def IdleOrHeld (s : State) : Prop := lineState s = some .idle ∨ lineState s = some .held

theorem IdleOrHeld.clean {s : State} (h : IdleOrHeld s) : lineState s ≠ none := by
  obtain h | h := h <;> simp [h]

theorem IdleOrHeld.not_started {s : State} (h : IdleOrHeld s) : (s.drvScl, s.drvSda) ≠ (.released, .low) := by
  intro lines
  obtain ⟨scl, sda⟩ := Prod.mk.inj lines
  obtain h | h := h
  · exact absurd ((started_iff_of_lineState h).mp ⟨scl, sda⟩) nofun
  · exact absurd ((started_iff_of_lineState h).mp ⟨scl, sda⟩) nofun

/-- A START from IDLE or HELD and the symbols bs after it keep the contract when bs does from STARTED. -/
theorem KeepsContract.of_start {s t : State} {bs : List ByteEvent} {st : Status} (ready : IdleOrHeld s)
    (events : eventsOf t = eventsOf s ++ byteTraceEvents s.cfg.halfPeriod (.start :: bs) ++ [.complete st])
    (kept : contractKept (.released, .low) bs = true) (opens : openAfter true (conditionsOf bs) = some t.busOpen)
    (clean : lineState t ≠ none) : KeepsContract (.start :: bs) [.complete st] s t where
  events := events
  silent := silent_complete st
  kept := by rw [contractKept, kept, Bool.and_true, bne_iff_ne]; exact ready.not_started
  opens := by rw [conditionsOf_start, openAfter]; exact opens
  clean := clean

section
variable {ok : Bool} {e : Effect} {s t : State} {bs : List ByteEvent} (c : Concluded ok e s t) (ready : IdleOrHeld s)
  (events : e.events = byteTraceEvents s.cfg.halfPeriod (.start :: bs))
  (scl : e.scl = if e.busOpen then .low else .released) (sda : e.sda = .released)
include c ready events scl sda

theorem Concluded.keepsContract_of_contractKept (kept : contractKept (.released, .low) bs = true)
    (opens : openAfter true (conditionsOf bs) = some e.busOpen) :
    KeepsContract (.start :: bs) [.complete (statusOf ok)] s t := by
  refine .of_start ready (by rw [c.events, events]) kept (by rw [opens, c.busOpen]) ?clean
  rw [lineState_of_released (by rw [c.scl, scl, c.busOpen]) (by rw [c.sda, sda])]
  exact Option.some_ne_none _

/-- A transaction with one START. -/
theorem Concluded.keepsContract {bytes : List ByteEvent} (hb : bytes.all ByteEvent.isByte = true)
    (hbs : bs = bytes ++ closing e.busOpen) : ∃ bs after, KeepsContract bs after s t := by
  subst hbs
  refine ⟨_, _, c.keepsContract_of_contractKept ready events scl sda (contractKept_bytes_closing hb e.busOpen) ?opens⟩
  rw [conditionsOf_bytes_closing hb]
  cases e.busOpen <;> rfl

/-- A transaction with a repeated START (R146). -/
theorem Concluded.keepsContract_twice {as bytes : List ByteEvent} (ha : as.all ByteEvent.isByte = true) (hne : as ≠ [])
    (hb : bytes.all ByteEvent.isByte = true) (hbs : bs = as ++ .start :: (bytes ++ closing e.busOpen)) :
    ∃ bs after, KeepsContract bs after s t := by
  subst hbs
  refine ⟨_, _, c.keepsContract_of_contractKept ready events scl sda ?kept ?opens⟩
  case kept =>
    rw [contractKept_bytes ha, if_neg hne, contractKept, contractKept_bytes_closing hb]
    rfl
  case opens =>
    rw [conditionsOf_append, conditionsOf_bytes ha, List.nil_append, conditionsOf_start,
      conditionsOf_bytes_closing hb]
    cases e.busOpen <;> rfl

end

/-- After each probe the bus is closed (R170). -/
theorem openAfter_probes (n : Nat) :
    openAfter false (List.replicate n [Edge.start, Edge.stop]).flatten = some false := by
  induction n with
  | zero => rfl
  | succ n ih => exact ih

theorem keepsContract_emptyRead {s : State} (clean : lineState s ≠ none) :
    KeepsContract [] [.complete .ok] s (emptyRead s) :=
  .of_silent (eventsOf_finish .ok (setCount 0 s)) (silent_complete .ok) rfl rfl rfl clean

section
variable {s t : State} (ready : IdleOrHeld s)
include ready

theorem exec_write_keepsContract {b : Bool} {a : Addr} (h : exec (.write b a) s = .next t) :
    ∃ bs after, KeepsContract bs after s t := by
  obtain ⟨-, -, bytes, p, w, -, rfl⟩ := exec_next h
  exact (concluded_concludeWrite _ _ s).keepsContract ready rfl rfl rfl (isByte_sentTrace s 0 _) rfl

theorem exec_writeMem_keepsContract {a : Addr} {u : SubAddr} (h : exec (.writeMem a u) s = .next t) :
    ∃ bs after, KeepsContract bs after s t := by
  obtain ⟨-, -, bytes, p, w, -, rfl⟩ := exec_next h
  exact (concluded_concludeWrite _ _ s).keepsContract ready rfl rfl rfl (isByte_sentTrace s 0 _) rfl

theorem exec_read_keepsContract {a : Addr} (h : exec (.read a) s = .next t) :
    ∃ bs after, KeepsContract bs after s t := by
  obtain ⟨-, -, ⟨-, -, rfl⟩ | ⟨-, p, w, rfl⟩⟩ := exec_next h
  · exact ⟨_, _, keepsContract_emptyRead ready.clean⟩
  · exact (concluded_concludeRead (ackAt s 0) (readEffect s a p w) s).keepsContract ready rfl rfl rfl
      (isByte_readBody s (addrByte a rwRead) _ _ _) rfl

/-- READ_MEM makes its repeated START only when the address and sub-address bytes are acknowledged. -/
theorem exec_readMem_keepsContract {a : Addr} {u : SubAddr} (h : exec (.readMem a u) s = .next t) :
    ∃ bs after, KeepsContract bs after s t := by
  obtain ⟨-, -, ⟨-, rfl⟩ | ⟨-, p, w, rfl⟩⟩ := exec_next h
  · exact ⟨_, _, keepsContract_emptyRead ready.clean⟩
  · have c := concluded_concludeRead (acked s 0 ((subBytes u).length + 2))
      (readMemEffect s a u ((subBytes u).length + 1) p w) s
    have sent := isByte_sentTrace s 0 (addrByte a rwWrite :: subBytes u)
    cases hack : acked s 0 ((subBytes u).length + 1)
    case false => exact c.keepsContract ready (by simp [readMemEffect, hack, closing]) rfl rfl sent rfl
    case true =>
      exact c.keepsContract_twice ready (by simp [readMemEffect, hack, acked_succ, closing]) rfl rfl sent nofun
        (isByte_readBody s (addrByte a rwRead) (ackAt s ((subBytes u).length + 1)) ((subBytes u).length + 2)
          s.len.toNat) rfl

theorem exec_ping_keepsContract {a : Addr} (h : exec (.ping a) s = .next t) :
    ∃ bs after, KeepsContract bs after s t := by
  obtain ⟨-, rfl⟩ := exec_next h
  refine ⟨_, _, .of_start ready (bs := [.wrote (addrByte a rwWrite) (ackAt s 0), .stop]) (st := .ok) ?events rfl rfl
    nofun⟩
  case events =>
    rw [eventsOf_finish, eventsOf_setAck, eventsOf_effect]
    rfl

theorem exec_scan_keepsContract (h : exec .scan s = .next t) : ∃ bs after, KeepsContract bs after s t := by
  obtain ⟨n, hn⟩ := scanEndOf_sub_scanFirst s.par
  obtain rfl : finish .ok (scanned s) = t := Host.Outcome.next.inj ((exec_scan (exec_next h).1).symm.trans h)
  have events := eventsOf_finish .ok (scanned s)
  rw [eventsOf_scanned, hn, probeTrace_succ] at events
  refine ⟨_, _, .of_start ready events (contractKept_probes (by decide) s _ _ n) ?opens ?clean⟩
  case opens =>
    rw [finish_busOpen, scanned_busOpen, ← openAfter_probes n, ← conditionsOf_probes s (scanFirst + 1) 1]
    rfl
  case clean =>
    rw [lineState_of_released (by simp) (by simp)]
    exact Option.some_ne_none _

end

/-! ### The engine commands, READ_LINE and DELAY (R112, R113, R127 to R130) -/

/-- HELD or STARTED, where a STOP or a byte sent is no hazard (R243). -/
def HeldOrStarted (s : State) : Prop := lineState s = some .held ∨ lineState s = some .started

theorem HeldOrStarted.open_and_not_released {s : State} (h : HeldOrStarted s) :
    s.busOpen = true ∧ (s.drvScl, s.drvSda) ≠ (.released, .released) := by
  obtain ⟨l, hl, notIdle⟩ : ∃ l, lineState s = some l ∧ l ≠ .idle := by
    obtain h | h := h
    · exact ⟨_, h, nofun⟩
    · exact ⟨_, h, nofun⟩
  obtain ⟨rfl, -⟩ | ⟨-, scl, -, isOpen⟩ | ⟨-, -, sda, isOpen⟩ := lineState_eq_some hl
  · exact absurd rfl notIdle
  · exact ⟨isOpen, by simp [scl]⟩
  · exact ⟨isOpen, by simp [sda]⟩

/-- A byte sent or received while the bus is open leaves it HELD (R123, R124, R131). -/
theorem KeepsContract.of_byte {s t : State} {b : ByteEvent} (hb : b.isByte = true) (isOpen : s.busOpen = true)
    (events : eventsOf t = eventsOf s ++ byteTraceEvents s.cfg.halfPeriod [b] ++ [.complete .ok])
    (scl : t.drvScl = .low) (sda : t.drvSda = .released) (busOpen : t.busOpen = s.busOpen) :
    KeepsContract [b] [.complete .ok] s t where
  events := events
  silent := silent_complete .ok
  kept := contractKept_bytes (bs := [b]) (by simp [hb]) []
  opens := by rw [conditionsOf_bytes (by simp [hb]), busOpen]; rfl
  clean := by
    rw [lineState_of_released (by rw [scl, busOpen, isOpen]; rfl) sda]
    exact Option.some_ne_none _

section
variable {s t : State}

theorem exec_writeByte_keepsContract (ready : HeldOrStarted s) {v : Byte} (h : exec (.writeByte v) s = .next t) :
    ∃ bs after, KeepsContract bs after s t := by
  obtain ⟨-, rfl⟩ := exec_next h
  refine ⟨_, _, .of_byte (b := .wrote v (ackAt s 0)) rfl ready.open_and_not_released.1 ?events rfl rfl rfl⟩
  case events =>
    rw [eventsOf_finish, eventsOf_setAck, eventsOf_effect]
    rfl

theorem exec_readByte_keepsContract (ready : HeldOrStarted s) {nack : Bool} (h : exec (.readByte nack) s = .next t) :
    ∃ bs after, KeepsContract bs after s t := by
  obtain ⟨-, rfl⟩ := exec_next h
  refine ⟨_, _, .of_byte (b := .got (heardByte s) (!nack)) rfl ready.open_and_not_released.1 ?events rfl rfl rfl⟩
  case events =>
    rw [eventsOf_finish, eventsOf_setByte, eventsOf_effect]
    rfl

theorem exec_start_keepsContract (ready : IdleOrHeld s) (h : exec .start s = .next t) :
    ∃ bs after, KeepsContract bs after s t := by
  obtain ⟨-, rfl⟩ := exec_next h
  exact ⟨_, _, .of_start ready (bs := []) (by rw [eventsOf_finish, eventsOf_effect]; rfl) rfl rfl nofun⟩

theorem exec_stop_keepsContract (ready : HeldOrStarted s) (h : exec .stop s = .next t) :
    ∃ bs after, KeepsContract bs after s t := by
  obtain ⟨-, rfl⟩ := exec_next h
  obtain ⟨isOpen, notReleased⟩ := ready.open_and_not_released
  exact ⟨[.stop], [.complete .ok], by rw [eventsOf_finish, eventsOf_effect]; rfl, silent_complete .ok,
    by rw [contractKept, contractKept, Bool.and_true, bne_iff_ne]; exact notReleased, by rw [isOpen]; rfl, nofun⟩

variable (clean : lineState s ≠ none)
include clean

theorem exec_readLine_keepsContract {l : Line} (h : exec (.readLine l) s = .next t) :
    ∃ bs after, KeepsContract bs after s t := by
  obtain ⟨-, rfl⟩ := exec_next h
  refine ⟨_, [.sample l (sample l s).1, .complete .ok], .of_silent ?events ?silent (by simp) (by simp) (by simp) clean⟩
  case events => rw [eventsOf_finish, eventsOf_setLevel, eventsOf_sample, List.append_assoc]; rfl
  case silent => simp [Event.isDrive]

theorem exec_delay_keepsContract (h : exec .delay s = .next t) : ∃ bs after, KeepsContract bs after s t := by
  obtain ⟨-, rfl⟩ := exec_next h
  refine ⟨_, [.wait s.cfg.halfPeriod, .complete .ok], .of_silent ?events ?silent rfl rfl rfl clean⟩
  case events => rw [eventsOf_finish, wait, eventsOf_micro, List.append_assoc]; rfl
  case silent => simp [Event.isDrive]

end

/-! ### Every command and every step -/

/-- What protocolHazard asks of a command that is safe from two line states only (R243). -/
theorem eq_or_eq_of_safe {o p q : Option LineState} (h : (o != p && o != q) = false) : o = p ∨ o = q := by
  simpa [← or_iff_not_imp_left] using h

/-- A bus command that is no hazard keeps the contract. -/
theorem exec_keepsContract {i : Instr} (hi : i ≠ .init) (hd : i ≠ .deinit) {s t : State} (clean : lineState s ≠ none)
    (safe : protocolHazard i s = false) (h : exec i s = .next t) : ∃ bs after, KeepsContract bs after s t := by
  cases i with
  | init | deinit => contradiction
  | driveLow | release => cases safe
  | scan => exact exec_scan_keepsContract (eq_or_eq_of_safe safe) h
  | write => exact exec_write_keepsContract (eq_or_eq_of_safe safe) h
  | read => exact exec_read_keepsContract (eq_or_eq_of_safe safe) h
  | writeMem => exact exec_writeMem_keepsContract (eq_or_eq_of_safe safe) h
  | readMem => exact exec_readMem_keepsContract (eq_or_eq_of_safe safe) h
  | ping => exact exec_ping_keepsContract (eq_or_eq_of_safe safe) h
  | start => exact exec_start_keepsContract (eq_or_eq_of_safe safe) h
  | stop => exact exec_stop_keepsContract (eq_or_eq_of_safe safe) h
  | writeByte => exact exec_writeByte_keepsContract (eq_or_eq_of_safe safe) h
  | readByte =>
    have held : lineState s = some .held := by simpa [protocolHazard] using safe
    exact exec_readByte_keepsContract (.inl held) h
  | readLine => exact exec_readLine_keepsContract clean h
  | delay => exact exec_delay_keepsContract clean h

/-- From s to t a command has abandoned what was open: it has released SCL and then SDA (R182, R184). -/
structure Abandons (s t : State) : Prop where
  idle   : lineState t = some .idle
  events : eventsOf t = eventsOf s ++ [.drive .scl .released, .drive .sda .released, .complete .ok]

theorem Abandons.clean {s t : State} (h : Abandons s t) : lineState t ≠ none := by
  rw [h.idle]
  exact Option.some_ne_none _

theorem exec_init_keepsContract {s t : State} (clean : lineState s ≠ none) (h : exec .init s = .next t) :
    (∃ bs after, KeepsContract bs after s t) ∨ Abandons s t := by
  obtain ⟨-, ⟨-, rfl⟩ | ⟨-, -, rfl⟩ | ⟨-, -, -, rfl⟩⟩ := exec_next h
  · exact .inl ⟨_, _, .of_silent (eventsOf_finish _ s) (silent_complete _) rfl rfl rfl clean⟩
  · exact .inl ⟨_, _, .of_silent (eventsOf_finish _ s) (silent_complete _) rfl rfl rfl clean⟩
  · exact .inr ⟨(contract_configure s).1, (contract_configure s).2⟩

/-- Every command that is no hazard keeps the contract, unless it is an INIT or DEINIT that abandons what is open. -/
theorem exec_keepsContract_or_abandons {i : Instr} {s t : State} (clean : lineState s ≠ none)
    (safe : protocolHazard i s = false) (h : exec i s = .next t) :
    (∃ bs after, KeepsContract bs after s t) ∨ ((i = .init ∨ i = .deinit) ∧ Abandons s t) := by
  obtain rfl | rfl | ⟨hi, hd⟩ := init_or_deinit_or_bus i
  · exact (exec_init_keepsContract clean h).imp_right fun abandons => ⟨.inl rfl, abandons⟩
  · obtain rfl := exec_next h
    exact .inr ⟨.inr rfl, (contract_deconfigure s).1, (contract_deconfigure s).2⟩
  · exact .inl (exec_keepsContract hi hd clean safe h)

theorem protocolHazard_congr {s t : State} (h : lineState t = lineState s) (i : Instr) :
    protocolHazard i t = protocolHazard i s := by
  simp only [protocolHazard, h]

/-- Releasing SCL and then SDA makes a STOP edge exactly where SDA was low. -/
theorem edges_abandon (scl sda : Drive) (w : Word) (st : Status) : clockHighEdges scl sda
    [.issue w, .drive .scl .released, .drive .sda .released, .complete st] =
      if sda = .low then [.stop] else [] := by
  cases sda <;> rfl

/-- What the statement about every step says of a step from s to t that abandons nothing. -/
def StepKeepsContract (s t : State) : Prop :=
  ∃ before bs after, eventsOf t = eventsOf s ++ (before ++ byteTraceEvents s.cfg.halfPeriod bs ++ after) ∧
    (∀ e ∈ before ++ after, e.isDrive = false) ∧
    clockHighEdges s.drvScl s.drvSda (before ++ byteTraceEvents s.cfg.halfPeriod bs ++ after) = conditionsOf bs ∧
    openAfter s.busOpen (conditionsOf bs) = some t.busOpen

/-- The events of a step are those of its command after those before it, which drive no line. -/
theorem KeepsContract.step {s u t : State} {before after : List Event} {bs : List ByteEvent}
    (c : KeepsContract bs after u t) (events : eventsOf u = eventsOf s ++ before)
    (silent : ∀ e ∈ before, e.isDrive = false) (cfg : u.cfg = s.cfg) (scl : u.drvScl = s.drvScl)
    (sda : u.drvSda = s.drvSda) (busOpen : u.busOpen = s.busOpen) : StepKeepsContract s t := by
  refine ⟨before, bs, after, ?_, ?_, ?_, by rw [← busOpen, c.opens]⟩
  · rw [c.events, events, cfg]
    simp only [List.append_assoc]
  · exact fun e he => (List.mem_append.mp he).elim (silent e) (c.silent e)
  · exact edges_around _ silent c.silent (by rw [← scl, ← sda]; exact c.kept)

/-- A step that records no event and leaves the lines and BUS_OPEN alone. -/
theorem stepKeepsContract_of_silent {s t : State} (clean : lineState s ≠ none) (events : eventsOf t = eventsOf s)
    (scl : t.drvScl = s.drvScl) (sda : t.drvSda = s.drvSda) (busOpen : t.busOpen = s.busOpen) :
    lineState t ≠ none ∧ StepKeepsContract s t := by
  have c : KeepsContract [] [] s t := .of_silent (by rw [events, List.append_nil]) nofun scl sda busOpen clean
  exact ⟨c.clean, c.step (List.append_nil _).symm nofun rfl rfl rfl rfl⟩

/-- Settles O58: a step with no command is silent; one with a command is that command, after the event of its issue. -/
theorem everyStepKeepsThePhysicalContract : Obligations.EveryStepKeepsThePhysicalContract := by
  unfold Obligations.EveryStepKeepsThePhysicalContract
  intro s t clean safe hstep
  obtain ⟨-, rfl⟩ | ⟨a, rest, -, -, haccess⟩ | ⟨w, rest, i, hq, -, hdec, hexec⟩ := step_next hstep
  · exact (stepKeepsContract_of_silent clean rfl rfl rfl rfl).imp_right .inl
  · obtain ⟨-, frame, -⟩ := hostAccess_next haccess
    exact (stepKeepsContract_of_silent clean (by rw [frame]; rfl) (by rw [frame]) (by rw [frame])
      (by rw [frame])).imp_right .inl
  · have line : lineState (issue w i { s with hostQ := rest }) = lineState s := lineState_congr rfl rfl rfl
    have safeIssued := (protocolHazard_congr line i).trans (safe w rest i hq hdec)
    obtain ⟨bs, after, c⟩ | ⟨hi, abandons⟩ := exec_keepsContract_or_abandons (line ▸ clean) safeIssued hexec
    · exact ⟨c.clean, .inl (c.step (eventsOf_issue w i _) (by simp [Event.isDrive]) rfl rfl rfl rfl)⟩
    · refine ⟨abandons.clean, .inr ⟨⟨w, rest, hq, ?word⟩, abandons.idle, _, ?events, edges_abandon _ _ w .ok⟩⟩
      case word =>
        obtain rfl | rfl := hi
        · exact .inl hdec
        · exact .inr hdec
      case events => rw [abandons.events, eventsOf_issue, List.append_assoc]; rfl

end Sys2Proof.Machine

/-! PROOFS. Decoder and encoder (R75 to R79) and the assembler (R81, R82). -/

namespace Sys2Proof

/-! ### Decoding and encoding (R75, R79) -/

theorem decode_encode (i : Instr) : decode (encode i) = .ok i := by
  rw [decode_of_mask_match (encode_mask i), encode, CommandFields.ofWord_toWord, Opcode.build_fields]

/-- Settles O1: an instruction's word is in its operation's row, and the operation builds the instruction from its own
fields. -/
theorem decodeOfEncodeIsTheInstruction : Obligations.DecodeOfEncodeIsTheInstruction := by
  unfold Obligations.DecodeOfEncodeIsTheInstruction
  exact decode_encode

theorem encode_of_decode {w : Word} {i : Instr} (h : decode w = .ok i) : encode i = w := by
  obtain ⟨o, ho, rfl⟩ := mask_match_of_decode h
  obtain ⟨hop, hr, hu⟩ := (o.mask_match_iff w).mp ho
  rw [encode, (Opcode.fields_build hop hr hu).1, CommandFields.toWord_ofWord]

/-- Settles O2: a word that decodes is in a row, and the operation of that row keeps the fields of a legal word. -/
theorem encodeOfDecodeIsTheWord : Obligations.EncodeOfDecodeIsTheWord := by
  unfold Obligations.EncodeOfDecodeIsTheWord
  exact fun w i => encode_of_decode

/-- Settles O4: the six legal words are those of their instructions, and the illegal ones are decoded. -/
theorem wordsOfTheTestVectorsDecode : Obligations.WordsOfTheTestVectorsDecode := by
  unfold Obligations.WordsOfTheTestVectorsDecode
  exact ⟨decode_encode .init, decode_encode (.write true 0x50), decode_encode (.write false 0x50),
    decode_encode (.readMem 0x7F 0xFFFF), decode_encode (.readByte true), decode_encode (.driveLow .sda), rfl, rfl, rfl⟩

/-- The OP values that no operation has (R78). -/
def unassignedOps : List Nat :=
  [0x00, 0x09, 0x0A, 0x0B, 0x0C, 0x0D, 0x0E, 0x0F, 0x14, 0x15, 0x16, 0x17, 0x1C, 0x1D, 0x1E, 0x1F]

theorem Opcode.ofBits_eq_none_of_unassigned : ∀ b : BitVec 5, b.toNat ∈ unassignedOps → Opcode.ofBits b = none := by
  decide

/-- OP is what a word has above its bit 26 (R70). -/
theorem CommandFields.toNat_ofWord_op (w : Word) : (CommandFields.ofWord w).op.toNat = (w >>> 27).toNat := by
  have := w.isLt
  simp only [CommandFields.ofWord, BitVec.extractLsb'_toNat, BitVec.toNat_ushiftRight, Nat.shiftRight_eq_div_pow]
  omega

theorem decode_of_unassigned {w : Word} (h : (w >>> 27).toNat ∈ unassignedOps) :
    decode w = .error .unassignedOpcode := by
  rw [← CommandFields.toNat_ofWord_op] at h
  rw [decode, decodeFields, Opcode.ofBits_eq_none_of_unassigned _ h]

/-! ### The word of an instruction as a number (R70) -/

theorem BitVec.toNat_append_eq_add {m n : Nat} (x : BitVec m) (y : BitVec n) :
    (x ++ y).toNat = x.toNat * 2 ^ n + y.toNat := by
  rw [BitVec.toNat_append, ← Nat.shiftLeft_add_eq_or_of_lt y.isLt, Nat.shiftLeft_eq]

/-- The fields of a word as the digits of its number. -/
def CommandFields.number (f : CommandFields) : Nat :=
  f.op.toNat * 0x8000000 + f.s.toNat * 0x4000000 + f.n.toNat * 0x2000000 + f.l.toNat * 0x1000000 +
    f.rsv.toNat * 0x800000 + f.a.toNat * 0x10000 + f.imm.toNat

theorem CommandFields.toWord_eq_ofNat (f : CommandFields) : f.toWord = BitVec.ofNat 32 f.number := by
  apply BitVec.eq_of_toNat_eq
  rw [BitVec.toNat_ofNat, ← Nat.mod_eq_of_lt f.toWord.isLt]
  congr 1
  simp only [CommandFields.toWord, BitVec.toNat_append_eq_add, CommandFields.number]
  ring

end Sys2Proof

namespace Sys2Proof.Machine

/-! ### The assembler (R81, R82) -/

/-- The move that issues the word of a number. -/
def issueWord (n : Nat) : HostMove := .issue (BitVec.ofNat 32 n)

theorem issueOf_eq {i : Instr} {n : Nat} (h : i.fields.number = n) : issueOf i = issueWord n := by
  rw [issueOf, encode, CommandFields.toWord_eq_ofNat, h, issueWord]

theorem toNat_asmAddr {a : Nat} (h : a ≤ 127) : (asmAddr a).toNat = a := by
  rw [asmAddr, BitVec.toNat_ofNat, Nat.mod_eq_of_lt (by omega)]

theorem toNat_asmSub {sub : Nat} (h : sub ≤ 0xFFFF) : (asmSub sub).toNat = sub := by
  rw [asmSub, BitVec.toNat_ofNat, Nat.mod_eq_of_lt (by omega)]

/-- A line is assembled exactly when its operands are in range. -/
theorem assemble_eq_ite {line : Asm} {moves : List HostMove} {p : Prop} [Decidable p]
    (range : line.wellFormed = true ↔ p) (inRange : p → movesOf line = moves) :
    assemble line = if p then some moves else none := by
  unfold assemble
  by_cases hp : p
  · rw [if_pos (range.mpr hp), if_pos hp, inRange hp]
  · rw [if_neg (mt range.mp hp), if_neg hp]

theorem addrInRange_iff {a : Nat} : Asm.addrInRange a = true ↔ a ≤ 127 := decide_eq_true_iff

theorem subInRange_iff {sub : Nat} : Asm.subInRange sub = true ↔ sub ≤ 0xFFFF := decide_eq_true_iff

theorem byteInRange_iff {v : Nat} : Asm.byteInRange v = true ↔ v ≤ 0xFF := decide_eq_true_iff

theorem wordInRange_iff {n : Nat} : Asm.wordInRange n = true ↔ n ≤ 0xFFFFFFFF := decide_eq_true_iff

/-- The fields of an operation with an address and a sub-address, as a number (R70, R72, R73). -/
theorem number_addressed (o : Opcode) (a : Addr) (sub : SubAddr) :
    CommandFields.number { o.bareFields with a := a, imm := sub } =
      o.bits.toNat * 0x8000000 + a.toNat * 65536 + sub.toNat := by
  simp [CommandFields.number, Opcode.bareFields]

/-- A line that issues a command with a target address. -/
theorem assemble_addressed {line : Asm} {a n : Nat} (i : Addr → Instr) (range : line.wellFormed = Asm.addrInRange a)
    (moves : movesOf line = [issueOf (i (asmAddr a))]) (number : ∀ x, (i x).fields.number = n + x.toNat * 65536) :
    assemble line = if a ≤ 127 then some [issueWord (n + a * 65536)] else none :=
  assemble_eq_ite (by rw [range, addrInRange_iff]) fun h => by
    rw [moves, issueOf_eq (number _), toNat_asmAddr h]

/-- The move of a command with a target address and a sub-address. -/
theorem issueOf_subAddressed {a sub n : Nat} (i : Addr → SubAddr → Instr)
    (number : ∀ x u, (i x u).fields.number = n + x.toNat * 65536 + u.toNat) (ha : a ≤ 127) (hs : sub ≤ 0xFFFF) :
    issueOf (i (asmAddr a) (asmSub sub)) = issueWord (n + a * 65536 + sub) := by
  rw [issueOf_eq (number _ _), toNat_asmAddr ha, toNat_asmSub hs]

/-- A line that issues a command with a target address and a sub-address. -/
theorem assemble_subAddressed {line : Asm} {a sub n : Nat} (i : Addr → SubAddr → Instr)
    (range : line.wellFormed = (Asm.addrInRange a && Asm.subInRange sub))
    (moves : movesOf line = [issueOf (i (asmAddr a) (asmSub sub))])
    (number : ∀ x u, (i x u).fields.number = n + x.toNat * 65536 + u.toNat) :
    assemble line = if a ≤ 127 ∧ sub ≤ 0xFFFF then some [issueWord (n + a * 65536 + sub)] else none :=
  assemble_eq_ite (by rw [range, Bool.and_eq_true, addrInRange_iff, subInRange_iff]) fun ⟨ha, hs⟩ => by
    rw [moves, issueOf_subAddressed i number ha hs]

theorem number_write (sendStop : Bool) (a : Addr) : (Instr.write sendStop a).fields.number =
    (if sendStop then 0x24000000 else 0x20000000) + a.toNat * 65536 := by
  cases sendStop <;> simp [CommandFields.number, Instr.fields, Opcode.bareFields, Opcode.bits]

theorem assemble_writeByte (v : Nat) :
    assemble (.writeByte v) = if v ≤ 0xFF then some [issueWord (0x90000000 + v)] else none := by
  refine assemble_eq_ite byteInRange_iff fun h => ?_
  have number : (Instr.writeByte (BitVec.ofNat 8 v)).fields.number = 0x90000000 + v := by
    have small : v % 256 % 65536 = v := by omega
    simpa [CommandFields.number, Instr.fields, Opcode.bareFields, Opcode.bits] using small
  rw [movesOf, issueOf_eq number]

theorem assemble_writeReg (a sub v : Nat) : assemble (.writeReg a sub v) =
    if a ≤ 127 ∧ sub ≤ 0xFFFF ∧ v ≤ 0xFF then
      some [.access (.writeLen 1), .access (.writeDbuf 0 (BitVec.ofNat 8 v)),
        issueWord (0x30000000 + a * 65536 + sub)]
    else none := by
  refine assemble_eq_ite ?range fun ⟨ha, hs, _⟩ => ?moves
  case range =>
    rw [Asm.wellFormed, Bool.and_eq_true, Bool.and_eq_true, addrInRange_iff, subInRange_iff, byteInRange_iff, and_assoc]
  case moves =>
    rw [movesOf, issueOf_subAddressed .writeMem (number_addressed .writeMem) ha hs]
    rfl

theorem assemble_arg (bus : Nat) (scl sda : PinId) (baud : Int) : assemble (.arg bus scl sda baud) =
    if bus ≤ 0xFFFFFFFF ∧ -2147483648 ≤ baud ∧ baud ≤ 2147483647 then
      some [.access (.writeArgBus (BitVec.ofNat 32 bus)), .access (.writeArgScl scl), .access (.writeArgSda sda),
        .access (.writeArgBaud (BitVec.ofInt 32 baud))]
    else none := by
  refine assemble_eq_ite ?_ fun _ => rfl
  rw [Asm.wellFormed, Bool.and_eq_true, wordInRange_iff, Asm.baudInRange, Bool.and_eq_true, decide_eq_true_iff,
    decide_eq_true_iff]

theorem dataMoves_eq_mapIdx (i : Nat) (bytes : List Nat) :
    dataMoves i bytes = bytes.mapIdx fun j v => .access (.writeDbuf (i + j) (BitVec.ofNat 8 v)) := by
  induction bytes generalizing i with
  | nil => rfl
  | cons v vs ih => simp [dataMoves, ih, List.mapIdx_cons, Nat.add_assoc, Nat.add_comm 1]

theorem assemble_data (bytes : List Nat) : assemble (.data bytes) = if ∀ v ∈ bytes, v ≤ 0xFF then
    some (bytes.mapIdx fun j v => .access (.writeDbuf j (BitVec.ofNat 8 v))) else none := by
  refine assemble_eq_ite ?range fun _ => ?moves
  case range => simp only [Asm.wellFormed, List.all_eq_true, byteInRange_iff]
  case moves => simp only [movesOf, dataMoves_eq_mapIdx, Nat.zero_add]

/-- Settles O7: a line without operands has one word; every other one is assembled when its operands are in range, and
its word is the sum of its fields. -/
theorem assemblerRefusesOperandsOutOfRange : Obligations.AssemblerRefusesOperandsOutOfRange := by
  unfold Obligations.AssemblerRefusesOperandsOutOfRange
  have write (a : Nat) := assemble_addressed (line := .write a) (.write true) rfl rfl (number_write true)
  have writeNostop (a : Nat) := assemble_addressed (line := .writeNostop a) (.write false) rfl rfl (number_write false)
  have read (a : Nat) := assemble_addressed (line := .read a) .read rfl rfl fun x => number_addressed .read x 0
  have ping (a : Nat) := assemble_addressed (line := .ping a) .ping rfl rfl fun x => number_addressed .ping x 0
  have writeMem (a u : Nat) :=
    assemble_subAddressed (line := .writeMem a u) .writeMem rfl rfl (number_addressed .writeMem)
  have readMem (a u : Nat) := assemble_subAddressed (line := .readMem a u) .readMem rfl rfl (number_addressed .readMem)
  exact ⟨rfl, rfl, rfl, write, writeNostop, read, writeMem, readMem, ping, rfl, rfl, assemble_writeByte, rfl, rfl, rfl,
    rfl, rfl, rfl, rfl, rfl, rfl, writeNostop, rfl, rfl, rfl, ping, rfl, rfl, rfl, rfl, assemble_writeReg, assemble_arg,
    fun n => assemble_eq_ite wordInRange_iff fun _ => rfl, assemble_data⟩

end Sys2Proof.Machine

/-! PROOFS. The host's moves and reads (R44), and what reset leaves (R230). -/

namespace Sys2Proof.Machine

/-! ### Moves that stop (R78, R240) -/

theorem step_illegal {s : State} {w : Word} {rest : List HostMove} {e : Illegal} (h : s.hostQ = .issue w :: rest)
    (hb : s.busy = false) (hd : decode w = .error e) : step s = .refused (.illegalWord e) := by
  simp [step, fetch, h, hb, hd]

theorem step_busy {s : State} {m : HostMove} {rest : List HostMove} (hb : s.busy = true) (h : s.hostQ = m :: rest) :
    step s = .refused .busy := by simp [step, fetch, h, hb]

/-- Settles O6: no operation has one of these OP values, and the host's move stops at the error. -/
theorem illegalWordIsRefused : Obligations.IllegalWordIsRefused := by
  unfold Obligations.IllegalWordIsRefused
  exact ⟨fun w => decode_of_unassigned, fun s w rest e => step_illegal⟩

/-- Settles O8: the state in which a command runs is the one that `issue` leaves. -/
theorem stepRunsTheDecodedCommand : Obligations.StepRunsTheDecodedCommand := by
  unfold Obligations.StepRunsTheDecodedCommand
  exact fun s w i rest hq hb hd => step_issue hq hb hd

/-- Settles O11: while BUSY is 1 a move is not taken. -/
theorem hostHasNoMoveWhileBusy : Obligations.HostHasNoMoveWhileBusy := by
  unfold Obligations.HostHasNoMoveWhileBusy
  exact fun s m rest => step_busy

/-! ### Accesses (R44) -/

theorem hostAccess_of_indexExists {a : HostAccess} {s : State} (h : indexExists s a = true) :
    hostAccess a s = hostEffect s a := if_pos h

theorem hostAccess_fault {a : HostAccess} {s : State} (h : indexExists s a = false) :
    hostAccess a s = .fault .dbufIndex := if_neg (by rw [h]; exact Bool.false_ne_true)

/-- An access that names no byte of DBUF, or one below BUF_MAX. -/
theorem indexExists_of_forall {a : HostAccess} {s : State} (h : ∀ j, accessIndex a = some j → j < bufMax s.par) :
    indexExists s a = true := by
  unfold indexExists
  split
  · exact decide_eq_true (h _ ‹_›)
  · rfl

theorem indexExists_eq_false {a : HostAccess} {s : State} {j : Nat} (ha : accessIndex a = some j)
    (h : bufMax s.par ≤ j) : indexExists s a = false := by
  rw [indexExists, ha]
  exact decide_eq_false (Nat.not_lt.mpr h)

theorem step_access_eq_effect {s : State} {a : HostAccess} {rest : List HostMove} (hq : s.hostQ = .access a :: rest)
    (hb : s.busy = false) (h : ∀ j, accessIndex a = some j → j < bufMax s.par) :
    step s = hostEffect { s with hostQ := rest } a :=
  (step_access hq hb).trans (hostAccess_of_indexExists (indexExists_of_forall h))

theorem step_access_fault {s : State} {a : HostAccess} {rest : List HostMove} {j : Nat}
    (hq : s.hostQ = .access a :: rest) (hb : s.busy = false) (ha : accessIndex a = some j) (h : bufMax s.par ≤ j) :
    step s = .fault .dbufIndex :=
  (step_access hq hb).trans (hostAccess_fault (indexExists_eq_false ha h))

/-- Settles O10: an index at BUF_MAX or above does not exist. -/
theorem dbufAccessPastTheEndFaults : Obligations.DbufAccessPastTheEndFaults := by
  unfold Obligations.DbufAccessPastTheEndFaults
  exact fun s rest j hb hj => ⟨fun v hq => step_access_fault hq hb rfl hj, fun hq => step_access_fault hq hb rfl hj⟩

theorem dbufRead_dbufWrite (s : State) (j k : Nat) (v : Byte) :
    dbufRead k (dbufWrite j v s) = if k = j then some v else dbufRead k s := Memory.read_write j k v s.dbuf

/-- Settles O13: the law of reading after a store. -/
theorem dbufByteWrittenReadsBack : Obligations.DbufByteWrittenReadsBack := by
  unfold Obligations.DbufByteWrittenReadsBack
  exact dbufRead_dbufWrite

theorem hostReads_of_some {r : HostReg} {s : State} {v : Nat} (h : hostRead r s = some v) :
    hostReads r s = .next { s with hostSaw := { reg := r, value := v } :: s.hostSaw } := by rw [hostReads, h]

theorem hostReads_of_none {r : HostReg} {s : State} (h : hostRead r s = none) :
    hostReads r s = .refused .noValue := by rw [hostReads, h]

/-- A read of a register, or of a byte of DBUF below BUF_MAX, has an index that exists. -/
theorem accessIndex_read_lt {r : HostReg} {n : Nat} (h : ∀ j, r = .dbuf j → j < n) :
    ∀ j, accessIndex (.read r) = some j → j < n := by
  intro j hj
  cases r with
  | dbuf i =>
    obtain rfl := Option.some.inj hj
    exact h i rfl
  | _ => cases hj

/-- Settles O9: an access whose index exists is `hostEffect`, case by case. -/
theorem hostAccessStoresOnlyItsValue : Obligations.HostAccessStoresOnlyItsValue := by
  unfold Obligations.HostAccessStoresOnlyItsValue
  refine fun s rest hb => ⟨step_idle, fun v hq => step_access_eq_effect hq hb nofun,
    fun v hq => step_access_eq_effect hq hb nofun, fun v hq => step_access_eq_effect hq hb nofun,
    fun v hq => step_access_eq_effect hq hb nofun, fun v hq => step_access_eq_effect hq hb nofun,
    fun j v hq hj => ?store, fun r v hq hj hr => ?read⟩
  case store =>
    refine ⟨dbufWrite j v { s with hostQ := rest }, step_access_eq_effect hq hb ?_, rfl,
      fun k => dbufRead_dbufWrite { s with hostQ := rest } j k v⟩
    rintro _ ⟨⟩
    exact hj
  case read =>
    rw [step_access_eq_effect hq hb (accessIndex_read_lt hj)]
    have seen : hostRead r { s with hostQ := rest } = some v := by
      rw [← hr]
      cases r <;> rfl
    exact hostReads_of_some seen

/-! ### What a read gives (R23 to R37, R200) -/

theorem toNat_code_drive (d : Drive) : d.code.toNat = if d = .released then 1 else 0 := by cases d <;> rfl

theorem toNat_code_cfgState (c : CfgState) : c.code.toNat = if c = .configured then 1 else 0 := by cases c <;> rfl

theorem hostRead_resStatus (s : State) : hostRead .resStatus s = some (match s.res.status with
    | .ok => 0 | .invalidArgument => 1 | .busError => 2 | .resourceUnavailable => 3) := by
  rw [hostRead]
  cases s.res.status <;> rfl

/-- Settles O14: each register's number is what `hostRead` gives; those of the coded ones are listed. -/
theorem hostReadsGiveTheRegisters : Obligations.HostReadsGiveTheRegisters := by
  unfold Obligations.HostReadsGiveTheRegisters
  exact fun s => ⟨congrArg some (toNat_code_drive _), congrArg some (toNat_code_drive _),
    congrArg some (toNat_code_cfgState _), rfl, rfl, rfl, hostRead_resStatus s, rfl, rfl, rfl, rfl, rfl, fun _ => rfl,
    rfl, rfl, rfl, rfl, fun _ => rfl⟩

/-! ### Reset (R230) -/

theorem quiet_resetWith (p : Params) : (State.resetWith p).Quiet := ⟨rfl, rfl, rfl, rfl⟩

theorem dbufRead_resetWith (p : Params) (j : Nat) : dbufRead j (State.resetWith p) = none := rfl

/-- Only a byte of DBUF can hold no value. -/
theorem exists_hostRead {r : HostReg} (h : ∀ j, r ≠ .dbuf j) (s : State) : ∃ v, hostRead r s = some v := by
  cases r with
  | dbuf j => exact absurd rfl (h j)
  | _ => exact ⟨_, rfl⟩

/-- Settles O16: the fields of `State.resetWith`. -/
theorem resetLeavesTheBlockUnconfigured : Obligations.ResetLeavesTheBlockUnconfigured := by
  unfold Obligations.ResetLeavesTheBlockUnconfigured
  exact fun p => ⟨rfl, rfl, rfl, rfl, rfl, quiet_resetWith p, rfl, dbufRead_resetWith p, rfl⟩

/-- Settles O12: right after reset no byte of DBUF holds a value, and every register holds a number. -/
theorem hostReadsRightAfterReset : Obligations.HostReadsRightAfterReset := by
  unfold Obligations.HostReadsRightAfterReset
  refine fun p rest => ⟨fun j hj => ⟨rfl, ?byte⟩, fun r hr => ?register, rfl, rfl, rfl, rfl, rfl, rfl⟩
  case byte =>
    rw [step_access_eq_effect rfl rfl (accessIndex_read_lt fun i hi => HostReg.dbuf.inj hi ▸ hj)]
    exact hostReads_of_none (r := .dbuf j) (s := { State.resetWith p with hostQ := rest }) rfl
  case register =>
    obtain ⟨v, seen⟩ := exists_hostRead hr { State.resetWith p with hostQ := rest }
    refine ⟨v, ?_, ?_⟩
    · rw [← seen]
      cases r <;> rfl
    · rw [step_access_eq_effect rfl rfl (accessIndex_read_lt fun j hj => absurd hj (hr j))]
      exact hostReads_of_some seen

theorem inv_resetWith (p : Params) : (State.resetWith p).Inv :=
  ⟨quiet_resetWith p, .nil, nofun, nofun, nofun, nofun, fun _ => ⟨rfl, rfl, rfl, rfl⟩, Nat.zero_le _⟩

/-- Settles O49: right after reset the block is quiet and UNCONFIGURED, DBUF is empty and no address is listed. -/
theorem resetHasTheInvariant : Obligations.ResetHasTheInvariant := by
  unfold Obligations.ResetHasTheInvariant
  exact ⟨inv_resetWith Config.params, inv_resetWith⟩

/-! ### Many blocks (R66) -/

/-- A step of block k of a system is the block's own step, the result put in its place. -/
theorem stepAt_next_iff {n : Nat} {k : Fin n} {y z : System n} :
    System.stepAt k y = .next z ↔ ∃ t, step y[k] = .next t ∧ z = y.set k t := by
  unfold System.stepAt
  cases step y[k] <;> simp [eq_comm]

/-- Settles O60: a step of block k sets the entry of k and no other. -/
theorem instancesShareNoState : Obligations.InstancesShareNoState := by
  unfold Obligations.InstancesShareNoState
  intro n k y
  have own (t : State) : (y.set k t)[k] = t := by simp
  have others (t : State) (j : Fin n) (hj : j ≠ k) : (y.set k t)[j] = y[j] := by
    simp [Fin.val_ne_of_ne hj.symm]
  refine ⟨fun t ht => ⟨_, stepAt_next_iff.mpr ⟨t, ht, rfl⟩, own t, others t⟩, fun z hz => ?_⟩
  obtain ⟨t, ht, rfl⟩ := stepAt_next_iff.mp hz
  exact ⟨by rw [ht, own], others t⟩

end Sys2Proof.Machine

/-! PROOFS. Which commands are refused, and how: it depends on the state but not on the bus environment (R30, R42, R43,
R126, R204, R205). -/

namespace Sys2Proof.Machine

/-! ### The refusal of a command -/

/-- An outcome is the refusal r, or a next state where there is none. -/
inductive Decided : Option Refusal → Host.Outcome State Fault Refusal → Prop where
  | refused (r : Refusal) : Decided (some r) (.refused r)
  | next (t : State) : Decided none (.next t)

section
variable {r : Option Refusal} {o : Host.Outcome State Fault Refusal} (h : Decided r o)
include h

theorem Decided.refused_iff {q : Refusal} : o = .refused q ↔ r = some q := by cases h <;> simp

theorem Decided.runs_iff : (∃ t, o = .next t) ↔ r = none := by cases h <;> simp

theorem Decided.ne_fault (f : Fault) : o ≠ .fault f := by cases h <;> nofun

end

theorem Decided.ifAdmitted {s : State} {r : Option Refusal} {k : State → Host.Outcome State Fault Refusal}
    (h : Decided r (k s)) : Decided (if admitted s then r else some .notAdmitted) (Machine.ifAdmitted s k) := by
  unfold Machine.ifAdmitted
  split
  · exact h
  · exact .refused _

theorem Decided.withLen {s : State} {r : Option Refusal} {k : State → Host.Outcome State Fault Refusal}
    (h : Decided r (k s)) : Decided (if lenFits s then r else some .lenTooLarge) (Machine.withLen s k) := by
  unfold Machine.withLen
  split
  · exact h
  · exact .refused _

theorem Decided.withPayload {s : State} {k : List Byte → State → Host.Outcome State Fault Refusal}
    (h : ∀ bytes, Decided none (k bytes s)) :
    Decided (if (payload s).isSome then none else some .noValue) (Machine.withPayload s k) := by
  unfold Machine.withPayload
  cases payload s with
  | some bytes => exact h bytes
  | none => exact .refused _

/-- The refusal of a command in a state, if it is refused there (R204). -/
def refusalOf (i : Instr) (s : State) : Option Refusal :=
  match i with
  | .init => if selectsHardware s then some .hardwarePath else none
  | .deinit => none
  | .write _ _ | .writeMem _ _ =>
    if admitted s then
      if lenFits s then if (payload s).isSome then none else some .noValue
      else some .lenTooLarge
    else some .notAdmitted
  | .read _ | .readMem _ _ =>
    if admitted s then if lenFits s then none else some .lenTooLarge else some .notAdmitted
  | .scan | .ping _ | .start | .stop | .writeByte _ | .readByte _ | .driveLow _ | .release _ | .readLine _ | .delay =>
    if admitted s then none else some .notAdmitted

/-- A command runs or is refused, as `refusalOf` says. -/
theorem exec_decided (i : Instr) (s : State) : Decided (refusalOf i s) (exec i s) := by
  cases i with
  | init =>
    rw [exec_init_eq, refusalOf]
    split
    · exact .refused _
    · exact .next _
  | deinit => exact .next _
  | write | writeMem =>
    simp only [refusalOf, exec, execWrite, execWriteMem]
    refine Decided.ifAdmitted ?_
    refine Decided.withLen ?_
    exact Decided.withPayload fun _ => .next _
  | read | readMem =>
    simp only [refusalOf, exec, execRead, execReadMem]
    refine Decided.ifAdmitted ?_
    refine Decided.withLen ?_
    split <;> exact .next _
  | scan | ping | start | stop | writeByte | readByte | driveLow | release | readLine | delay =>
    simp only [refusalOf, exec, execScan, execPing, execStart, execStop, execWriteByte, execReadByte, execDriveLow,
      execRelease, execReadLine, execDelay]
    refine Decided.ifAdmitted ?_
    exact .next _

/-- The bus environment has no part in a refusal (R205). -/
theorem refusalOf_draws (i : Instr) (s : State) (d : Draws) : refusalOf i { s with draws := d } = refusalOf i s := by
  cases i <;> rfl

/-- Settles O27: `refusalOf` says whether a command runs and how it is refused, and reads no answer. -/
theorem environmentCannotStopACommand : Obligations.EnvironmentCannotStopACommand := by
  unfold Obligations.EnvironmentCannotStopACommand
  intro i s d
  have decided := exec_decided i s
  have decidedOther := exec_decided i { s with draws := d }
  rw [refusalOf_draws] at decidedOther
  exact ⟨fun runs => decidedOther.runs_iff.mpr (decided.runs_iff.mp runs),
    fun r refused => decidedOther.refused_iff.mpr (decided.refused_iff.mp refused), decided.ne_fault⟩

/-! ### The buffer of a data command (R30, R43) -/

theorem lenFits_eq_false {s : State} (h : bufMax s.par < s.len.toNat) : lenFits s = false :=
  decide_eq_false (Nat.not_le.mpr h)

theorem isSome_payload_eq_false {s : State} {j : Nat} (hj : j < s.len.toNat) (h : dbufRead j s = none) :
    (payload s).isSome = false := by
  rw [payload_eq_none.mpr ⟨j, hj, h⟩, Option.isSome_none]

/-- Settles O25: in an admitted state `refusalOf` asks for LEN first and then for the payload. -/
theorem dataCommandNeedsItsBuffer : Obligations.DataCommandNeedsItsBuffer := by
  unfold Obligations.DataCommandNeedsItsBuffer
  simp only [(exec_decided _ _).refused_iff]
  refine fun a sub stop s ha => ⟨fun long => ?tooLong, fun j hfit hj hnone => ?noValue⟩
  case tooLong => simp [refusalOf, ha, lenFits_eq_false long]
  case noValue => simp [refusalOf, ha, lenFits_of_le hfit, isSome_payload_eq_false hj hnone]

end Sys2Proof.Machine

/-! PROOFS. The four sequences of the transfer engine: the lines they leave, their counts and their edges (R125, R131);
the address byte (R140). -/

namespace Sys2Proof.Machine

/-! ### What a sequence leaves -/

/-- From s to t one symbol has gone on the bus, and these lines and BUS_OPEN are left. -/
structure PutsSymbol (b : ByteEvent) (scl sda : Drive) (isOpen : Bool) (s t : State) : Prop where
  events  : eventsOf t = eventsOf s ++ b.events s.cfg.halfPeriod
  scl     : t.drvScl = scl
  sda     : t.drvSda = sda
  busOpen : t.busOpen = isOpen

theorem startSeq_putsSymbol (s : State) : PutsSymbol .start .released .low true s (startSeq s) := by
  rw [startSeq_eq]
  exact ⟨eventsOf_effect _ s, rfl, rfl, rfl⟩

theorem stopSeq_putsSymbol (s : State) : PutsSymbol .stop .released .released false s (stopSeq s) := by
  rw [stopSeq_eq]
  exact ⟨eventsOf_effect _ s, rfl, rfl, rfl⟩

theorem writeByteSeq_putsSymbol (v : Byte) (s : State) :
    PutsSymbol (.wrote v (ackAt s 0)) .low .released s.busOpen s (writeByteSeq v s).2 := by
  rw [writeByteSeq_eq]
  exact ⟨eventsOf_effect _ s, rfl, rfl, rfl⟩

theorem readByteSeq_putsSymbol (nack : Bool) (s : State) :
    PutsSymbol (.got (heardByte s) (!nack)) .low .released s.busOpen s (readByteSeq nack s).2 := by
  rw [readByteSeq_eq]
  exact ⟨eventsOf_effect _ s, rfl, rfl, rfl⟩

/-! ### Brackets and WAITs (R131) -/

theorem PutsSymbol.counted {b : ByteEvent} {scl sda : Drive} {isOpen : Bool} {s t : State}
    (put : PutsSymbol b scl sda isOpen s t) : t.drvScl = scl ∧ t.drvSda = sda ∧ t.busOpen = isOpen ∧
      ∃ es, eventsOf t = eventsOf s ++ es ∧ bracketCount es = b.brackets ∧ waitCount es = b.waits :=
  ⟨put.scl, put.sda, put.busOpen, _, put.events, b.bracketCount_events _, b.waitCount_events _⟩

/-- Settles O37: each sequence is one symbol, whose brackets and WAITs are counted. -/
theorem sequencesLeaveTheirLineState : Obligations.SequencesLeaveTheirLineState := by
  unfold Obligations.SequencesLeaveTheirLineState
  exact fun s v nack => ⟨(startSeq_putsSymbol s).counted, (stopSeq_putsSymbol s).counted,
    (writeByteSeq_putsSymbol v s).counted, (readByteSeq_putsSymbol nack s).counted⟩

/-! ### Edges (R125) -/

section
variable {scl sda : Drive} {isOpen : Bool} {s t : State} {l : LineState} (hl : lineState s = some l)
include hl

/-- IDLE is the clean line state with both lines released. -/
theorem idle_iff_of_lineState : (s.drvScl = .released ∧ s.drvSda = .released) ↔ l = .idle := by
  obtain ⟨rfl, hscl, hsda, -⟩ | ⟨rfl, hscl, hsda, -⟩ | ⟨rfl, hscl, hsda, -⟩ := lineState_eq_some hl <;>
    simp [hscl, hsda]

/-- IDLE is the clean line state with the bus closed. -/
theorem busOpen_of_ne_idle (hne : l ≠ .idle) : s.busOpen = true := by
  obtain ⟨rfl, -⟩ | ⟨-, -, -, isOpen⟩ | ⟨-, -, -, isOpen⟩ := lineState_eq_some hl
  · contradiction
  · exact isOpen
  · exact isOpen

theorem drvSda_of_started (h : l = .started) : s.drvSda = .low := ((started_iff_of_lineState hl).mpr h).2

theorem PutsSymbol.edges_start (put : PutsSymbol .start scl sda isOpen s t) :
    ∃ es, eventsOf t = eventsOf s ++ es ∧
      clockHighEdges s.drvScl s.drvSda es = if l = .started then [.stop, .start] else [.start] := by
  refine ⟨_, put.events, ?_⟩
  rw [ByteEvent.events, (Machine.edges_start _ _ _).1]
  simp only [started_iff_of_lineState hl]

theorem PutsSymbol.edges_stop (put : PutsSymbol .stop scl sda isOpen s t) :
    ∃ es, eventsOf t = eventsOf s ++ es ∧
      clockHighEdges s.drvScl s.drvSda es = if l = .idle then [.start, .stop] else [.stop] := by
  refine ⟨_, put.events, ?_⟩
  rw [ByteEvent.events, (Machine.edges_stop _ _ _).1]
  simp only [idle_iff_of_lineState hl]

/-- The lines after a byte are HELD's, and BUS_OPEN is as before (R131; log 37). -/
theorem PutsSymbol.held_after_byte {b : ByteEvent} (put : PutsSymbol b .low .released s.busOpen s t) :
    lineState (setBusOpen true t) = some .held ∧ (l ≠ .idle → lineState t = some .held) := by
  refine ⟨?_, fun hne => ?_⟩
  · rw [lineState, setBusOpen_drvScl, setBusOpen_drvSda, setBusOpen_busOpen, put.scl, put.sda]
  · rw [lineState, put.scl, put.sda, put.busOpen, busOpen_of_ne_idle hl hne]

end

theorem PutsSymbol.edges_byte {b : ByteEvent} (hb : b.isByte = true) {scl sda : Drive} {isOpen : Bool} {s t : State}
    (put : PutsSymbol b scl sda isOpen s t) :
    ∃ es, eventsOf t = eventsOf s ++ es ∧ clockHighEdges s.drvScl s.drvSda es = [] := by
  refine ⟨_, put.events, ?_⟩
  rw [← byteTraceEvents_singleton]
  exact (edges_bytes _ _ _ (by simp [hb])).1

/-- Settles O38: each sequence is one symbol, whose edges depend on the lines it begins with. -/
theorem sequencesKeepThePhysicalContract : Obligations.SequencesKeepThePhysicalContract := by
  unfold Obligations.SequencesKeepThePhysicalContract
  intro s v nack l hl
  have start := startSeq_putsSymbol s
  have stop := stopSeq_putsSymbol s
  have wrote := writeByteSeq_putsSymbol v s
  have got := readByteSeq_putsSymbol nack s
  obtain ⟨wroteHeld, wroteOpen⟩ := wrote.held_after_byte hl
  obtain ⟨gotHeld, gotOpen⟩ := got.held_after_byte hl
  refine ⟨⟨?started, start.edges_start hl⟩, ⟨?idle, stop.edges_stop hl⟩, ⟨wroteHeld, wroteOpen, wrote.edges_byte rfl⟩,
    gotHeld, gotOpen, fun started => ?zero, got.edges_byte rfl⟩
  case started => rw [lineState, start.scl, start.sda, start.busOpen]
  case idle => rw [lineState, stop.scl, stop.sda, stop.busOpen]
  case zero => rw [readByteSeq_eq, heardByte_low (drvSda_of_started hl started)]

/-! ### The address byte (R140) -/

/-- The address byte has the direction in bit 0 and the address above it. -/
theorem toNat_addrByte (a : Addr) (rw : BitVec 1) : (addrByte a rw).toNat = 2 * a.toNat + rw.toNat := by
  have ha := a.isLt
  have hrw := rw.isLt
  have shifted : (a.setWidth 8 <<< 1).toNat = a.toNat <<< 1 := by
    simp only [BitVec.toNat_shiftLeft, BitVec.toNat_setWidth, Nat.shiftLeft_eq]
    omega
  rw [addrByte, BitVec.toNat_or, shifted, BitVec.toNat_setWidth_of_le (by decide),
    ← Nat.shiftLeft_add_eq_or_of_lt (by omega), Nat.shiftLeft_eq]
  omega

/-- Settles O39: the address byte as a number, at the two direction bits. -/
theorem addressByteIsAddressAndDirection : Obligations.AddressByteIsAddressAndDirection := by
  unfold Obligations.AddressByteIsAddressAndDirection
  exact ⟨fun a => ⟨toNat_addrByte a rwWrite, toNat_addrByte a rwRead⟩, rfl, rfl, rfl⟩

end Sys2Proof.Machine

/-! PROOFS. The end of a command: the marks and the status it leaves, and what is left of the bus and of DBUF (R33 to
R37, R50, R142, R200 to R206). -/

namespace Sys2Proof.Machine

/-! ### Marks (R43) -/

@[simp] theorem emptyRead_held (s : State) :
    (emptyRead s).held = { s.held with count := true, status := true } := rfl

/-- Settles O15: `exec_next` names every state a command can end in, and its marks are read off the field lemmas of the
operations that built it. -/
theorem commandsMarkWhatTheyWrite : Obligations.CommandsMarkWhatTheyWrite := by
  unfold Obligations.CommandsMarkWhatTheyWrite
  refine fun i s t h => ⟨?_, hostRead_resStatus t⟩
  have ends := exec_next h
  cases i with
  | init => obtain ⟨-, ⟨-, rfl⟩ | ⟨-, -, rfl⟩ | ⟨-, -, -, rfl⟩⟩ := ends <;> simp
  | deinit =>
    obtain rfl := ends
    simp
  | write | writeMem =>
    obtain ⟨-, -, bytes, p, w, -, rfl⟩ := ends
    simp
  | read => obtain ⟨-, -, ⟨-, -, rfl⟩ | ⟨-, p, w, rfl⟩⟩ := ends <;> simp
  | readMem => obtain ⟨-, -, ⟨-, rfl⟩ | ⟨-, p, w, rfl⟩⟩ := ends <;> simp
  | scan | ping | start | stop | writeByte | readByte | driveLow | release | readLine | delay =>
    obtain ⟨-, rfl⟩ := ends
    simp [driveLow, release, sample_held]

/-! ### Status (R200 to R203) -/

/-- Settles O50: no command that runs leaves one running. -/
theorem completedCommandLeavesTheBlockQuiet : Obligations.CompletedCommandLeavesTheBlockQuiet := by
  unfold Obligations.CompletedCommandLeavesTheBlockQuiet
  exact fun i s t => quiet_of_exec

/-- The commands that can raise BusError (R202). -/
def isDataCommand : Instr → Bool
  | .write _ _ | .read _ | .writeMem _ _ | .readMem _ _ => true
  | .init | .deinit | .scan | .ping _ | .start | .stop | .writeByte _ | .readByte _ | .driveLow _ | .release _
  | .readLine _ | .delay => false

/-- A data command ends OK or with BusError. -/
theorem status_of_data {i : Instr} (hi : isDataCommand i = true) {s t : State} (h : exec i s = .next t) :
    ∃ ok, t.res.status = statusOf ok := by
  have ends := exec_next h
  cases i
  case write | writeMem =>
    obtain ⟨-, -, bytes, p, w, -, rfl⟩ := ends
    exact ⟨_, (concluded_concludeWrite ..).status⟩
  case read =>
    obtain ⟨-, -, ⟨-, -, rfl⟩ | ⟨-, p, w, rfl⟩⟩ := ends
    · exact ⟨true, rfl⟩
    · exact ⟨_, (concluded_concludeRead ..).status⟩
  case readMem =>
    obtain ⟨-, -, ⟨-, rfl⟩ | ⟨-, p, w, rfl⟩⟩ := ends
    · exact ⟨true, rfl⟩
    · exact ⟨_, (concluded_concludeRead ..).status⟩
  all_goals cases hi

/-- A command that is neither INIT nor a data command ends OK. -/
theorem status_of_no_raiser {i : Instr} (hi : i ≠ .init) (hd : isDataCommand i = false) {s t : State}
    (h : exec i s = .next t) : t.res.status = .ok := by
  have ends := exec_next h
  cases i
  case init => contradiction
  case write | read | writeMem | readMem => cases hd
  case deinit =>
    obtain rfl := ends
    rfl
  all_goals
    obtain ⟨-, rfl⟩ := ends
    rfl

theorem status_of_init_ne_busError {s t : State} (h : exec .init s = .next t) : t.res.status ≠ .busError := by
  obtain ⟨-, ⟨-, rfl⟩ | ⟨-, -, rfl⟩ | ⟨-, -, -, rfl⟩⟩ := exec_next h <;> nofun

theorem isDataCommand_of_busError {i : Instr} {s t : State} (h : exec i s = .next t)
    (hbus : t.res.status = .busError) : isDataCommand i = true := by
  by_contra hd
  rw [Bool.not_eq_true] at hd
  by_cases hi : i = .init
  · subst hi
    exact status_of_init_ne_busError h hbus
  · rw [status_of_no_raiser hi hd h] at hbus
    cases hbus

/-- An error that is not BusError is an INIT's. -/
theorem eq_init_of_status {i : Instr} {s t : State} (h : exec i s = .next t) (hok : t.res.status ≠ .ok)
    (hbus : t.res.status ≠ .busError) : i = .init := by
  by_contra hi
  cases hd : isDataCommand i with
  | false => exact hok (status_of_no_raiser hi hd h)
  | true =>
    obtain ⟨ok, hstatus⟩ := status_of_data hd h
    cases ok
    · exact hbus hstatus
    · exact hok hstatus

/-- Settles O51: a data command ends OK or with BusError, INIT raises the other errors, and no other command raises
one. -/
theorem errorCodesHaveTheirRaisers : Obligations.ErrorCodesHaveTheirRaisers := by
  unfold Obligations.ErrorCodesHaveTheirRaisers
  refine fun i s t h => ⟨fun hbus => ?data, fun harg => ?argument, fun hres => ?resource⟩
  case data =>
    have hd := isDataCommand_of_busError h hbus
    cases i
    case write | read | writeMem | readMem => simp
    all_goals cases hd
  case argument => exact eq_init_of_status h (by simp [harg]) (by simp [harg])
  case resource => exact eq_init_of_status h (by simp [hres]) (by simp [hres])

/-! ### The bus after BusError (R142, R206) -/

/-- What is left of the bus when a command has closed it with a STOP and ended with BusError. -/
def ClosedBus (s t : State) : Prop :=
  t.busOpen = false ∧ t.drvScl = .released ∧ t.drvSda = .released ∧
    ∃ es, eventsOf t = eventsOf s ++ es ++ byteTraceEvents s.cfg.halfPeriod [.stop] ++ [.complete .busError]

/-- A transaction whose effect ends with a STOP, and which ends with BusError, closes the bus. -/
theorem Concluded.closedBus {ok : Bool} {e : Effect} {s t : State} (c : Concluded ok e s t)
    (h : t.res.status = .busError) (bs : List ByteEvent)
    (events : e.events = byteTraceEvents s.cfg.halfPeriod (bs ++ [.stop])) (busOpen : e.busOpen = false)
    (scl : e.scl = .released) (sda : e.sda = .released) : ClosedBus s t := by
  refine ⟨by rw [c.busOpen, busOpen], by rw [c.scl, scl], by rw [c.sda, sda], byteTraceEvents s.cfg.halfPeriod bs, ?_⟩
  rw [c.events, events, byteTraceEvents_append, ← List.append_assoc, ← c.status, h]

/-- A writing transaction that fails sends its STOP whether or not one was asked for. -/
theorem closedBus_concludeWrite {ok : Bool} {sent : List Byte} {sendStop : Bool} {p : Phase} {w : Work} {s : State}
    (hok : ok = acked s 0 sent.length)
    (h : (concludeWrite (ok, effect (writeEffect s sent sendStop p w) s)).res.status = .busError) :
    ClosedBus s (concludeWrite (ok, effect (writeEffect s sent sendStop p w) s)) := by
  have c := concluded_concludeWrite ok (writeEffect s sent sendStop p w) s
  have failed : acked s 0 sent.length = false := hok.symm.trans (statusOf_eq_busError_iff.mp (c.status.symm.trans h))
  exact c.closedBus h (.start :: sentTrace s 0 sent) (by simp [writeEffect, failed]) (by simp [writeEffect, failed])
    (by simp [writeEffect, failed]) rfl

/-- Settles O52: only a data command ends with BusError, and a transaction that fails ends with a STOP. -/
theorem busErrorLeavesTheBusClosed : Obligations.BusErrorLeavesTheBusClosed := by
  unfold Obligations.BusErrorLeavesTheBusClosed
  intro i s t h hbus
  have ends := exec_next h
  have hd := isDataCommand_of_busError h hbus
  cases i
  case write | writeMem =>
    obtain ⟨-, -, bytes, p, w, -, rfl⟩ := ends
    exact closedBus_concludeWrite rfl hbus
  case read a =>
    obtain ⟨-, -, ⟨-, -, rfl⟩ | ⟨-, p, w, rfl⟩⟩ := ends
    · exact absurd hbus (emptyRead_ne_busError s)
    · exact (concluded_concludeRead _ (readEffect s a p w) s).closedBus hbus (.start :: .wrote _ _ :: _) rfl rfl rfl rfl
  case readMem a sub =>
    obtain ⟨-, -, ⟨-, rfl⟩ | ⟨-, p, w, rfl⟩⟩ := ends
    · exact absurd hbus (emptyRead_ne_busError s)
    · exact (concluded_concludeRead _ (readMemEffect s a sub _ p w) s).closedBus hbus (.start :: (_ ++ _)) rfl rfl rfl
        rfl
  all_goals cases hd

/-! ### DBUF (R50, R154) -/

/-- A command other than READ and READ_MEM leaves DBUF as it was. -/
theorem dbuf_of_exec {i : Instr} (hr : ∀ a, i ≠ .read a) (hm : ∀ a u, i ≠ .readMem a u) {s t : State}
    (h : exec i s = .next t) : t.dbuf = s.dbuf := by
  have ends := exec_next h
  cases i with
  | read a => exact absurd rfl (hr a)
  | readMem a u => exact absurd rfl (hm a u)
  | init => obtain ⟨-, ⟨-, rfl⟩ | ⟨-, -, rfl⟩ | ⟨-, -, -, rfl⟩⟩ := ends <;> simp
  | deinit =>
    obtain rfl := ends
    simp
  | write | writeMem =>
    obtain ⟨-, -, bytes, p, w, -, rfl⟩ := ends
    exact concludeWrite_dbuf _
  | scan | ping | start | stop | writeByte | readByte | driveLow | release | readLine | delay =>
    obtain ⟨-, rfl⟩ := ends
    simp [driveLow, release, wait, micro, scanEffect, pingEffect, symbolEffect]

/-- No command writes DBUF at LEN or above. -/
theorem dbufRead_above_of_exec {i : Instr} {s t : State} (h : exec i s = .next t) {j : Nat}
    (hj : s.len.toNat ≤ j) : dbufRead j t = dbufRead j s := by
  cases i with
  | read a =>
    obtain ⟨-, -, ⟨-, -, rfl⟩ | ⟨-, p, w, rfl⟩⟩ := exec_next h
    · rfl
    · exact (bufferRead_concludeRead (k := 1) rfl).above j hj
  | readMem a sub =>
    obtain ⟨-, -, ⟨-, rfl⟩ | ⟨-, p, w, rfl⟩⟩ := exec_next h
    · rfl
    · exact (bufferRead_concludeRead (k := (subBytes sub).length + 1 + 1) rfl).above j hj
  | _ => exact dbufRead_congr (dbuf_of_exec (by simp) (by simp) h) j

/-- Settles O54: only the two reads write DBUF, and they write below LEN. -/
theorem onlyReadsWriteTheBuffer : Obligations.OnlyReadsWriteTheBuffer := by
  unfold Obligations.OnlyReadsWriteTheBuffer
  exact fun i s t h => ⟨fun hr hm => dbufRead_congr (dbuf_of_exec hr hm h), fun j => dbufRead_above_of_exec h⟩

end Sys2Proof.Machine

/-! PROOFS. What each command adds to the trace (R106, R109), and its WAITs and brackets (R247). -/

namespace Sys2Proof.Machine

/-! ### What a command records -/

/-- From s to t a command has recorded the events es, which leave no bracket open, and then its completion; if it ended
OK, n is how many WAITs and brackets are among es. -/
structure Recorded (es : List Event) (n : Nat × Nat) (s t : State) : Prop where
  trace     : t.trace = TraceEntry.mk s.cmd (.complete t.res.status) ::
    ((es.map (TraceEntry.mk s.cmd)).reverse ++ s.trace)
  bracketed : bracketed false es = true
  counts    : t.res.status = .ok → (waitCount es, bracketCount es) = n

theorem Recorded.eventsOf {es : List Event} {n : Nat × Nat} {s t : State} (r : Recorded es n s t) :
    eventsOf t = eventsOf s ++ es ++ [.complete t.res.status] := by
  simp [Machine.eventsOf, r.trace, List.map_reverse, Function.comp_def]

/-- A command that has recorded the events of a byte-level trace. -/
theorem Recorded.of_symbols {bs : List ByteEvent} {n : Nat × Nat} {s t : State}
    (trace : t.trace = TraceEntry.mk s.cmd (.complete t.res.status) ::
      (((byteTraceEvents s.cfg.halfPeriod bs).map (TraceEntry.mk s.cmd)).reverse ++ s.trace))
    (counts : t.res.status = .ok → ((bs.map ByteEvent.waits).sum, (bs.map ByteEvent.brackets).sum) = n) :
    Recorded (byteTraceEvents s.cfg.halfPeriod bs) n s t where
  trace := trace
  bracketed := bracketed_byteTrace _ bs
  counts hok := by rw [waitCount_byteTrace, bracketCount_byteTrace, counts hok]

theorem statusOf_eq_ok_iff {ok : Bool} : statusOf ok = .ok ↔ ok = true := by cases ok <;> decide

section
variable {ok : Bool} {e : Effect} {s : State} {bs : List ByteEvent} {n : Nat × Nat}
  (events : e.events = byteTraceEvents s.cfg.halfPeriod bs)
  (counts : ok = true → ((bs.map ByteEvent.waits).sum, (bs.map ByteEvent.brackets).sum) = n)
include events counts

theorem recorded_concludeWrite : ∃ es, Recorded es n s (concludeWrite (ok, effect e s)) :=
  ⟨_, .of_symbols (by simp [events]) fun h => counts (by simpa [statusOf_eq_ok_iff] using h)⟩

theorem recorded_concludeRead : ∃ es, Recorded es n s (concludeRead (ok, effect e s)) :=
  ⟨_, .of_symbols (by simp [events]) fun h => counts (by simpa [statusOf_eq_ok_iff] using h)⟩

end

/-- A writing transaction: a START, the n bytes sent, and the STOP if one was asked for. -/
theorem recorded_write (s : State) {sent : List Byte} {n : Nat} (hn : sent.length = n) (sendStop : Bool) (p : Phase)
    (w : Work) :
    ∃ es, Recorded es (3 + 19 * n + (if sendStop then 4 else 0), (if sendStop then 2 else 1) + 9 * n) s
      (concludeWrite (acked s 0 sent.length, effect (writeEffect s sent sendStop p w) s)) := by
  subst hn
  refine recorded_concludeWrite rfl fun allAcked => ?_
  obtain ⟨waits, brackets⟩ := counts_sentTrace allAcked
  cases sendStop
  case false => simp [allAcked, waits, brackets, ByteEvent.waits, ByteEvent.brackets]
  case true =>
    simp [waits, brackets, ByteEvent.waits, ByteEvent.brackets]
    omega

/-- A READ that uses the bus: a START, the address byte, the bytes received and a STOP. -/
theorem recorded_read (s : State) (a : Addr) (p : Phase) (w : Work) :
    ∃ es, Recorded es (3 + 19 * (1 + s.len.toNat) + 4, 2 + 9 * (1 + s.len.toNat)) s
      (concludeRead (ackAt s 0, effect (readEffect s a p w) s)) := by
  refine recorded_concludeRead rfl fun acked => ?_
  obtain ⟨waits, brackets⟩ := counts_gotTrace s 1 s.len.toNat
  simp [acked, waits, brackets, ByteEvent.waits, ByteEvent.brackets]
  omega

/-- A READ_MEM that uses the bus: a START, the address and sub-address bytes, and then a READ. -/
theorem recorded_readMem (s : State) (a : Addr) (sub : SubAddr) (p : Phase) (w : Work) :
    ∃ es, Recorded es (3 + 19 * (1 + (subBytes sub).length) + 3 + 19 * (1 + s.len.toNat) + 4,
        3 + 9 * (2 + (subBytes sub).length + s.len.toNat)) s
      (concludeRead (acked s 0 ((subBytes sub).length + 2),
        effect (readMemEffect s a sub ((subBytes sub).length + 1) p w) s)) := by
  refine recorded_concludeRead rfl fun allAcked => ?_
  have sentAcked : acked s 0 ((subBytes sub).length + 1) = true := by
    rw [acked_succ, Bool.and_eq_true] at allAcked
    exact allAcked.1
  obtain ⟨waits, brackets⟩ := counts_sentTrace (vs := addrByte a rwWrite :: subBytes sub) sentAcked
  obtain ⟨gotWaits, gotBrackets⟩ := counts_gotTrace s ((subBytes sub).length + 2) s.len.toNat
  simp [allAcked, sentAcked, waits, brackets, gotWaits, gotBrackets, ByteEvent.waits, ByteEvent.brackets]
  omega

/-- A read that does not use the bus. -/
theorem recorded_emptyRead (s : State) : Recorded [] (0, 0) s (emptyRead s) := ⟨rfl, rfl, fun _ => rfl⟩

theorem recorded_scan (s : State) : ∃ es, Recorded es
    (26 * (scanEndOf s.par - scanFirst), 11 * (scanEndOf s.par - scanFirst)) s (finish .ok (scanned s)) := by
  refine ⟨_, .of_symbols (bs := probeTrace s scanFirst 0 (scanEndOf s.par - scanFirst)) ?_ fun _ => ?_⟩
  · rw [scanned_eq]
    rfl
  · obtain ⟨waits, brackets⟩ := counts_probeTrace s scanFirst 0 (scanEndOf s.par - scanFirst)
    rw [waits, brackets]

/-! ### Every command -/

/-- The WAITs and brackets of a command that ends OK (R247). -/
def okCounts (i : Instr) (s : State) : Nat × Nat :=
  let n := s.len.toNat
  match i with
  | .start => (3, 1)
  | .stop => (4, 1)
  | .writeByte _ | .readByte _ => (19, 9)
  | .init | .deinit | .driveLow _ | .release _ | .readLine _ => (0, 0)
  | .delay => (1, 0)
  | .ping _ => (26, 11)
  | .write sendStop _ => (3 + 19 * (1 + n) + (if sendStop then 4 else 0), (if sendStop then 2 else 1) + 9 * (1 + n))
  | .read _ => if n = 0 ∧ s.par.read0Mode = .nobus then (0, 0) else (3 + 19 * (1 + n) + 4, 2 + 9 * (1 + n))
  | .writeMem _ u => (3 + 19 * (1 + (subBytes u).length + n) + 4, 2 + 9 * (1 + (subBytes u).length + n))
  | .readMem _ u =>
    if n = 0 then (0, 0)
    else (3 + 19 * (1 + (subBytes u).length) + 3 + 19 * (1 + n) + 4, 3 + 9 * (2 + (subBytes u).length + n))
  | .scan => (26 * (scanEndOf s.par - scanFirst), 11 * (scanEndOf s.par - scanFirst))

theorem toNat_len_eq_zero_iff {s : State} : s.len.toNat = 0 ↔ s.len = 0 := by
  rw [← BitVec.toNat_inj]
  rfl

theorem exec_recorded {i : Instr} {s t : State} (h : exec i s = .next t) : ∃ es, Recorded es (okCounts i s) s t := by
  have ends := exec_next h
  cases i with
  | init =>
    obtain ⟨-, ⟨-, rfl⟩ | ⟨-, -, rfl⟩ | ⟨-, -, -, rfl⟩⟩ := ends
    · exact ⟨[], rfl, rfl, fun _ => rfl⟩
    · exact ⟨[], rfl, rfl, fun _ => rfl⟩
    · exact ⟨[.drive .scl .released, .drive .sda .released], by rw [configure_eq]; rfl, rfl, fun _ => rfl⟩
  | deinit =>
    obtain rfl := ends
    exact ⟨[.drive .scl .released, .drive .sda .released], rfl, rfl, fun _ => rfl⟩
  | write b a =>
    obtain ⟨-, -, bytes, p, w, hp, rfl⟩ := ends
    have length : (addrByte a rwWrite :: bytes).length = 1 + s.len.toNat := by
      rw [List.length_cons, (payload_eq_some.mp hp).1, Nat.add_comm]
    exact recorded_write s length b p w
  | writeMem a u =>
    obtain ⟨-, -, bytes, p, w, hp, rfl⟩ := ends
    refine recorded_write s ?_ true p w
    rw [List.length_cons, List.length_append, (payload_eq_some.mp hp).1, Nat.add_comm, Nat.add_assoc]
  | read a =>
    obtain ⟨-, -, ⟨hlen, hmode, rfl⟩ | ⟨hbus, p, w, rfl⟩⟩ := ends
    · rw [okCounts, if_pos ⟨toNat_len_eq_zero_iff.mpr hlen, hmode⟩]
      exact ⟨[], recorded_emptyRead s⟩
    · rw [okCounts, if_neg (by rwa [toNat_len_eq_zero_iff])]
      exact recorded_read s a p w
  | readMem a u =>
    obtain ⟨-, -, ⟨hlen, rfl⟩ | ⟨hlen, p, w, rfl⟩⟩ := ends
    · rw [okCounts, if_pos (toNat_len_eq_zero_iff.mpr hlen)]
      exact ⟨[], recorded_emptyRead s⟩
    · rw [okCounts, if_neg (by rwa [toNat_len_eq_zero_iff])]
      exact recorded_readMem s a u p w
  | scan =>
    obtain ⟨-, rfl⟩ := ends
    exact recorded_scan s
  | ping | start | stop | writeByte | readByte =>
    obtain ⟨-, rfl⟩ := ends
    exact ⟨_, .of_symbols rfl fun _ => rfl⟩
  | driveLow l =>
    obtain ⟨-, rfl⟩ := ends
    exact ⟨[.drive l .low], by cases l <;> rfl, rfl, fun _ => rfl⟩
  | release l =>
    obtain ⟨-, rfl⟩ := ends
    exact ⟨[.drive l .released], by cases l <;> rfl, rfl, fun _ => rfl⟩
  | readLine l =>
    obtain ⟨-, rfl⟩ := ends
    obtain ⟨n, hn⟩ := sample_snd l s
    exact ⟨[.sample l (sample l s).1], by rw [hn]; rfl, rfl, fun _ => rfl⟩
  | delay =>
    obtain ⟨-, rfl⟩ := ends
    exact ⟨[.wait s.cfg.halfPeriod], rfl, rfl, fun _ => rfl⟩

/-- Settles O56: `exec_recorded` says it of every command. -/
theorem commandsRecordBracketedMicroOperations : Obligations.CommandsRecordBracketedMicroOperations := by
  unfold Obligations.CommandsRecordBracketedMicroOperations
  intro i s t h
  obtain ⟨es, recorded⟩ := exec_recorded h
  exact ⟨es, recorded.trace, recorded.bracketed⟩

/-- Settles O59: `okCounts` is the spec's table, and `exec_recorded` counts the events of every command. -/
theorem commandsWaitAsCounted : Obligations.CommandsWaitAsCounted := by
  unfold Obligations.CommandsWaitAsCounted
  intro i s t h hok
  obtain ⟨es, recorded⟩ := exec_recorded h
  refine ⟨es, by rw [recorded.eventsOf, hok], (recorded.counts hok).trans ?_⟩
  cases i with
  | write sendStop => cases sendStop <;> rfl
  | _ => rfl

end Sys2Proof.Machine
